-- ==== Sys2Proof/Word.lean ====
section
/-! DEFINITION. The widths of the spec's data: bytes, 32-bit registers and command words (R11, R90), 64-bit
micro-op words (R95) and buffer addresses (R9), 128-bit vectors (R18), and one sample held in 32 bits (R13). -/

namespace Sys2Proof

/-- One byte of the memory space (R14). -/
abbrev Byte := BitVec 8

/-- A host-visible register or a command word (R11, R90). -/
abbrev Word := BitVec 32

/-- A micro-op word (R95). -/
abbrev UWord := BitVec 64

/-- A buffer address as the registers hold it (R9). -/
abbrev Addr := BitVec 64

/-- A vector register's content (R18, R40). -/
abbrev Vec := BitVec 128

/-- One sample of any format, in the low bits; a U8 or U16 sample has its upper bits 0 (R13). -/
abbrev Sample := BitVec 32

end Sys2Proof
end

