-- ==== Sys2Proof/Config.lean ====
section
/-! DEFINITION. What an implementation fixes: the constants of R7 and R9, the OPEN parameters of R10, and the
free values the spec leaves open (NAN_DRAW, R17; drawn bytes, R74 and R281), which have no body. -/

namespace Sys2Proof

/-- VEC_BYTES (R7): 16 for this hardware. -/
def vecBytes : Nat := 16

/-- The number of bytes of the memory space, 2^ADDR_BITS (R9, R44). -/
def memorySize : Nat := 2 ^ 64

/-- SENTINEL_POLICY (R10, R236). -/
inductive SentinelPolicy where
  | identity
  | reject
deriving DecidableEq, Repr

/-- TIER (R10, R135). DESIGN CHOICE (log 6): `t2` is the tier that permits vloada where R207 does, `t1` never does. -/
inductive Tier where
  | t1
  | t2
deriving DecidableEq, Repr

/-- A region of the memory space whose reads have side effects (R70). -/
structure Region where
  base : Nat
  size : Nat
deriving DecidableEq, Repr

/-- The parameters of one RGPFE unit and its platform (R10, R70): no step changes them. -/
structure Params where
  /-- REG_BASE: where the register block sits in the host's address space (R22). -/
  regBase : Nat
  sentinelPolicy : SentinelPolicy
  tier : Tier
  /-- The platform's device memory (R70). -/
  deviceRegions : List Region
deriving DecidableEq, Repr

/-- The parameters the reset state carries: the default policy of R10; the rest is DESIGN CHOICE (log 6). -/
def Params.initial : Params :=
  { regBase := 0, sentinelPolicy := .identity, tier := .t1, deviceRegions := [] }

/-- NAN_DRAW (R10, R17): sign and fraction of the n-th NaN drawn. A free value (log 3). -/
opaque Config.nanBits : Nat → BitVec 24

/-- The n-th drawn byte value (R74, R281). A free value (log 4). -/
opaque Config.freeByte : Nat → Byte

end Sys2Proof
end

