-- ==== Sys2Proof/Syntax.lean ====
section
/-! DEFINITION. The instructions: one constructor per row of spec/opcode_table.json (R92, R97), and their
operand types. -/

namespace Sys2Proof

/-- The pixel representation (R3, R90). -/
inductive Fmt where
  | u8
  | u16
  | f32
deriving DecidableEq, Repr

/-- PS(fmt), the pixel size in bytes (R8). -/
def Fmt.ps : Fmt → Nat
  | .u8 => 1
  | .u16 => 2
  | .f32 => 4

/-- LANES(fmt) (R7). -/
def Fmt.lanes (fmt : Fmt) : Nat := vecBytes / fmt.ps

/-- The number of bits of a sample, 8*PS(fmt). -/
def Fmt.bits (fmt : Fmt) : Nat := 8 * fmt.ps

/-- MAXV(fmt) (R13); only U8 and U16 have one that a rule reads. -/
def Fmt.maxv (fmt : Fmt) : Nat := 2 ^ fmt.bits - 1

/-- The filter modes (R92). -/
inductive Mode where
  | undef
  | pass
  | clamp1
  | clamp2
  | clamp3
  | clamp4
  | mean8
  | mean9
  | median8
deriving DecidableEq, Repr

/-- An index of the internal vector register file V[0..31] (R40, R96). -/
abbrev VReg := Fin 32

/-- A neighbour index 0..8 (R98). -/
abbrev Nbi := Fin 9

/-- Every instruction of the opcode table: nine command words (R92) and thirteen micro-ops (R97). -/
inductive Instr where
  | filterUndef (fmt : Fmt) (align : Bool)
  | filterPass (fmt : Fmt) (align : Bool)
  | filterClamp1 (fmt : Fmt) (align : Bool)
  | filterClamp2 (fmt : Fmt) (align : Bool)
  | filterClamp3 (fmt : Fmt) (align : Bool)
  | filterClamp4 (fmt : Fmt) (align : Bool)
  | filterMean8 (fmt : Fmt) (align : Bool)
  | filterMean9 (fmt : Fmt) (align : Bool)
  | filterMedian8 (fmt : Fmt) (align : Bool)
  | vmin (fmt : Fmt) (d a b : VReg)
  | vmax (fmt : Fmt) (d a b : VReg)
  | vsortp (fmt : Fmt) (d e a b : VReg)
  | vclip (fmt : Fmt) (d a b c : VReg)
  | vabsdiff (fmt : Fmt) (d a b : VReg)
  | vseleq (fmt : Fmt) (d a b c f : VReg)
  | vblend (fmt : Fmt) (d a b c : VReg)
  | vloadu (fmt : Fmt) (d : VReg) (nb : Nbi) (sc : Bool)
  | vloada (fmt : Fmt) (d : VReg) (nb : Nbi)
  | vstoreu (fmt : Fmt) (a : VReg) (sc : Bool)
  | kmedavg (fmt : Fmt) (d a b : VReg)
  | kmean8 (fmt : Fmt) (d : VReg)
  | kmean9 (fmt : Fmt) (d : VReg)
deriving DecidableEq, Repr

/-- The FILTER_PLANE command of a mode (R90, R92). -/
def Instr.filter (m : Mode) (fmt : Fmt) (align : Bool) : Instr :=
  match m with
  | .undef => .filterUndef fmt align
  | .pass => .filterPass fmt align
  | .clamp1 => .filterClamp1 fmt align
  | .clamp2 => .filterClamp2 fmt align
  | .clamp3 => .filterClamp3 fmt align
  | .clamp4 => .filterClamp4 fmt align
  | .mean8 => .filterMean8 fmt align
  | .mean9 => .filterMean9 fmt align
  | .median8 => .filterMedian8 fmt align

end Sys2Proof
end

