-- ==== Sys2Proof/WellFormed.lean ====
section
/-! DEFINITION. The conditions on an instruction that its operand types do not already carry (R99). -/

namespace Sys2Proof

/-- A pair of distinct destinations (R99, R126: vsortp with D = E is reserved). -/
def distinctDestinations : Instr → Bool
  | .vsortp _ d e _ _ => d != e
  | .filterUndef _ _ => true
  | .filterPass _ _ => true
  | .filterClamp1 _ _ => true
  | .filterClamp2 _ _ => true
  | .filterClamp3 _ _ => true
  | .filterClamp4 _ _ => true
  | .filterMean8 _ _ => true
  | .filterMean9 _ _ => true
  | .filterMedian8 _ _ => true
  | .vmin _ _ _ _ => true
  | .vmax _ _ _ _ => true
  | .vclip _ _ _ _ _ => true
  | .vabsdiff _ _ _ _ => true
  | .vseleq _ _ _ _ _ _ => true
  | .vblend _ _ _ _ _ => true
  | .vloadu _ _ _ _ => true
  | .vloada _ _ _ => true
  | .vstoreu _ _ _ => true
  | .kmedavg _ _ _ _ => true
  | .kmean8 _ _ => true
  | .kmean9 _ _ => true

/-- The instruction is one that a word of the spec encodes (R99). A reserved format, a neighbour index above 8, a
scalar vloada and nonzero unused fields have no term: Fmt, Nbi and the constructors leave them out. -/
def Instr.wellFormed (i : Instr) : Bool := distinctDestinations i

end Sys2Proof
end

