-- ==== Sys2Proof/Decode.lean ====
section
/-! DEFINITION. Decoding and encoding of command words (R90 to R94) and micro-op words (R95 to R99). Which of the
two a word is comes from where it stands, never from its bits (R100), so the two decoders are separate. Assembler
text (R101, R103). -/

namespace Sys2Proof

/-- Why a word is rejected. -/
inductive Reject where
  /-- Command: MODE is none of the table of R92 (R93). -/
  | reservedMode
  /-- Command or micro-op: FMT = 3 (R93, R99). -/
  | reservedFormat
  /-- Command: bits 11:10 or 31:13 are not 0 (R93). -/
  | reservedCommandBits
  /-- Micro-op: OP is none of the table of R97 (R99). -/
  | reservedOp
  /-- Micro-op: bits 63:43 are not 0 (R99). -/
  | reservedUopBits
  /-- Micro-op: a field the operation does not use is not 0 (R96, R99). -/
  | unusedField
  /-- Micro-op: NBI is above 8 (R96, R99). -/
  | reservedNeighbour
  /-- Micro-op: vloada with SC = 1 (R99, R122). -/
  | scalarAlignedLoad
  /-- Micro-op: vsortp with D = E (R99, R126). -/
  | sameDestinations
deriving DecidableEq, Repr

/-! ### Formats -/

/-- The format of an FMT field (R90, R95); 3 is reserved. -/
def Fmt.ofBits (b : BitVec 2) : Option Fmt :=
  if b = 0#2 then some .u8 else if b = 1#2 then some .u16 else if b = 2#2 then some .f32 else none

/-- The FMT field of a format (R90, R95). -/
def Fmt.toBits : Fmt → BitVec 2
  | .u8 => 0#2
  | .u16 => 1#2
  | .f32 => 2#2

/-! ### Command words (R90 to R94) -/

/-- The mode identifier as a signed integer (R92). -/
def Mode.number : Mode → Int
  | .undef => -1
  | .pass => 0
  | .clamp1 => 1
  | .clamp2 => 2
  | .clamp3 => 3
  | .clamp4 => 4
  | .mean8 => 19
  | .mean9 => 20
  | .median8 => 64

/-- The mode of a MODE field (R91, R92): the field is sign-extended and looked up. -/
def Mode.ofBits (b : BitVec 8) : Option Mode :=
  if b.toInt = -1 then some .undef
  else if b.toInt = 0 then some .pass
  else if b.toInt = 1 then some .clamp1
  else if b.toInt = 2 then some .clamp2
  else if b.toInt = 3 then some .clamp3
  else if b.toInt = 4 then some .clamp4
  else if b.toInt = 19 then some .mean8
  else if b.toInt = 20 then some .mean9
  else if b.toInt = 64 then some .median8
  else none

/-- The MODE field of a mode (R92). -/
def Mode.toBits (m : Mode) : BitVec 8 := BitVec.ofInt 8 m.number

/-- The MODE field, bits 7:0 (R90). -/
def commandMode (w : Word) : BitVec 8 := w.extractLsb' 0 8

/-- The FMT field, bits 9:8 (R90). -/
def commandFmt (w : Word) : BitVec 2 := w.extractLsb' 8 2

/-- The ALIGN field, bit 12 (R90). -/
def commandAlign (w : Word) : Bool := w.getLsbD 12

/-- The reserved bits, bits 31:13 above bits 11:10 (R91). -/
def commandReserved (w : Word) : BitVec 21 := w.extractLsb' 13 19 ++ w.extractLsb' 10 2

/-- Decode a command word (R90 to R94). -/
def decodeCommand (w : Word) : Except Reject Instr :=
  if commandReserved w ≠ 0#21 then .error .reservedCommandBits
  else
    match Fmt.ofBits (commandFmt w), Mode.ofBits (commandMode w) with
    | none, _ => .error .reservedFormat
    | some _, none => .error .reservedMode
    | some fmt, some m => .ok (Instr.filter m fmt (commandAlign w))

/-- The command word of a mode, a format and the alignment hint (R90). -/
def encodeCommand (m : Mode) (fmt : Fmt) (align : Bool) : Word :=
  0#19 ++ BitVec.ofBool align ++ 0#2 ++ fmt.toBits ++ m.toBits

/-! ### Micro-op words (R95 to R99) -/

/-- The fields of a micro-op word (R95). -/
structure UopFields where
  op : BitVec 6
  fmt : BitVec 2
  d : BitVec 5
  e : BitVec 5
  a : BitVec 5
  b : BitVec 5
  c : BitVec 5
  f : BitVec 5
  nbi : BitVec 4
  sc : BitVec 1
  res : BitVec 21
deriving DecidableEq, Repr

/-- The fields of a word, at the bits of R95. -/
def uopFields (u : UWord) : UopFields :=
  { op := u.extractLsb' 0 6, fmt := u.extractLsb' 6 2, d := u.extractLsb' 8 5, e := u.extractLsb' 13 5,
    a := u.extractLsb' 18 5, b := u.extractLsb' 23 5, c := u.extractLsb' 28 5, f := u.extractLsb' 33 5,
    nbi := u.extractLsb' 38 4, sc := u.extractLsb' 42 1, res := u.extractLsb' 43 21 }

/-- The word of its fields, the highest first (R95). -/
def uopWordOf (x : UopFields) : UWord :=
  x.res ++ x.sc ++ x.nbi ++ x.f ++ x.c ++ x.b ++ x.a ++ x.e ++ x.d ++ x.fmt ++ x.op

/-- Only D, A and B may be nonzero (R96, R97). -/
def onlyDAB (x : UopFields) : Bool := x.e = 0 && x.c = 0 && x.f = 0 && x.nbi = 0 && x.sc = 0

/-- Only D, A, B and C may be nonzero (R96, R97). -/
def onlyDABC (x : UopFields) : Bool := x.e = 0 && x.f = 0 && x.nbi = 0 && x.sc = 0

/-- Only D may be nonzero (R96, R97). -/
def onlyD (x : UopFields) : Bool := x.e = 0 && x.a = 0 && x.b = 0 && x.c = 0 && x.f = 0 && x.nbi = 0 && x.sc = 0

/-- Only D, NBI and SC may be nonzero (R96, R97). -/
def onlyDNbiSc (x : UopFields) : Bool := x.e = 0 && x.a = 0 && x.b = 0 && x.c = 0 && x.f = 0

/-- Only A and SC may be nonzero (R96, R97). -/
def onlyASc (x : UopFields) : Bool := x.d = 0 && x.e = 0 && x.b = 0 && x.c = 0 && x.f = 0 && x.nbi = 0

/-- The instruction if the fields it does not use are 0, else the rejection (R96, R99). -/
def ifUnusedZero (ok : Bool) (i : Instr) : Except Reject Instr := if ok then .ok i else .error .unusedField

/-- A load's neighbour index (R98); 9..15 are reserved. -/
def nbiOfBits (b : BitVec 4) : Option Nbi := if h : b.toNat < 9 then some ⟨b.toNat, h⟩ else none

/-- Decode the fields of a micro-op word whose format is known (R97, R99). -/
def decodeUopFields (fmt : Fmt) (x : UopFields) : Except Reject Instr :=
  if x.op = 0x01#6 then ifUnusedZero (onlyDAB x) (.vmin fmt x.d.toFin x.a.toFin x.b.toFin)
  else if x.op = 0x02#6 then ifUnusedZero (onlyDAB x) (.vmax fmt x.d.toFin x.a.toFin x.b.toFin)
  else if x.op = 0x03#6 then
    if x.d = x.e then .error .sameDestinations
    else ifUnusedZero (x.c = 0 && x.f = 0 && x.nbi = 0 && x.sc = 0)
      (.vsortp fmt x.d.toFin x.e.toFin x.a.toFin x.b.toFin)
  else if x.op = 0x04#6 then
    ifUnusedZero (onlyDABC x) (.vclip fmt x.d.toFin x.a.toFin x.b.toFin x.c.toFin)
  else if x.op = 0x05#6 then ifUnusedZero (onlyDAB x) (.vabsdiff fmt x.d.toFin x.a.toFin x.b.toFin)
  else if x.op = 0x06#6 then
    ifUnusedZero (x.e = 0 && x.nbi = 0 && x.sc = 0)
      (.vseleq fmt x.d.toFin x.a.toFin x.b.toFin x.c.toFin x.f.toFin)
  else if x.op = 0x07#6 then
    ifUnusedZero (onlyDABC x) (.vblend fmt x.d.toFin x.a.toFin x.b.toFin x.c.toFin)
  else if x.op = 0x08#6 then
    match nbiOfBits x.nbi with
    | none => .error .reservedNeighbour
    | some nb => ifUnusedZero (onlyDNbiSc x) (.vloadu fmt x.d.toFin nb (x.sc = 1#1))
  else if x.op = 0x09#6 then
    match nbiOfBits x.nbi with
    | none => .error .reservedNeighbour
    | some nb =>
      if x.sc = 1#1 then .error .scalarAlignedLoad
      else ifUnusedZero (onlyDNbiSc x) (.vloada fmt x.d.toFin nb)
  else if x.op = 0x0A#6 then ifUnusedZero (onlyASc x) (.vstoreu fmt x.a.toFin (x.sc = 1#1))
  else if x.op = 0x10#6 then ifUnusedZero (onlyDAB x) (.kmedavg fmt x.d.toFin x.a.toFin x.b.toFin)
  else if x.op = 0x11#6 then ifUnusedZero (onlyD x) (.kmean8 fmt x.d.toFin)
  else if x.op = 0x12#6 then ifUnusedZero (onlyD x) (.kmean9 fmt x.d.toFin)
  else .error .reservedOp

/-- Decode a micro-op word (R95 to R99). -/
def decodeUop (u : UWord) : Except Reject Instr :=
  if (uopFields u).res ≠ 0#21 then .error .reservedUopBits
  else
    match Fmt.ofBits (uopFields u).fmt with
    | none => .error .reservedFormat
    | some fmt => decodeUopFields fmt (uopFields u)

/-- The fields of a micro-op whose operation and format are given and whose other fields are 0. -/
def blankFields (op : BitVec 6) (fmt : Fmt) : UopFields :=
  { op := op, fmt := fmt.toBits, d := 0, e := 0, a := 0, b := 0, c := 0, f := 0, nbi := 0, sc := 0, res := 0 }

/-- A register field (R96). -/
def regBits (r : VReg) : BitVec 5 := BitVec.ofFin r

/-- A neighbour field (R96, R98). -/
def nbiBits (n : Nbi) : BitVec 4 := BitVec.ofNat 4 n.val

/-! ### Both formats -/

/-- A word of the spec: a command word or a micro-op word (R90, R95). -/
inductive CodeWord where
  | command (w : Word)
  | microOp (u : UWord)
deriving DecidableEq, Repr

/-- Decode a word that stands where its format says (R100). -/
def decode : CodeWord → Except Reject Instr
  | .command w => decodeCommand w
  | .microOp u => decodeUop u

/-- The word of an instruction (R90, R92, R95, R97); of a well-formed one, the word that decodes to it. -/
def encode : Instr → CodeWord
  | .filterUndef fmt align => .command (encodeCommand .undef fmt align)
  | .filterPass fmt align => .command (encodeCommand .pass fmt align)
  | .filterClamp1 fmt align => .command (encodeCommand .clamp1 fmt align)
  | .filterClamp2 fmt align => .command (encodeCommand .clamp2 fmt align)
  | .filterClamp3 fmt align => .command (encodeCommand .clamp3 fmt align)
  | .filterClamp4 fmt align => .command (encodeCommand .clamp4 fmt align)
  | .filterMean8 fmt align => .command (encodeCommand .mean8 fmt align)
  | .filterMean9 fmt align => .command (encodeCommand .mean9 fmt align)
  | .filterMedian8 fmt align => .command (encodeCommand .median8 fmt align)
  | .vmin fmt d a b =>
    .microOp (uopWordOf { blankFields 0x01#6 fmt with d := regBits d, a := regBits a, b := regBits b })
  | .vmax fmt d a b =>
    .microOp (uopWordOf { blankFields 0x02#6 fmt with d := regBits d, a := regBits a, b := regBits b })
  | .vsortp fmt d e a b =>
    .microOp (uopWordOf
      { blankFields 0x03#6 fmt with d := regBits d, e := regBits e, a := regBits a, b := regBits b })
  | .vclip fmt d a b c =>
    .microOp (uopWordOf
      { blankFields 0x04#6 fmt with d := regBits d, a := regBits a, b := regBits b, c := regBits c })
  | .vabsdiff fmt d a b =>
    .microOp (uopWordOf { blankFields 0x05#6 fmt with d := regBits d, a := regBits a, b := regBits b })
  | .vseleq fmt d a b c f =>
    .microOp (uopWordOf
      { blankFields 0x06#6 fmt with
        d := regBits d, a := regBits a, b := regBits b, c := regBits c, f := regBits f })
  | .vblend fmt d a b c =>
    .microOp (uopWordOf
      { blankFields 0x07#6 fmt with d := regBits d, a := regBits a, b := regBits b, c := regBits c })
  | .vloadu fmt d nb sc =>
    .microOp (uopWordOf
      { blankFields 0x08#6 fmt with d := regBits d, nbi := nbiBits nb, sc := BitVec.ofBool sc })
  | .vloada fmt d nb =>
    .microOp (uopWordOf { blankFields 0x09#6 fmt with d := regBits d, nbi := nbiBits nb })
  | .vstoreu fmt a sc =>
    .microOp (uopWordOf { blankFields 0x0A#6 fmt with a := regBits a, sc := BitVec.ofBool sc })
  | .kmedavg fmt d a b =>
    .microOp (uopWordOf { blankFields 0x10#6 fmt with d := regBits d, a := regBits a, b := regBits b })
  | .kmean8 fmt d => .microOp (uopWordOf { blankFields 0x11#6 fmt with d := regBits d })
  | .kmean9 fmt d => .microOp (uopWordOf { blankFields 0x12#6 fmt with d := regBits d })

/-- The word that a table row's bits are (R100): up to 32 bits a command word, up to 64 a micro-op word. -/
def tableWord (nbits w : Nat) : Option CodeWord :=
  if nbits ≤ 32 then some (.command (BitVec.ofNat 32 (w % 2 ^ nbits)))
  else if nbits ≤ 64 then some (.microOp (BitVec.ofNat 64 (w % 2 ^ nbits)))
  else none

/-- The instruction the decoder reads from a table row's bits. -/
def decodeTableWord (nbits w : Nat) : Option Instr :=
  match tableWord nbits w with
  | none => none
  | some cw =>
    match decode cw with
    | .ok i => some i
    | .error _ => none

/-! ### Assembler text (R101, R103) -/

/-- The format suffix (R101, R103). -/
def Fmt.asm : Fmt → String
  | .u8 => "u8"
  | .u16 => "u16"
  | .f32 => "f32"

/-- A register operand (R103). -/
def VReg.asm (r : VReg) : String := "v" ++ toString r.val

/-- A neighbour operand (R103). -/
def Nbi.asm (n : Nbi) : String := "nb" ++ toString n.val

/-- A command's text (R101). -/
def commandAsm (name : String) (fmt : Fmt) (align : Bool) : String :=
  "filter." ++ name ++ "." ++ fmt.asm ++ (if align then " align" else "")

/-- A micro-op's text (R103): mnemonic, format, `.s` for a scalar form, then the operands. -/
def uopAsm (name : String) (fmt : Fmt) (sc : Bool) (operands : List String) : String :=
  name ++ "." ++ fmt.asm ++ (if sc then ".s" else "") ++ " " ++ ", ".intercalate operands

/-- The assembler text of an instruction (R101, R103). -/
def Instr.asm : Instr → String
  | .filterUndef fmt align => commandAsm "undef" fmt align
  | .filterPass fmt align => commandAsm "pass" fmt align
  | .filterClamp1 fmt align => commandAsm "clamp1" fmt align
  | .filterClamp2 fmt align => commandAsm "clamp2" fmt align
  | .filterClamp3 fmt align => commandAsm "clamp3" fmt align
  | .filterClamp4 fmt align => commandAsm "clamp4" fmt align
  | .filterMean8 fmt align => commandAsm "mean8" fmt align
  | .filterMean9 fmt align => commandAsm "mean9" fmt align
  | .filterMedian8 fmt align => commandAsm "median8" fmt align
  | .vmin fmt d a b => uopAsm "vmin" fmt false [VReg.asm d, VReg.asm a, VReg.asm b]
  | .vmax fmt d a b => uopAsm "vmax" fmt false [VReg.asm d, VReg.asm a, VReg.asm b]
  | .vsortp fmt d e a b => uopAsm "vsortp" fmt false [VReg.asm d, VReg.asm e, VReg.asm a, VReg.asm b]
  | .vclip fmt d a b c => uopAsm "vclip" fmt false [VReg.asm d, VReg.asm a, VReg.asm b, VReg.asm c]
  | .vabsdiff fmt d a b => uopAsm "vabsdiff" fmt false [VReg.asm d, VReg.asm a, VReg.asm b]
  | .vseleq fmt d a b c f =>
    uopAsm "vseleq" fmt false [VReg.asm d, VReg.asm a, VReg.asm b, VReg.asm c, VReg.asm f]
  | .vblend fmt d a b c => uopAsm "vblend" fmt false [VReg.asm d, VReg.asm a, VReg.asm b, VReg.asm c]
  | .vloadu fmt d nb sc => uopAsm "vloadu" fmt sc [VReg.asm d, Nbi.asm nb]
  | .vloada fmt d nb => uopAsm "vloada" fmt false [VReg.asm d, Nbi.asm nb]
  | .vstoreu fmt a sc => uopAsm "vstoreu" fmt sc [VReg.asm a]
  | .kmedavg fmt d a b => uopAsm "kmedavg" fmt false [VReg.asm d, VReg.asm a, VReg.asm b]
  | .kmean8 fmt d => uopAsm "kmean8" fmt false [VReg.asm d]
  | .kmean9 fmt d => uopAsm "kmean9" fmt false [VReg.asm d]

end Sys2Proof
end

