-- ==== Sys2Proof/Machine/State.lean ====
section
/-! DEFINITION. The machine's state as plain data: the register block (R22), STATUS (R30), the engine's internal
state (R40 to R42), the memory space (R44), the bus (R20) and the model's own counters; and the state after reset
(R45). -/

namespace Sys2Proof.Machine

/-- Why the machine stops: the model faults of R262. The spec gives no behaviour after any of them. -/
inductive Fault where
  /-- A false alignment assertion at acceptance (R68) or an unaligned vloada (R122). Safe: nothing is claimed. -/
  | alignHint
  /-- The read set and the write set share a byte (R75). Safe: nothing is claimed. -/
  | overlap
  /-- A byte outside the memory space: of RS or WS at acceptance (R76), or of a load or a store (R121 to R123). Safe. -/
  | addrRange
  /-- Another agent writes RS or WS during a launch (R74). Safe: nothing is claimed. -/
  | concurrentAccess
  /-- A register access that is not an aligned 32-bit access (R35). Safe: nothing is claimed. -/
  | regAccess
  /-- A reserved micro-op word reaches the datapath (R99). Safe: nothing is claimed. -/
  | reservedUop
  /-- A buffer in memory with read side effects (R70). Safe: nothing is claimed. -/
  | deviceMemory
deriving DecidableEq, Repr

/-- Why a step has no meaning. -/
inductive Refusal where
  /-- Raised by an arm of `exec` for an instruction the model gives no meaning to; no arm does. Safe. -/
  | notModelled (mnemonic : String)
deriving DecidableEq, Repr

/-- What a step answers. -/
abbrev Outcome (σ : Type) := Host.Outcome σ Fault Refusal

/-! ### The parts of the state -/

/-- The result code of STATUS.RESULT (R30, R260). -/
inductive ResultCode where
  | none
  | ok
  | errMode
  | errGeometry
deriving DecidableEq, Repr

/-- The phase of the engine (R42); STATUS.BUSY is 1 exactly when it is `busy` (R30). -/
inductive Phase where
  | idle
  | busy
deriving DecidableEq, Repr

/-- The writable registers of the register block (R22). -/
structure Regs where
  cmd : Word
  srcBaseLo : Word
  srcBaseHi : Word
  dstBaseLo : Word
  dstBaseHi : Word
  srcStride : Word
  dstStride : Word
  width : Word
  height : Word
deriving DecidableEq, Repr

/-- The latched descriptor LD (R41). -/
structure Latch where
  mode : Mode
  fmt : Fmt
  align : Bool
  /-- The command word's reserved bits (R41, R91). -/
  reserved : BitVec 21
  srcBase : Addr
  dstBase : Addr
  srcStride : Word
  dstStride : Word
  width : Word
  height : Word
deriving DecidableEq, Repr

/-- The raster cursor (y, x) (R42). -/
structure Cursor where
  y : Nat
  x : Nat
deriving DecidableEq, Repr

/-- The memory space (R44): (address, byte) pairs, addresses strictly rising, no byte equal to 0; an address not
listed reads as 0, which is DESIGN CHOICE (log 2). -/
abbrev Memory := List Host.Cell

/-- Who issues a bus access (R20, R74, R271): the host whose program `State.host` holds, or any other bus master. -/
inductive Master where
  | host
  | others
deriving DecidableEq, Repr

/-- One access of a bus master, or a pulse of the reset line. -/
inductive Access where
  /-- A register write of `bytes` bytes at a host address (R22, R35); only a 4-byte one uses `value`. -/
  | regWrite (addr bytes : Nat) (value : Word)
  /-- A register read of `bytes` bytes at a host address (R22, R35). -/
  | regRead (addr bytes : Nat)
  /-- A byte written to the memory space by its owner's own means (R60). -/
  | memWrite (addr : Addr) (value : Byte)
  /-- A byte read from the memory space by its owner's own means (R60). -/
  | memRead (addr : Addr)
  /-- Reset (R280, R281). -/
  | reset
deriving DecidableEq, Repr

/-- What the bus last answered a master. -/
inductive Response where
  /-- Nothing yet. -/
  | none
  /-- A write has completed. -/
  | done
  /-- The value of a register read. -/
  | data (value : Word)
  /-- The byte of a memory read. -/
  | byte (value : Byte)
  /-- The answer of an accepted CMD write is held back while its launch runs (R28). -/
  | stalled
  /-- A reset ended the launch: the CMD write never completes normally (R281). -/
  | aborted
  /-- The address is outside the register block; the unit does not answer (R22). -/
  | unclaimed
deriving DecidableEq, Repr

/-- The machine's state. -/
structure State where
  /-- The parameters of the unit (R10); no step changes them. -/
  params : Params
  /-- The writable registers (R22). -/
  regs : Regs
  /-- STATUS.RESULT (R30). -/
  result : ResultCode
  /-- The phase, seen as STATUS.BUSY (R30, R42). -/
  phase : Phase
  /-- LD (R41). -/
  latch : Latch
  /-- The raster cursor (R42). -/
  cursor : Cursor
  /-- V[0..31] (R40). -/
  v : Vector Vec 32
  /-- The memory space (R44). -/
  mem : Memory
  /-- The model's own: how many free values have been drawn (R16, R17). -/
  draws : Nat
  /-- The model's own: a micro-op word at the datapath's input that no launch issued (R95, R99). -/
  uopWord : Option UWord
  /-- The model's own: the host's accesses still to come, in order, one entry a turn that the host is not stalled in;
  `none` when it lets a turn pass (R20, R28, R283). -/
  host : List (Option Access)
  /-- The model's own: one entry a turn; `some a` when another bus master acts in it (R74, R271). -/
  others : List (Option Access)
  /-- The model's own: the master whose CMD write the launch answers (R28). -/
  issuer : Master
  /-- The model's own: what the bus last answered the host (R28). -/
  hostResponse : Response
  /-- The model's own: what the bus last answered another master. -/
  othersResponse : Response
deriving DecidableEq, Repr

/-! ### Reset values (R22, R45) -/

/-- Every register of the block at 0 (R22, R45). -/
def Regs.reset : Regs :=
  { cmd := 0, srcBaseLo := 0, srcBaseHi := 0, dstBaseLo := 0, dstBaseHi := 0, srcStride := 0, dstStride := 0,
    width := 0, height := 0 }

/-- LD when no launch holds it. The spec gives it no value that a rule reads (R41, R45): DESIGN CHOICE (log 1). -/
def Latch.cleared : Latch :=
  { mode := .pass, fmt := .u8, align := false, reserved := 0, srcBase := 0, dstBase := 0, srcStride := 0,
    dstStride := 0, width := 0, height := 0 }

/-- The cursor's first position (R24); outside a launch DESIGN CHOICE (log 1). -/
def Cursor.origin : Cursor := { y := 0, x := 0 }

/-- The vector registers at reset: DESIGN CHOICE (log 1), since R40 and R45 give no value that a rule reads. -/
def vectorReset : Vector Vec 32 := Vector.replicate 32 0

/-- The machine right after reset (R45, R280). -/
def State.reset : State :=
  { params := Params.initial, regs := Regs.reset, result := .none, phase := .idle, latch := Latch.cleared,
    cursor := Cursor.origin, v := vectorReset, mem := [], draws := 0, uopWord := none, host := [], others := [],
    issuer := .host, hostResponse := .none, othersResponse := .none }

end Sys2Proof.Machine
end

