-- ==== Sys2Proof/Machine/Flags.lean ====
section
/-! DEFINITION. RGPFE has no condition codes (R23); the only status is STATUS (R30), computed here from the result
code and the phase. -/

namespace Sys2Proof.Machine

/-- The code of STATUS.RESULT (R30, R260). -/
def ResultCode.code : ResultCode → BitVec 2
  | .none => 0#2
  | .ok => 1#2
  | .errMode => 2#2
  | .errGeometry => 3#2

/-- STATUS.BUSY: 1 exactly when the phase is BUSY (R30, R42). -/
def Phase.busyBit : Phase → BitVec 1
  | .idle => 0#1
  | .busy => 1#1

/-- The content of STATUS: BUSY in bit 31, bits 30:2 read as 0, RESULT in bits 1:0 (R30). -/
def statusWord (s : State) : Word := s.phase.busyBit ++ 0#29 ++ s.result.code

end Sys2Proof.Machine
end

