-- ==== Sys2Proof/Machine/F32.lean ====
section
/-! DEFINITION. The F32 primitives of R17: IEEE 754 binary32 with round-to-nearest-ties-to-even, subnormals kept, no
trap, and a NaN result whose encoding the caller supplies (NAN_DRAW). A finite value is held exactly as an integer
number of units of 2^-149; a result is computed exactly and rounded once. -/

namespace Sys2Proof.Machine

/-- Sign bit 31 (R13). -/
def f32Sign (a : Sample) : Bool := a.getLsbD 31

/-- Exponent field, bits 30:23 (R13). -/
def f32Exp (a : Sample) : Nat := (a.extractLsb' 23 8).toNat

/-- Fraction field, bits 22:0 (R13). -/
def f32Frac (a : Sample) : Nat := (a.extractLsb' 0 23).toNat

/-- A NaN encoding (R13). -/
def f32IsNaN (a : Sample) : Bool := f32Exp a == 255 && f32Frac a != 0

/-- An infinity (R13). -/
def f32IsInf (a : Sample) : Bool := f32Exp a == 255 && f32Frac a == 0

/-- The magnitude of a finite value in units of 2^-149 (R13, R17: subnormals are kept). -/
def f32Mag (a : Sample) : Nat :=
  if f32Exp a = 0 then f32Frac a else (2 ^ 23 + f32Frac a) * 2 ^ (f32Exp a - 1)

/-- A finite value in units of 2^-149. -/
def f32Units (a : Sample) : Int := if f32Sign a then -(f32Mag a : Int) else (f32Mag a : Int)

/-- The encoding with a given sign and low 31 bits. -/
def f32Pack (sign : Bool) (low : Nat) : Sample := BitVec.ofNat 32 (if sign then 2 ^ 31 + low else low)

/-- An infinity of a given sign. -/
def f32Inf (sign : Bool) : Sample := f32Pack sign 0x7F800000

/-- p/q rounded to the nearest integer, ties to even (R17). -/
def roundHalfEven (p q : Nat) : Nat :=
  if q < 2 * (p % q) ∨ (q = 2 * (p % q) ∧ p / q % 2 = 1) then p / q + 1 else p / q

/-- How many bits the last place of p/q lies above 2^-149. -/
def f32Scale (p q : Nat) : Nat := Nat.log2 (p / q) - 23

/-- The low 31 bits of the binary32 value nearest to p/q units of 2^-149, ties to even, or those of infinity when the
rounded value is too large (R17). -/
def f32RoundMag (p q : Nat) : Nat :=
  min (f32Scale p q * 2 ^ 23 + roundHalfEven p (q * 2 ^ f32Scale p q)) 0x7F800000

/-- The binary32 value nearest to ±p/q units of 2^-149 (R17). -/
def f32Round (sign : Bool) (p q : Nat) : Sample := f32Pack sign (f32RoundMag p q)

/-- -v: bit 31 inverted. -/
def f32Neg (v : Sample) : Sample := v ^^^ 0x80000000#32

/-- f32_abs: bit 31 cleared (R17). -/
def f32Abs (v : Sample) : Sample := v &&& 0x7FFFFFFF#32

/-- f32_add (R17); `nan` is the drawn encoding of a NaN result. -/
def f32Add (nan a b : Sample) : Sample :=
  if f32IsNaN a || f32IsNaN b then nan
  else if f32IsInf a then (if f32IsInf b && f32Sign a != f32Sign b then nan else a)
  else if f32IsInf b then b
  else if f32Units a + f32Units b = 0 then f32Pack (f32Sign a && f32Sign b) 0
  else f32Round (decide (f32Units a + f32Units b < 0)) (f32Units a + f32Units b).natAbs 1

/-- f32_sub (R17): a + (-b). -/
def f32Sub (nan a b : Sample) : Sample := f32Add nan a (f32Neg b)

/-- f32_mul (R17). -/
def f32Mul (nan a b : Sample) : Sample :=
  if f32IsNaN a || f32IsNaN b then nan
  else if f32IsInf a then (if f32Mag b = 0 then nan else f32Inf (f32Sign a != f32Sign b))
  else if f32IsInf b then (if f32Mag a = 0 then nan else f32Inf (f32Sign a != f32Sign b))
  else f32Round (f32Sign a != f32Sign b) (f32Mag a * f32Mag b) (2 ^ 149)

/-- f32_div (R17). -/
def f32Div (nan a b : Sample) : Sample :=
  if f32IsNaN a || f32IsNaN b then nan
  else if f32IsInf a then (if f32IsInf b then nan else f32Inf (f32Sign a != f32Sign b))
  else if f32IsInf b then f32Pack (f32Sign a != f32Sign b) 0
  else if f32Mag b = 0 then (if f32Mag a = 0 then nan else f32Inf (f32Sign a != f32Sign b))
  else f32Round (f32Sign a != f32Sign b) (f32Mag a * 2 ^ 149) (f32Mag b)

/-- An integer that orders the encodings that are not NaNs as their values: +0 and -0 both give 0 (R17). -/
def f32Key (a : Sample) : Int :=
  if f32Sign a then -((a.extractLsb' 0 31).toNat : Int) else ((a.extractLsb' 0 31).toNat : Int)

/-- f32_lt: the ordered comparison, false when either operand is a NaN (R17). -/
def f32Lt (a b : Sample) : Bool := !f32IsNaN a && !f32IsNaN b && decide (f32Key a < f32Key b)

/-- f32_gt (R17). -/
def f32Gt (a b : Sample) : Bool := f32Lt b a

/-- f32_eq (R17): +0 equals -0, and a NaN equals nothing. -/
def f32Eq (a b : Sample) : Bool := !f32IsNaN a && !f32IsNaN b && decide (f32Key a = f32Key b)

/-- The NaN encoding that 24 free bits stand for: a sign and a nonzero fraction (R13, R17). Every NaN encoding is
reached. -/
def nanOfBits (b : BitVec 24) : Sample :=
  b.extractLsb' 23 1 ++ 0xFF#8 ++ (if b.extractLsb' 0 23 = 0#23 then 0x400000#23 else b.extractLsb' 0 23)

/-- NAN_DRAW's n-th choice (R17). -/
def drawNaN (n : Nat) : Sample := nanOfBits (Config.nanBits n)

end Sys2Proof.Machine
end

