-- ==== Sys2Proof/Machine/Operands.lean ====
section
/-! DEFINITION. The operand forms: lanes of a vector (R18), sample addresses of the source and the destination (R61,
R62), the border clamp (R201), the latched descriptor's numbers (R41, R91), and the read and write sets (R63, R64). -/

namespace Sys2Proof

/-- The offset (dx, dy) of a neighbour index (R98). -/
def Nbi.offset (n : Nbi) : Int × Int :=
  match n with
  | 0 => (0, 0)
  | 1 => (-1, -1)
  | 2 => (0, -1)
  | 3 => (1, -1)
  | 4 => (-1, 0)
  | 5 => (1, 0)
  | 6 => (-1, 1)
  | 7 => (0, 1)
  | 8 => (1, 1)

end Sys2Proof

namespace Sys2Proof.Machine

/-! ### Lanes (R18) -/

/-- lane(V, i, fmt) (R18), in the low bits of a sample. -/
def lane (fmt : Fmt) (x : Vec) (i : Nat) : Sample := (x.extractLsb' (fmt.bits * i) fmt.bits).setWidth 32

/-- The low bits of a sample that a format has. -/
def narrow (fmt : Fmt) (x : Sample) : Sample := (x.setWidth fmt.bits).setWidth 32

/-- The vector whose lanes are the samples of a list, lane 0 first, the rest 0. -/
def packList (fmt : Fmt) : List Sample → Vec
  | [] => 0
  | x :: xs => (packList fmt xs <<< fmt.bits) ||| (narrow fmt x).setWidth 128

/-- The vector whose lane i is f i (R18). -/
def packLanes (fmt : Fmt) (f : Nat → Sample) : Vec := packList fmt ((List.range fmt.lanes).map f)

/-! ### The latched descriptor (R41, R91) -/

/-- W = sext_32(WIDTH) (R33, R91). -/
def Latch.w (ld : Latch) : Int := ld.width.toInt

/-- H = sext_32(HEIGHT) (R33, R91). -/
def Latch.h (ld : Latch) : Int := ld.height.toInt

/-- The number of columns of a launch's grid. -/
def Latch.cols (ld : Latch) : Nat := ld.w.toNat

/-- The number of rows of a launch's grid. -/
def Latch.rows (ld : Latch) : Nat := ld.h.toNat

/-- The number of sample bytes of one row, W * ps (R63). -/
def Latch.rowBytes (ld : Latch) : Nat := ld.cols * ld.fmt.ps

/-! ### Addresses (R61, R62) -/

/-- SA(x, y) on mathematical integers, for samples of format `fmt` (R61). -/
def srcAddr (fmt : Fmt) (ld : Latch) (x y : Int) : Int :=
  (ld.srcBase.toNat : Int) + y * ld.srcStride.toInt + x * (fmt.ps : Int)

/-- DA(x, y) on mathematical integers, for samples of format `fmt` (R62). -/
def dstAddr (fmt : Fmt) (ld : Latch) (x y : Int) : Int :=
  (ld.dstBase.toNat : Int) + y * ld.dstStride.toInt + x * (fmt.ps : Int)

/-- clamp(u, n) = min(max(u, 0), n - 1) (R201). -/
def clampTo (n u : Int) : Int := min (max u 0) (n - 1)

/-- The bytes a .. a+n-1 lie in the memory space (R14, R76). -/
def inSpace (a : Int) (n : Nat) : Bool := decide (0 ≤ a ∧ a + (n : Int) ≤ (memorySize : Int))

/-- The address a load reads (R121, R122): a scalar load clamps the position, a vector load does not. -/
def loadAddr (fmt : Fmt) (ld : Latch) (cur : Cursor) (nb : Nbi) (sc : Bool) : Int :=
  if sc then
    srcAddr fmt ld (clampTo ld.w ((cur.x : Int) + nb.offset.1)) (clampTo ld.h ((cur.y : Int) + nb.offset.2))
  else srcAddr fmt ld ((cur.x : Int) + nb.offset.1) ((cur.y : Int) + nb.offset.2)

/-- The address a store writes (R123). -/
def storeAddr (fmt : Fmt) (ld : Latch) (cur : Cursor) : Int := dstAddr fmt ld cur.x cur.y

/-- How many bytes a load or a store moves (R66): one sample, or a vector. -/
def accessBytes (fmt : Fmt) (sc : Bool) : Nat := if sc then fmt.ps else vecBytes

/-! ### Read and write sets (R63, R64) -/

/-- The addresses SA(0, y) of the source rows (R61). -/
def srcRows (ld : Latch) : List Int := (List.range ld.rows).map fun y => srcAddr ld.fmt ld 0 (y : Int)

/-- The addresses DA(0, y) of the destination rows (R62). -/
def dstRows (ld : Latch) : List Int := (List.range ld.rows).map fun y => dstAddr ld.fmt ld 0 (y : Int)

/-- An address lies in one of the rows of `len` bytes that start at `rows`: with `srcRows` the set RS (R63), with
`dstRows` the set WS (R64). -/
def inRows (rows : List Int) (len : Nat) (a : Int) : Bool := rows.any fun r => decide (r ≤ a ∧ a < r + (len : Int))

/-- a is a byte of RS (R63). -/
def inReadSet (ld : Latch) (a : Int) : Bool := inRows (srcRows ld) ld.rowBytes a

/-- a is a byte of WS (R64). -/
def inWriteSet (ld : Latch) (a : Int) : Bool := inRows (dstRows ld) ld.rowBytes a

/-- The bytes of WS, row by row (R64). -/
def writeSet (ld : Latch) : List Nat :=
  (dstRows ld).flatMap fun r => (List.range ld.rowBytes).map fun k => (r + (k : Int)).toNat

end Sys2Proof.Machine
end

