-- ==== Sys2Proof/Machine/Ops.lean ====
section
/-! DEFINITION. The named operations over memory, vector registers, the register block and the launch: MemRead and
MemWrite (R14), the register file (R40), the register map (R22), accepting a command (R26, R41), ending a launch
(R231; the nearest thing to taking an exception and returning from one, R265, R266) and reset (R280, R281). -/

namespace Sys2Proof.Machine

/-! ### Memory (R14, R44) -/

/-- What an address that is not listed reads as: 0, DESIGN CHOICE (log 2). -/
def Memory.unlisted : Byte := 0

/-- The byte at an address. -/
def Memory.read (m : Memory) (a : Nat) : Byte :=
  match m with
  | [] => Memory.unlisted
  | c :: rest => if c.1 = a then c.2 else Memory.read rest a

/-- The memory without an entry at an address. -/
def Memory.erase (m : Memory) (a : Nat) : Memory := m.filter fun c => decide (c.1 ≠ a)

/-- The memory with a cell put before the first cell of a higher address. -/
def Memory.insert (m : Memory) (cell : Host.Cell) : Memory :=
  match m with
  | [] => [cell]
  | c :: rest => if cell.1 < c.1 then cell :: c :: rest else c :: Memory.insert rest cell

/-- Store a byte, keeping the canonical form: a byte equal to `unlisted` is not listed. -/
def Memory.write (m : Memory) (a : Nat) (b : Byte) : Memory :=
  if b = Memory.unlisted then m.erase a else (m.erase a).insert (a, b)

/-- The canonical form: addresses strictly rising, no byte equal to `unlisted`. -/
def Memory.wf (m : Memory) : Bool :=
  decide (m.Pairwise fun c d => c.1 < d.1) && m.all fun c => decide (c.2 ≠ Memory.unlisted)

/-- MemRead(a, n), little endian (R14, R65), in the low bits of a vector; n is at most 16. -/
def Memory.readBytes (m : Memory) (a : Nat) : Nat → Vec
  | 0 => 0
  | n + 1 => (Memory.readBytes m (a + 1) n <<< 8) ||| (Memory.read m a).setWidth 128

/-- MemWrite(a, n, v), little endian (R14, R65). -/
def Memory.writeBytes (m : Memory) (a n : Nat) (v : Vec) : Memory :=
  match n with
  | 0 => m
  | n + 1 => Memory.writeBytes (Memory.write m a (v.setWidth 8)) (a + 1) n (v >>> 8)

/-- LoadSample(fmt, a) (R14). -/
def loadSample (fmt : Fmt) (m : Memory) (a : Nat) : Sample := (m.readBytes a fmt.ps).setWidth 32

/-! ### Vector registers and free values (R16, R17, R40) -/

/-- V[r] (R40). -/
def State.vreg (s : State) (r : VReg) : Vec := s.v[r]

/-- V[r] <- x (R40). -/
def State.setVreg (s : State) (r : VReg) (x : Vec) : State := { s with v := s.v.set r x }

/-- The NaN drawn by the k-th arithmetic operation of lane i of the current micro-op (R17: per occurrence). -/
def State.nanAt (s : State) (i k : Nat) : Sample := drawNaN (s.draws + 16 * i + k)

/-- The state after an arithmetic micro-op has used its draws; integer formats draw nothing (R17). -/
def State.afterDraws (s : State) (fmt : Fmt) : State :=
  match fmt with
  | .u8 => s
  | .u16 => s
  | .f32 => { s with draws := s.draws + 64 }

/-! ### The bus (R28) -/

/-- The bus answers a master. -/
def State.respond (s : State) (m : Master) (r : Response) : State :=
  match m with
  | .host => { s with hostResponse := r }
  | .others => { s with othersResponse := r }

/-! ### Turns (R20, R28) -/

/-- The host is stalled: the CMD write that it issued is not answered yet (R28). A launch that another master issued
does not stall it (R284). -/
def State.hostStalled (s : State) : Bool := decide (s.phase = .busy ∧ s.issuer = .host)

/-- The access that this turn brings: another master's first, else the host's unless it is stalled (log 5). -/
def State.due (s : State) : Option (Master × Access) :=
  match s.others.head? with
  | some (some a) => some (.others, a)
  | _ =>
    if s.hostStalled then none
    else
      match s.host.head? with
      | some (some a) => some (.host, a)
      | _ => none

/-- The turn is taken off the masters' lists. The host's list waits while it is stalled or another master acts. -/
def State.takeTurn (s : State) : State :=
  { s with
    others := s.others.tail
    host :=
      match s.others.head? with
      | some (some _) => s.host
      | _ => if s.hostStalled then s.host else s.host.tail }

/-! ### The register block (R22) -/

/-- The names of the register map (R22). -/
inductive RegName where
  | cmd
  | status
  | srcBaseLo
  | srcBaseHi
  | dstBaseLo
  | dstBaseHi
  | srcStride
  | dstStride
  | width
  | height
deriving DecidableEq, Repr

/-- The offset of a register (R22). -/
def RegName.offset : RegName → Nat
  | .cmd => 0x00
  | .status => 0x04
  | .srcBaseLo => 0x08
  | .srcBaseHi => 0x0C
  | .dstBaseLo => 0x10
  | .dstBaseHi => 0x14
  | .srcStride => 0x18
  | .dstStride => 0x1C
  | .width => 0x20
  | .height => 0x24

/-- The size of the register block in bytes (R22). -/
def regBlockSize : Nat := 256

/-- The register at an offset; the other multiples of 4 are reserved (R22, R34). -/
def RegName.ofOffset (o : Nat) : Option RegName :=
  if o = 0x00 then some .cmd
  else if o = 0x04 then some .status
  else if o = 0x08 then some .srcBaseLo
  else if o = 0x0C then some .srcBaseHi
  else if o = 0x10 then some .dstBaseLo
  else if o = 0x14 then some .dstBaseHi
  else if o = 0x18 then some .srcStride
  else if o = 0x1C then some .dstStride
  else if o = 0x20 then some .width
  else if o = 0x24 then some .height
  else none

/-- reg[NAME] (R15). -/
def State.readReg (s : State) : RegName → Word
  | .cmd => s.regs.cmd
  | .status => statusWord s
  | .srcBaseLo => s.regs.srcBaseLo
  | .srcBaseHi => s.regs.srcBaseHi
  | .dstBaseLo => s.regs.dstBaseLo
  | .dstBaseHi => s.regs.dstBaseHi
  | .srcStride => s.regs.srcStride
  | .dstStride => s.regs.dstStride
  | .width => s.regs.width
  | .height => s.regs.height

/-- The register block after reg[NAME] <- w (R15): the content alone, without the command a CMD write issues
(R26); STATUS ignores the write (R30). -/
def Regs.write (r : Regs) (name : RegName) (w : Word) : Regs :=
  match name with
  | .cmd => { r with cmd := w }
  | .status => r
  | .srcBaseLo => { r with srcBaseLo := w }
  | .srcBaseHi => { r with srcBaseHi := w }
  | .dstBaseLo => { r with dstBaseLo := w }
  | .dstBaseHi => { r with dstBaseHi := w }
  | .srcStride => { r with srcStride := w }
  | .dstStride => { r with dstStride := w }
  | .width => { r with width := w }
  | .height => { r with height := w }

/-! ### A launch begins and ends (R26, R41, R231) -/

/-- SRC_BASE = {SRC_BASE_HI, SRC_BASE_LO} (R31, R91). -/
def Regs.srcBase (r : Regs) : Addr := r.srcBaseHi ++ r.srcBaseLo

/-- DST_BASE = {DST_BASE_HI, DST_BASE_LO} (R31, R91). -/
def Regs.dstBase (r : Regs) : Addr := r.dstBaseHi ++ r.dstBaseLo

/-- LD for a command and the descriptor registers (R41). A word with a nonzero reserved bit is no instruction
(R93), so an instruction's reserved bits are 0. -/
def latchOf (m : Mode) (fmt : Fmt) (align : Bool) (r : Regs) : Latch :=
  { mode := m, fmt := fmt, align := align, reserved := 0, srcBase := r.srcBase, dstBase := r.dstBase,
    srcStride := r.srcStride, dstStride := r.dstStride, width := r.width, height := r.height }

/-- A command word is accepted: it is written to CMD, STATUS.BUSY becomes 1, LD is latched, the cursor starts at
(0, 0) and the answer of the CMD write is held back (R24, R26, R28, R41, R230). -/
def acceptCommand (m : Mode) (fmt : Fmt) (align : Bool) (s : State) : State :=
  { s with
    regs := s.regs.write .cmd (encodeCommand m fmt align)
    phase := .busy
    latch := latchOf m fmt align s.regs
    cursor := Cursor.origin }.respond s.issuer .stalled

/-- A launch ends: RESULT is written, BUSY is cleared, LD is discarded, the CMD write is answered (R231). -/
def endLaunch (r : ResultCode) (s : State) : State :=
  { s with result := r, phase := .idle, latch := Latch.cleared, cursor := Cursor.origin }.respond s.issuer .done

/-- An illegal command word is accepted by the register and its launch ends with ERR_MODE (R93, R233). While a
launch runs it is not accepted (R27). -/
def rejectCommand (w : Word) (s : State) : State :=
  match s.phase with
  | .busy => s
  | .idle => endLaunch .errMode { s with regs := s.regs.write .cmd w }

/-! ### Reset (R45, R280, R281) -/

/-- Each address of a list gets a drawn byte (R281). -/
def scramble (s : State) : List Nat → State
  | [] => s
  | a :: rest =>
    scramble { s with mem := s.mem.write a (Config.freeByte s.draws), draws := s.draws + 1 } rest

/-- A launch is abandoned by reset: every byte of its write set is a drawn byte, and the CMD write never completes
normally (R281). -/
def abandonLaunch (s : State) : State := (scramble s (writeSet s.latch)).respond s.issuer .aborted

/-- Reset: the registers, RESULT, the phase and the engine's internal state take their reset values, memory is not
touched except as R281 says, and the platform (parameters, bus masters) goes on (R45, R280, R281). -/
def resetUnit (s : State) : State :=
  let t := match s.phase with
    | .busy => abandonLaunch s
    | .idle => s
  { t with
    regs := Regs.reset, result := .none, phase := .idle, latch := Latch.cleared, cursor := Cursor.origin,
    v := vectorReset, uopWord := none }

end Sys2Proof.Machine
end

