-- ==== Sys2Proof/Machine/Primitives.lean ====
section
/-! DEFINITION. The compute primitives of the SIMD unit (R120, R124 to R130): a lane function each, applied to every
lane, and the meaning of the micro-op over it. No flag, no error code (R137). -/

namespace Sys2Proof.Machine

/-! ### Lane functions -/

/-- The lane minimum (R124): unsigned for U8 and U16; for F32 the second operand when the comparison is false. -/
def minLane (fmt : Fmt) (a b : Sample) : Sample :=
  match fmt with
  | .u8 => if a < b then a else b
  | .u16 => if a < b then a else b
  | .f32 => if f32Lt a b then a else b

/-- The lane maximum (R125). -/
def maxLane (fmt : Fmt) (a b : Sample) : Sample :=
  match fmt with
  | .u8 => if b < a then a else b
  | .u16 => if b < a then a else b
  | .f32 => if f32Gt a b then a else b

/-- The lane clip, the maximum first (R127). -/
def clipLane (fmt : Fmt) (v lo hi : Sample) : Sample := minLane fmt (maxLane fmt v lo) hi

/-- The lane absolute difference (R128); `nan` is the drawn encoding of a NaN difference. -/
def absDiffLane (fmt : Fmt) (nan a b : Sample) : Sample :=
  match fmt with
  | .u8 => if b ≤ a then a - b else b - a
  | .u16 => if b ≤ a then a - b else b - a
  | .f32 => f32Abs (f32Sub nan a b)

/-- The lane equality (R129). -/
def eqLane (fmt : Fmt) (a b : Sample) : Bool :=
  match fmt with
  | .u8 => a == b
  | .u16 => a == b
  | .f32 => f32Eq a b

/-- The lane select on equal (R129). -/
def selEqLane (fmt : Fmt) (a b c f : Sample) : Sample := if eqLane fmt a b then c else f

/-- The lane blend by the mask's most significant bit (R130). -/
def blendLane (fmt : Fmt) (mask b c : Sample) : Sample := if mask.getLsbD (fmt.bits - 1) then b else c

/-! ### Lane-wise results (R120) -/

/-- The vector of f over the lanes of two registers. -/
def lanes2 (fmt : Fmt) (f : Sample → Sample → Sample) (s : State) (a b : VReg) : Vec :=
  packLanes fmt fun i => f (lane fmt (s.vreg a) i) (lane fmt (s.vreg b) i)

/-- The vector of f over the lanes of three registers. -/
def lanes3 (fmt : Fmt) (f : Sample → Sample → Sample → Sample) (s : State) (a b c : VReg) : Vec :=
  packLanes fmt fun i => f (lane fmt (s.vreg a) i) (lane fmt (s.vreg b) i) (lane fmt (s.vreg c) i)

/-- The vector of f over the lanes of four registers. -/
def lanes4 (fmt : Fmt) (f : Sample → Sample → Sample → Sample → Sample) (s : State) (a b c d : VReg) : Vec :=
  packLanes fmt fun i =>
    f (lane fmt (s.vreg a) i) (lane fmt (s.vreg b) i) (lane fmt (s.vreg c) i) (lane fmt (s.vreg d) i)

/-! ### Meanings -/

/-- vmin (R124). -/
def execVmin (fmt : Fmt) (d a b : VReg) (s : State) : Outcome State :=
  .next (s.setVreg d (lanes2 fmt (minLane fmt) s a b))

/-- vmax (R125). -/
def execVmax (fmt : Fmt) (d a b : VReg) (s : State) : Outcome State :=
  .next (s.setVreg d (lanes2 fmt (maxLane fmt) s a b))

/-- vsortp (R126): both sources are read before either destination is written (R136); D = E is reserved. -/
def execVsortp (fmt : Fmt) (d e a b : VReg) (s : State) : Outcome State :=
  if d = e then .fault .reservedUop
  else .next ((s.setVreg d (lanes2 fmt (minLane fmt) s a b)).setVreg e (lanes2 fmt (maxLane fmt) s a b))

/-- vclip (R127). -/
def execVclip (fmt : Fmt) (d a b c : VReg) (s : State) : Outcome State :=
  .next (s.setVreg d (lanes3 fmt (clipLane fmt) s a b c))

/-- vabsdiff (R128). -/
def execVabsdiff (fmt : Fmt) (d a b : VReg) (s : State) : Outcome State :=
  .next ((s.setVreg d (packLanes fmt fun i =>
    absDiffLane fmt (s.nanAt i 0) (lane fmt (s.vreg a) i) (lane fmt (s.vreg b) i))).afterDraws fmt)

/-- vseleq (R129). -/
def execVseleq (fmt : Fmt) (d a b c f : VReg) (s : State) : Outcome State :=
  .next (s.setVreg d (lanes4 fmt (selEqLane fmt) s a b c f))

/-- vblend (R130). -/
def execVblend (fmt : Fmt) (d a b c : VReg) (s : State) : Outcome State :=
  .next (s.setVreg d (lanes3 fmt (blendLane fmt) s a b c))

end Sys2Proof.Machine
end

