-- ==== Sys2Proof/Machine/Kernel.lean ====
section
/-! DEFINITION. The kernel unit: its three arithmetic micro-ops (R173 to R175), the sorting network (R162) and the
kernel function of every mode (R160 to R172). -/

namespace Sys2Proof.Machine

/-! ### Arithmetic lane functions (R170 to R173, R177) -/

/-- sat_fmt(v) = min(max(v, 0), MAXV(fmt)) (R177), as a sample. -/
def satLane (fmt : Fmt) (v : Int) : Sample := BitVec.ofInt 32 (min (max v 0) (fmt.maxv : Int))

/-- The sum of samples as integers (R177: no intermediate wraps). -/
def sumLanes (xs : List Sample) : Int := (xs.map fun x => (x.toNat : Int)).sum

/-- The eight neighbours in compass order a1..a8 (R98, R161). -/
structure Ring where
  a1 : Sample
  a2 : Sample
  a3 : Sample
  a4 : Sample
  a5 : Sample
  a6 : Sample
  a7 : Sample
  a8 : Sample
deriving DecidableEq, Repr

/-- The neighbours as a list, a1 first. -/
def Ring.list (r : Ring) : List Sample := [r.a1, r.a2, r.a3, r.a4, r.a5, r.a6, r.a7, r.a8]

/-- T8, the fixed tree of F32 sums (R170); `nan k` is the k-th operation's drawn NaN. -/
def sumTree (nan : Nat → Sample) (r : Ring) : Sample :=
  f32Add (nan 6) (f32Add (nan 4) (f32Add (nan 0) r.a1 r.a2) (f32Add (nan 1) r.a3 r.a4))
    (f32Add (nan 5) (f32Add (nan 2) r.a5 r.a6) (f32Add (nan 3) r.a7 r.a8))

/-- The mean of the eight neighbours (R170): (sum + 4) >> 3, or T8 * 0.125. -/
def mean8Lane (fmt : Fmt) (nan : Nat → Sample) (r : Ring) : Sample :=
  match fmt with
  | .u8 => satLane .u8 ((sumLanes r.list + 4) / 8)
  | .u16 => satLane .u16 ((sumLanes r.list + 4) / 8)
  | .f32 => f32Mul (nan 7) (sumTree nan r) 0x3E000000#32

/-- The mean of the nine samples (R171): floor((sum + 4) / 9), or (T8 + c) / 9.0. -/
def mean9Lane (fmt : Fmt) (nan : Nat → Sample) (c : Sample) (r : Ring) : Sample :=
  match fmt with
  | .u8 => satLane .u8 ((sumLanes (c :: r.list) + 4) / 9)
  | .u16 => satLane .u16 ((sumLanes (c :: r.list) + 4) / 9)
  | .f32 => f32Div (nan 8) (f32Add (nan 7) (sumTree nan r) c) 0x41100000#32

/-- The rounded average of two (R172, R173): (a + b + 1) >> 1, or (a + b) * 0.5. -/
def medAvgLane (fmt : Fmt) (nan : Nat → Sample) (a b : Sample) : Sample :=
  match fmt with
  | .u8 => satLane .u8 ((sumLanes [a, b] + 1) / 2)
  | .u16 => satLane .u16 ((sumLanes [a, b] + 1) / 2)
  | .f32 => f32Mul (nan 1) (f32Add (nan 0) a b) 0x3F000000#32

/-! ### Meanings of the kernel micro-ops -/

/-- Lane i of V[1..8] (R174). -/
def ringLanes (fmt : Fmt) (s : State) (i : Nat) : Ring :=
  { a1 := lane fmt (s.vreg 1) i, a2 := lane fmt (s.vreg 2) i, a3 := lane fmt (s.vreg 3) i,
    a4 := lane fmt (s.vreg 4) i, a5 := lane fmt (s.vreg 5) i, a6 := lane fmt (s.vreg 6) i,
    a7 := lane fmt (s.vreg 7) i, a8 := lane fmt (s.vreg 8) i }

/-- kmedavg (R173). -/
def execKmedavg (fmt : Fmt) (d a b : VReg) (s : State) : Outcome State :=
  .next ((s.setVreg d (packLanes fmt fun i =>
    medAvgLane fmt (s.nanAt i) (lane fmt (s.vreg a) i) (lane fmt (s.vreg b) i))).afterDraws fmt)

/-- kmean8 (R174). -/
def execKmean8 (fmt : Fmt) (d : VReg) (s : State) : Outcome State :=
  .next ((s.setVreg d (packLanes fmt fun i => mean8Lane fmt (s.nanAt i) (ringLanes fmt s i))).afterDraws fmt)

/-- kmean9 (R175). -/
def execKmean9 (fmt : Fmt) (d : VReg) (s : State) : Outcome State :=
  .next ((s.setVreg d (packLanes fmt fun i =>
    mean9Lane fmt (s.nanAt i) (lane fmt (s.vreg 0) i) (ringLanes fmt s i))).afterDraws fmt)

/-! ### The sorting network (R162, R163) -/

/-- Layer 1 of the network: comparators (i, j) (R162). -/
def sortLayer1 : List (Fin 8 × Fin 8) := [(0, 1), (2, 3), (4, 5), (6, 7)]

/-- Layers 2 to 6, in order (R162). -/
def sortLayers2to6 : List (Fin 8 × Fin 8) :=
  [(0, 2), (1, 3), (4, 6), (5, 7),
   (1, 2), (5, 6),
   (0, 4), (1, 5), (2, 6), (3, 7),
   (2, 4), (3, 5),
   (1, 2), (3, 4), (5, 6)]

/-- Comparator (i, j) over a minimum and a maximum: it replaces (t[i], t[j]) by (mn t[i] t[j], mx t[i] t[j]) (R162). -/
def comparator {α : Type} (mn mx : α → α → α) (t : Vector α 8) (ij : Fin 8 × Fin 8) : Vector α 8 :=
  (t.set ij.1 (mn t[ij.1] t[ij.2])).set ij.2 (mx t[ij.1] t[ij.2])

/-- The 19 comparators in order over a minimum and a maximum (R162). -/
def sortNetwork {α : Type} (mn mx : α → α → α) (t : Vector α 8) : Vector α 8 :=
  (sortLayer1 ++ sortLayers2to6).foldl (comparator mn mx) t

/-- The neighbours as the network's input t[0..7] (R162). -/
def Ring.vector (r : Ring) : Vector Sample 8 := ⟨#[r.a1, r.a2, r.a3, r.a4, r.a5, r.a6, r.a7, r.a8], rfl⟩

/-- SORT8: s_k is entry k-1 (R162, R163). -/
def sort8 (fmt : Fmt) (r : Ring) : Vector Sample 8 := sortNetwork (minLane fmt) (maxLane fmt) r.vector

/-! ### The kernels (R160 to R172) -/

/-- The mode whose kernel a launch runs: the sentinel under IDENTITY copies as mode 0 does (R230, R236). -/
def kernelMode : Mode → Mode
  | .undef => .pass
  | .pass => .pass
  | .clamp1 => .clamp1
  | .clamp2 => .clamp2
  | .clamp3 => .clamp3
  | .clamp4 => .clamp4
  | .mean8 => .mean8
  | .mean9 => .mean9
  | .median8 => .median8

/-- K(m, fmt)(c, a1, ..., a8) (R160, R164 to R172); `nan k` is the drawn NaN of the kernel's k-th operation. -/
def kernel (m : Mode) (fmt : Fmt) (nan : Nat → Sample) (c : Sample) (r : Ring) : Sample :=
  match m with
  | .undef => c
  | .pass => c
  | .clamp1 => clipLane fmt c (sort8 fmt r)[0] (sort8 fmt r)[7]
  | .clamp2 => clipLane fmt c (sort8 fmt r)[1] (sort8 fmt r)[6]
  | .clamp3 => clipLane fmt c (sort8 fmt r)[2] (sort8 fmt r)[5]
  | .clamp4 => clipLane fmt c (sort8 fmt r)[3] (sort8 fmt r)[4]
  | .mean8 => mean8Lane fmt nan r
  | .mean9 => mean9Lane fmt nan c r
  | .median8 => medAvgLane fmt nan (sort8 fmt r)[3] (sort8 fmt r)[4]

/-- The source sample at a grid position, clamped to the grid (R161, R201). -/
def sourceSample (ld : Latch) (m : Memory) (x y : Int) : Sample :=
  loadSample ld.fmt m (srcAddr ld.fmt ld (clampTo ld.w x) (clampTo ld.h y)).toNat

/-- The neighbour of (x, y) at a neighbour index (R98, R161). -/
def neighbourSample (ld : Latch) (m : Memory) (x y : Nat) (n : Nbi) : Sample :=
  sourceSample ld m ((x : Int) + n.offset.1) ((y : Int) + n.offset.2)

/-- a1..a8 of the output (x, y) (R161). -/
def neighbourRing (ld : Latch) (m : Memory) (x y : Nat) : Ring :=
  { a1 := neighbourSample ld m x y 1, a2 := neighbourSample ld m x y 2, a3 := neighbourSample ld m x y 3,
    a4 := neighbourSample ld m x y 4, a5 := neighbourSample ld m x y 5, a6 := neighbourSample ld m x y 6,
    a7 := neighbourSample ld m x y 7, a8 := neighbourSample ld m x y 8 }

/-- K(m, fmt)(N(x, y)) on the source as memory `m` holds it (R160, R161, R200). -/
def outputSample (ld : Latch) (nan : Nat → Sample) (m : Memory) (x y : Nat) : Sample :=
  kernel (kernelMode ld.mode) ld.fmt nan (neighbourSample ld m x y 0) (neighbourRing ld m x y)

end Sys2Proof.Machine
end

