-- ==== Sys2Proof/Machine/LoadStore.lean ====
section
/-! DEFINITION. The loads and the store of the SIMD unit (R121 to R123). -/

namespace Sys2Proof.Machine

/-- V[D] <- MemRead(a, n), the bytes above n 0 (R14, R121); an address outside memory faults (R76). -/
def loadTo (d : VReg) (a : Int) (n : Nat) (s : State) : Outcome State :=
  if inSpace a n then .next (s.setVreg d (s.mem.readBytes a.toNat n)) else .fault .addrRange

/-- MemWrite(a, n, x) (R14, R123); an address outside memory faults (R76). -/
def storeTo (a : Int) (n : Nat) (x : Vec) (s : State) : Outcome State :=
  if inSpace a n then .next { s with mem := s.mem.writeBytes a.toNat n x } else .fault .addrRange

/-- vloadu (R121): 16 bytes at any address, or one sample at the clamped position into lane 0. -/
def execVloadu (fmt : Fmt) (d : VReg) (nb : Nbi) (sc : Bool) (s : State) : Outcome State :=
  loadTo d (loadAddr fmt s.latch s.cursor nb sc) (accessBytes fmt sc) s

/-- vloada (R122): as a vector vloadu, at a multiple of 16 only. -/
def execVloada (fmt : Fmt) (d : VReg) (nb : Nbi) (s : State) : Outcome State :=
  if loadAddr fmt s.latch s.cursor nb false % 16 ≠ 0 then .fault .alignHint
  else loadTo d (loadAddr fmt s.latch s.cursor nb false) vecBytes s

/-- vstoreu (R123): 16 bytes, or lane 0 alone, at DA(x, y). -/
def execVstoreu (fmt : Fmt) (a : VReg) (sc : Bool) (s : State) : Outcome State :=
  storeTo (storeAddr fmt s.latch s.cursor) (accessBytes fmt sc) (s.vreg a) s

end Sys2Proof.Machine
end

