-- ==== Sys2Proof/Machine/Raster.lean ====
section
/-! DEFINITION. The row-stripe rasterizer: work units (R204 to R206), the micro-program of each mode (R176), the
sequence of a unit (R207), and the walk over the plane (R208, R209). -/

namespace Sys2Proof.Machine

/-! ### Work units (R206) -/

/-- One work unit: a scalar pixel or a vector chunk that starts at column x of row y (R206). -/
structure WorkUnit where
  y : Nat
  x : Nat
  vector : Bool
deriving DecidableEq, Repr

/-- A scalar unit (R206). -/
def scalarUnit (y x : Nat) : WorkUnit := { y := y, x := x, vector := false }

/-- A vector unit (R206). -/
def vectorUnit (y x : Nat) : WorkUnit := { y := y, x := x, vector := true }

/-- The row is processed by the scalar path alone: a first or last row, or a grid of fewer than 3 columns (R206). -/
def scalarRow (cols rows y : Nat) : Bool := y = 0 || y + 1 = rows || decide (cols < 3)

/-- The units of an interior row of at least 3 columns, in increasing column, with `l` lanes a vector (R206). -/
def interiorRow (l cols y : Nat) : List WorkUnit :=
  scalarUnit y 0 ::
    ((List.range ((cols - 2) / l)).map (fun k => vectorUnit y (1 + k * l)) ++
      (List.range ((cols - 2) % l)).map (fun j => scalarUnit y (1 + (cols - 2) / l * l + j)) ++
        [scalarUnit y (cols - 1)])

/-- The units of row y in increasing column (R206, R208). -/
def rowUnits (l cols rows y : Nat) : List WorkUnit :=
  if scalarRow cols rows y then (List.range cols).map (scalarUnit y) else interiorRow l cols y

/-- The units of a launch, in the order of the walk (R206, R208). -/
def planeUnits (ld : Latch) : List WorkUnit :=
  (List.range ld.rows).flatMap (rowUnits ld.fmt.lanes ld.cols ld.rows)

/-- The unit does not lie before the cursor in the order of the walk (R208). -/
def notBefore (cur : Cursor) (u : WorkUnit) : Bool := decide (cur.y < u.y ∨ (cur.y = u.y ∧ cur.x ≤ u.x))

/-- The units still to do when the cursor stands at the next one (R42, R208). -/
def unitsFrom (ld : Latch) (cur : Cursor) : List WorkUnit := (planeUnits ld).filter (notBefore cur)

/-! ### Micro-programs (R176, R207) -/

/-- Sort register S[i] = V[16+i] (R40). -/
def sortReg (i : Fin 8) : VReg := ⟨16 + i.val, by omega⟩

/-- Neighbour register V[1+i] (R40). -/
def ringReg (i : Fin 8) : VReg := ⟨1 + i.val, by omega⟩

/-- SORT: layer 1 reads V[1..8] into V[16..23], the later layers work in place (R176). -/
def sortProgram (fmt : Fmt) : List Instr :=
  sortLayer1.map (fun ij => .vsortp fmt (sortReg ij.1) (sortReg ij.2) (ringReg ij.1) (ringReg ij.2)) ++
    sortLayers2to6.map (fun ij => .vsortp fmt (sortReg ij.1) (sortReg ij.2) (sortReg ij.1) (sortReg ij.2))

/-- The micro-program of a mode (R176); the sentinel's is that of mode 0 (R207). -/
def microProgram (m : Mode) (fmt : Fmt) : List Instr :=
  match m with
  | .undef => []
  | .pass => []
  | .clamp1 => sortProgram fmt ++ [.vclip fmt 31 0 16 23]
  | .clamp2 => sortProgram fmt ++ [.vclip fmt 31 0 17 22]
  | .clamp3 => sortProgram fmt ++ [.vclip fmt 31 0 18 21]
  | .clamp4 => sortProgram fmt ++ [.vclip fmt 31 0 19 20]
  | .mean8 => [.kmean8 fmt 31]
  | .mean9 => [.kmean9 fmt 31]
  | .median8 => sortProgram fmt ++ [.kmedavg fmt 31 19 20]

/-- The result register r of a mode (R176). -/
def resultReg (m : Mode) : VReg :=
  match m with
  | .undef => 0
  | .pass => 0
  | .clamp1 => 31
  | .clamp2 => 31
  | .clamp3 => 31
  | .clamp4 => 31
  | .mean8 => 31
  | .mean9 => 31
  | .median8 => 31

/-- The tier and the hint permit vloada for a neighbour of a vector unit: the west column only (R122, R207). -/
def usesAligned (tier : Tier) (align : Bool) (nb : Nbi) : Bool :=
  match tier with
  | .t1 => false
  | .t2 => align && (nb = 1 || nb = 4 || nb = 6)

/-- The load of V[n] from neighbour n in a unit (R207). -/
def unitLoad (tier : Tier) (ld : Latch) (vector : Bool) (nb : Nbi) : Instr :=
  if vector && usesAligned tier ld.align nb then .vloada ld.fmt (nb.castLE (by omega)) nb
  else .vloadu ld.fmt (nb.castLE (by omega)) nb (!vector)

/-- The micro-ops of a unit: nine loads, the mode's micro-program, one store (R207). -/
def unitProgram (tier : Tier) (ld : Latch) (vector : Bool) : List Instr :=
  (List.finRange 9).map (unitLoad tier ld vector) ++ microProgram (kernelMode ld.mode) ld.fmt ++
    [.vstoreu ld.fmt (resultReg (kernelMode ld.mode)) (!vector)]

/-! ### Running micro-ops and units (R207 to R209) -/

/-- The datapath runs one micro-op; a command word is no micro-op (R95, R99). -/
def execUop (i : Instr) (s : State) : Outcome State :=
  match i with
  | .filterUndef _ _ => .fault .reservedUop
  | .filterPass _ _ => .fault .reservedUop
  | .filterClamp1 _ _ => .fault .reservedUop
  | .filterClamp2 _ _ => .fault .reservedUop
  | .filterClamp3 _ _ => .fault .reservedUop
  | .filterClamp4 _ _ => .fault .reservedUop
  | .filterMean8 _ _ => .fault .reservedUop
  | .filterMean9 _ _ => .fault .reservedUop
  | .filterMedian8 _ _ => .fault .reservedUop
  | .vmin fmt d a b => execVmin fmt d a b s
  | .vmax fmt d a b => execVmax fmt d a b s
  | .vsortp fmt d e a b => execVsortp fmt d e a b s
  | .vclip fmt d a b c => execVclip fmt d a b c s
  | .vabsdiff fmt d a b => execVabsdiff fmt d a b s
  | .vseleq fmt d a b c f => execVseleq fmt d a b c f s
  | .vblend fmt d a b c => execVblend fmt d a b c s
  | .vloadu fmt d nb sc => execVloadu fmt d nb sc s
  | .vloada fmt d nb => execVloada fmt d nb s
  | .vstoreu fmt a sc => execVstoreu fmt a sc s
  | .kmedavg fmt d a b => execKmedavg fmt d a b s
  | .kmean8 fmt d => execKmean8 fmt d s
  | .kmean9 fmt d => execKmean9 fmt d s

/-- Micro-ops run one after another; a fault ends them. -/
def runUops (is : List Instr) (s : State) : Outcome State :=
  match is with
  | [] => .next s
  | i :: rest =>
    match execUop i s with
    | .next t => runUops rest t
    | .fault f => .fault f
    | .refused r => .refused r

/-- One work unit: the cursor moves to it, then its micro-ops run (R207). -/
def runUnit (u : WorkUnit) (s : State) : Outcome State :=
  runUops (unitProgram s.params.tier s.latch u.vector) { s with cursor := { y := u.y, x := u.x } }

/-- The walk over the units still to do (R208), then the launch ends with OK (R209, R231). When a bus master
acts in the coming turn, the launch stands still with the cursor at the next unit (log 5). -/
def runUnits (us : List WorkUnit) (s : State) : Outcome State :=
  match us with
  | [] => .next (endLaunch .ok s)
  | u :: rest =>
    match s.due with
    | some _ => .next { s with cursor := { y := u.y, x := u.x } }
    | none =>
      match runUnit u s.takeTurn with
      | .next t => runUnits rest t
      | .fault f => .fault f
      | .refused r => .refused r

/-- The engine goes on with the launch it holds from the cursor (R42, R208). -/
def resumeLaunch (s : State) : Outcome State := runUnits (unitsFrom s.latch s.cursor) s

end Sys2Proof.Machine
end

