-- ==== Sys2Proof/Machine/Filter.lean ====
section
/-! DEFINITION. Dispatch and FILTER_PLANE (R230 to R236): the configuration and geometry checks, the undefined cases,
and the meaning of every command (R164 to R172). -/

namespace Sys2Proof.Machine

/-- SUPPORTED(mode, fmt): every defined mode in every format (R92, R233 (e)). -/
def supported (m : Mode) (fmt : Fmt) : Bool :=
  match m, fmt with
  | _, .u8 => true
  | _, .u16 => true
  | _, .f32 => true

/-- The configuration check fails for a decoded command (R233 (d), (e)); (a) to (c) hold of no instruction. -/
def configError (p : Params) (m : Mode) (fmt : Fmt) : Bool :=
  (m = .undef && p.sentinelPolicy = .reject) || !supported m fmt

/-- The geometry check fails (R234), on mathematical integers. -/
def geometryError (ld : Latch) : Bool :=
  decide (ld.w ≤ 0) || decide (ld.h ≤ 0) || decide (ld.srcStride.toInt < ld.w * (ld.fmt.ps : Int)) ||
    decide (ld.dstStride.toInt < ld.w * (ld.fmt.ps : Int))

/-- Some source row start is not a multiple of 16 (R68). -/
def rowMisaligned (ld : Latch) : Bool := (srcRows ld).any fun a => decide (a % 16 ≠ 0)

/-- RS and WS share a byte: a source row and a destination row do (R63, R64, R75). -/
def buffersOverlap (ld : Latch) : Bool :=
  (srcRows ld).any fun a => (dstRows ld).any fun b =>
    decide (a < b + (ld.rowBytes : Int) ∧ b < a + (ld.rowBytes : Int))

/-- Some byte of RS or WS lies outside the memory space (R76). -/
def rangeError (ld : Latch) : Bool :=
  (srcRows ld ++ dstRows ld).any fun a => !inSpace a ld.rowBytes

/-- Some byte of RS or WS lies in device memory (R70). -/
def touchesDevice (p : Params) (ld : Latch) : Bool :=
  (srcRows ld ++ dstRows ld).any fun a => p.deviceRegions.any fun r =>
    decide (a < (r.base : Int) + (r.size : Int) ∧ (r.base : Int) < a + (ld.rowBytes : Int) ∧ 0 < r.size)

/-- The undefined cases of a launch that passed both checks, in R230's order; device memory last, DESIGN CHOICE
(log 7). -/
def launchFault (p : Params) (ld : Latch) : Option Fault :=
  if ld.align && rowMisaligned ld then some .alignHint
  else if buffersOverlap ld then some .overlap
  else if rangeError ld then some .addrRange
  else if touchesDevice p ld then some .deviceMemory
  else none

/-- What an accepted command does (R230): the checks in order (R235), then the walk over the plane. -/
def startLaunch (m : Mode) (fmt : Fmt) (s : State) : Outcome State :=
  if configError s.params m fmt then .next (endLaunch .errMode s)
  else if geometryError s.latch then .next (endLaunch .errGeometry s)
  else
    match launchFault s.params s.latch with
    | some f => .fault f
    | none => runUnits (planeUnits s.latch) s

/-- FILTER_PLANE (R230): a write of the command's word to CMD. While a launch runs it is not accepted and changes
nothing (R27). -/
def filterPlane (m : Mode) (fmt : Fmt) (align : Bool) (s : State) : Outcome State :=
  match s.phase with
  | .busy => .next s
  | .idle => startLaunch m fmt (acceptCommand m fmt align s)

/-- filter.undef (R164, R236). -/
def execFilterUndef (fmt : Fmt) (align : Bool) (s : State) : Outcome State := filterPlane .undef fmt align s

/-- filter.pass (R165). -/
def execFilterPass (fmt : Fmt) (align : Bool) (s : State) : Outcome State := filterPlane .pass fmt align s

/-- filter.clamp1 (R166). -/
def execFilterClamp1 (fmt : Fmt) (align : Bool) (s : State) : Outcome State := filterPlane .clamp1 fmt align s

/-- filter.clamp2 (R167). -/
def execFilterClamp2 (fmt : Fmt) (align : Bool) (s : State) : Outcome State := filterPlane .clamp2 fmt align s

/-- filter.clamp3 (R168). -/
def execFilterClamp3 (fmt : Fmt) (align : Bool) (s : State) : Outcome State := filterPlane .clamp3 fmt align s

/-- filter.clamp4 (R169). -/
def execFilterClamp4 (fmt : Fmt) (align : Bool) (s : State) : Outcome State := filterPlane .clamp4 fmt align s

/-- filter.mean8 (R170). -/
def execFilterMean8 (fmt : Fmt) (align : Bool) (s : State) : Outcome State := filterPlane .mean8 fmt align s

/-- filter.mean9 (R171). -/
def execFilterMean9 (fmt : Fmt) (align : Bool) (s : State) : Outcome State := filterPlane .mean9 fmt align s

/-- filter.median8 (R172). -/
def execFilterMedian8 (fmt : Fmt) (align : Bool) (s : State) : Outcome State := filterPlane .median8 fmt align s

end Sys2Proof.Machine
end

