-- ==== Sys2Proof/Machine/Dispatch.lean ====
section
/-! DEFINITION. The meaning of every instruction: one arm per constructor of Instr. -/

namespace Sys2Proof.Machine

def exec (i : Instr) (s : State) : Host.Outcome State Fault Refusal :=
  match i with
  -- command words (R92)
  | .filterUndef fmt align => Sys2Proof.Machine.execFilterUndef fmt align s
  | .filterPass fmt align => Sys2Proof.Machine.execFilterPass fmt align s
  | .filterClamp1 fmt align => Sys2Proof.Machine.execFilterClamp1 fmt align s
  | .filterClamp2 fmt align => Sys2Proof.Machine.execFilterClamp2 fmt align s
  | .filterClamp3 fmt align => Sys2Proof.Machine.execFilterClamp3 fmt align s
  | .filterClamp4 fmt align => Sys2Proof.Machine.execFilterClamp4 fmt align s
  | .filterMean8 fmt align => Sys2Proof.Machine.execFilterMean8 fmt align s
  | .filterMean9 fmt align => Sys2Proof.Machine.execFilterMean9 fmt align s
  | .filterMedian8 fmt align => Sys2Proof.Machine.execFilterMedian8 fmt align s
  -- micro-op words (R97)
  | .vmin fmt d a b => Sys2Proof.Machine.execVmin fmt d a b s
  | .vmax fmt d a b => Sys2Proof.Machine.execVmax fmt d a b s
  | .vsortp fmt d e a b => Sys2Proof.Machine.execVsortp fmt d e a b s
  | .vclip fmt d a b c => Sys2Proof.Machine.execVclip fmt d a b c s
  | .vabsdiff fmt d a b => Sys2Proof.Machine.execVabsdiff fmt d a b s
  | .vseleq fmt d a b c f => Sys2Proof.Machine.execVseleq fmt d a b c f s
  | .vblend fmt d a b c => Sys2Proof.Machine.execVblend fmt d a b c s
  | .vloadu fmt d nb sc => Sys2Proof.Machine.execVloadu fmt d nb sc s
  | .vloada fmt d nb => Sys2Proof.Machine.execVloada fmt d nb s
  | .vstoreu fmt a sc => Sys2Proof.Machine.execVstoreu fmt a sc s
  | .kmedavg fmt d a b => Sys2Proof.Machine.execKmedavg fmt d a b s
  | .kmean8 fmt d => Sys2Proof.Machine.execKmean8 fmt d s
  | .kmean9 fmt d => Sys2Proof.Machine.execKmean9 fmt d s

end Sys2Proof.Machine
end

