-- ==== Sys2Proof/Machine/Bus.lean ====
section
/-! DEFINITION. The bus (R20, R22, R26 to R36, R60, R74, R281): what an access of a master does, what one turn of
the whole machine does, and the host syntax of R101 and R102 as lists of accesses. -/

namespace Sys2Proof.Machine

/-! ### Register accesses (R22, R26 to R36) -/

/-- A write to CMD. While a launch runs it is not accepted and changes no register (R27); otherwise the word is
decoded (R90 to R94) and its instruction runs, or it is illegal (R93). -/
def writeCommand (m : Master) (w : Word) (s : State) : Outcome State :=
  match s.phase with
  | .busy => .next (s.respond m .done)
  | .idle =>
    match decodeCommand w with
    | .ok i => exec i { s with issuer := m }
    | .error _ => .next (rejectCommand w { s with issuer := m })

/-- An aligned 32-bit write of a register (R22, R30, R31 to R36). -/
def writeRegister (m : Master) (name : RegName) (w : Word) (s : State) : Outcome State :=
  match name with
  | .cmd => writeCommand m w s
  | .status => .next (s.respond m .done)
  | .srcBaseLo => .next ({ s with regs := s.regs.write .srcBaseLo w }.respond m .done)
  | .srcBaseHi => .next ({ s with regs := s.regs.write .srcBaseHi w }.respond m .done)
  | .dstBaseLo => .next ({ s with regs := s.regs.write .dstBaseLo w }.respond m .done)
  | .dstBaseHi => .next ({ s with regs := s.regs.write .dstBaseHi w }.respond m .done)
  | .srcStride => .next ({ s with regs := s.regs.write .srcStride w }.respond m .done)
  | .dstStride => .next ({ s with regs := s.regs.write .dstStride w }.respond m .done)
  | .width => .next ({ s with regs := s.regs.write .width w }.respond m .done)
  | .height => .next ({ s with regs := s.regs.write .height w }.respond m .done)

/-- The access reaches a byte of the register block (R22); one of no bytes counts by its address (log 13). -/
def touchesRegBlock (p : Params) (addr bytes : Nat) : Bool :=
  decide (addr < p.regBase + regBlockSize ∧ (p.regBase ≤ addr ∨ p.regBase < addr + bytes))

/-- The access is not an aligned 32-bit one of the block (R35). -/
def badRegAccess (p : Params) (addr bytes : Nat) : Bool :=
  decide (bytes ≠ 4 ∨ addr < p.regBase ∨ (addr - p.regBase) % 4 ≠ 0)

/-- A register write at a host address (R22, R34, R35). -/
def regWriteAccess (m : Master) (addr bytes : Nat) (w : Word) (s : State) : Outcome State :=
  if !touchesRegBlock s.params addr bytes then .next (s.respond m .unclaimed)
  else if badRegAccess s.params addr bytes then .fault .regAccess
  else
    match RegName.ofOffset (addr - s.params.regBase) with
    | some name => writeRegister m name w s
    | none => .next (s.respond m .done)

/-- A register read at a host address (R22, R34, R35). -/
def regReadAccess (m : Master) (addr bytes : Nat) (s : State) : Outcome State :=
  if !touchesRegBlock s.params addr bytes then .next (s.respond m .unclaimed)
  else if badRegAccess s.params addr bytes then .fault .regAccess
  else
    match RegName.ofOffset (addr - s.params.regBase) with
    | some name => .next (s.respond m (.data (s.readReg name)))
    | none => .next (s.respond m (.data 0))

/-! ### Memory accesses (R60, R73, R74) -/

/-- A byte of a running launch's buffers (R74). -/
def inLaunchBuffers (s : State) (a : Addr) : Bool :=
  inReadSet s.latch (a.toNat : Int) || inWriteSet s.latch (a.toNat : Int)

/-- A master writes a byte of memory; during a launch a byte of RS or WS may not be written (R74). -/
def memWriteAccess (m : Master) (a : Addr) (b : Byte) (s : State) : Outcome State :=
  match s.phase with
  | .idle => .next ({ s with mem := s.mem.write a.toNat b }.respond m .done)
  | .busy =>
    if inLaunchBuffers s a then .fault .concurrentAccess
    else .next ({ s with mem := s.mem.write a.toNat b }.respond m .done)

/-- A master reads a byte of memory; during a launch a byte of WS reads as a drawn value (R74). -/
def memReadAccess (m : Master) (a : Addr) (s : State) : Outcome State :=
  match s.phase with
  | .idle => .next (s.respond m (.byte (s.mem.read a.toNat)))
  | .busy =>
    if inWriteSet s.latch (a.toNat : Int) then
      .next ({ s with draws := s.draws + 1 }.respond m (.byte (Config.freeByte s.draws)))
    else .next (s.respond m (.byte (s.mem.read a.toNat)))

/-- What an access does. -/
def access (m : Master) (a : Access) (s : State) : Outcome State :=
  match a with
  | .regWrite addr bytes w => regWriteAccess m addr bytes w s
  | .regRead addr bytes => regReadAccess m addr bytes s
  | .memWrite addr b => memWriteAccess m addr b s
  | .memRead addr => memReadAccess m addr s
  | .reset => .next (resetUnit s)

/-! ### One turn of the machine -/

/-- A micro-op word at the datapath's input: decoded and run, or reserved (R99). -/
def runUopWord (u : UWord) (s : State) : Outcome State :=
  match decodeUop u with
  | .ok i => exec i s
  | .error _ => .fault .reservedUop

/-- One turn: a micro-op word at the datapath's input, else the access that is due, else the launch goes on, else
the turn passes and nothing else changes (R20, R28, R42, R273; the order is log 5). -/
def turn (s : State) : Outcome State :=
  match s.uopWord with
  | some u => runUopWord u { s with uopWord := none }
  | none =>
    match s.due with
    | some (m, a) => access m a s.takeTurn
    | none =>
      match s.phase with
      | .busy => resumeLaunch s
      | .idle => .next s.takeTurn

/-! ### Host syntax (R101, R102) -/

/-- `wr REG, imm` (R101). -/
def wr (p : Params) (r : RegName) (w : Word) : Access := .regWrite (p.regBase + r.offset) 4 w

/-- `rd REG` (R101). -/
def rd (p : Params) (r : RegName) : Access := .regRead (p.regBase + r.offset) 4

/-- `filter.<mode>.<fmt> [align]` (R101). -/
def filterCommand (p : Params) (m : Mode) (fmt : Fmt) (align : Bool) : Access :=
  wr p .cmd (encodeCommand m fmt align)

/-- `filter.copy.<fmt>` (R102). -/
def filterCopy (p : Params) (fmt : Fmt) (align : Bool) : Access := filterCommand p .pass fmt align

/-- `filter.skip.<fmt>` (R102). -/
def filterSkip (p : Params) (fmt : Fmt) (align : Bool) : Access := filterCommand p .undef fmt align

/-- `setsrc base, stride` (R102). -/
def setsrc (p : Params) (base : Addr) (stride : Word) : List Access :=
  [wr p .srcBaseLo (base.extractLsb' 0 32), wr p .srcBaseHi (base.extractLsb' 32 32), wr p .srcStride stride]

/-- `setdst base, stride` (R102). -/
def setdst (p : Params) (base : Addr) (stride : Word) : List Access :=
  [wr p .dstBaseLo (base.extractLsb' 0 32), wr p .dstBaseHi (base.extractLsb' 32 32), wr p .dstStride stride]

/-- `setgeom w, h` (R102). -/
def setgeom (p : Params) (w h : Word) : List Access := [wr p .width w, wr p .height h]

end Sys2Proof.Machine
end

