-- ==== Sys2Proof/Machine/Step.lean ====
section
/-! DEFINITION. One step of the machine, and where a step finds its next instruction. -/

namespace Sys2Proof.Machine

/-- One step: one turn of the bus, the engine and the datapath (Machine/Bus.lean). -/
def step (s : State) : Host.Outcome State Fault Refusal := turn s

/-- `s` with the instruction of a table row's bits where the next step fetches it (log 5): a command word as the
host's next write to CMD with the unit idle and no other master's turn before it, a micro-op word at the datapath's
input. Bits that are no row's leave `s` as it is. -/
def State.withFetchWord (s : State) (nbits w : Nat) : State :=
  match tableWord nbits w with
  | none => s
  | some (.command c) =>
    { s with uopWord := none, others := [], phase := .idle, host := some (wr s.params .cmd c) :: s.host }
  | some (.microOp u) => { s with uopWord := some u }

end Sys2Proof.Machine
end

