-- ==== Sys2Proof/Safety.lean ====
section
/-! DEFINITION. The terms in which claims are stated: the byte sets of a launch (R63, R64), a launch whose behaviour
the spec defines (R233, R234, R68, R70, R75, R76), admissible NaN draws (R17), frames, and the machine's invariant. -/

namespace Sys2Proof.Machine

/-! ### Launches -/

/-- RS (R63): the bytes SA(x, y) + k of the grid. -/
def InRS (ld : Latch) (a : Int) : Prop :=
  ∃ x y k : Nat, x < ld.cols ∧ y < ld.rows ∧ k < ld.fmt.ps ∧ a = srcAddr ld.fmt ld x y + k

/-- WS (R64): the bytes DA(x, y) + k of the grid. -/
def InWS (ld : Latch) (a : Int) : Prop :=
  ∃ x y k : Nat, x < ld.cols ∧ y < ld.rows ∧ k < ld.fmt.ps ∧ a = dstAddr ld.fmt ld x y + k

/-- The geometry check passes (R234). -/
structure ValidGeometry (ld : Latch) : Prop where
  width_pos : 0 < ld.w
  height_pos : 0 < ld.h
  src_stride : ld.w * (ld.fmt.ps : Int) ≤ ld.srcStride.toInt
  dst_stride : ld.w * (ld.fmt.ps : Int) ≤ ld.dstStride.toInt

/-- A launch whose behaviour the spec defines: the geometry check passes (R234) and none of the undefined cases
holds (R68, R75, R76, R70). -/
structure ValidLaunch (p : Params) (ld : Latch) : Prop where
  geometry : ValidGeometry ld
  aligned : ld.align = true → ∀ y : Nat, y < ld.rows → srcAddr ld.fmt ld 0 y % 16 = 0
  disjoint : ∀ a, ¬(InRS ld a ∧ InWS ld a)
  in_memory : ∀ a, InRS ld a ∨ InWS ld a → 0 ≤ a ∧ a < (memorySize : Int)
  ordinary : ∀ a, InRS ld a ∨ InWS ld a → ∀ r ∈ p.deviceRegions, ¬((r.base : Int) ≤ a ∧ a < (r.base : Int) + r.size)

/-- The sentinel is not rejected by policy (R233 (d), R236). -/
def Accepted (p : Params) (m : Mode) : Prop := m = .undef → p.sentinelPolicy = .identity

/-! ### Draws -/

/-- An admissible choice of drawn encodings: NaNs only (R17). -/
def NaNChoice (nan : Nat → Sample) : Prop := ∀ k, f32IsNaN (nan k) = true

/-- A finite result of exactly `e` units of 2^-149, rounded to nearest, ties to even (R17): an exact zero has the given
sign; from (2^25 - 1) * 2^252 units on, the least magnitude that rounds to an infinity, the result is the infinity of
e's sign; below it, it is finite, no finite value is nearer, and one as near and different in value leaves it even. -/
structure RoundedSum (e : Int) (negativeZero : Bool) (r : Sample) : Prop where
  zero : e = 0 → r = if negativeZero then 0x80000000#32 else 0#32
  overflow : (2 ^ 25 - 1) * 2 ^ 252 ≤ e.natAbs → r = if e < 0 then 0xFF800000#32 else 0x7F800000#32
  finite : e.natAbs < (2 ^ 25 - 1) * 2 ^ 252 → f32Exp r ≠ 255
  nearest : e.natAbs < (2 ^ 25 - 1) * 2 ^ 252 → ∀ c : Sample, f32Exp c ≠ 255 →
    (f32Units r - e).natAbs ≤ (f32Units c - e).natAbs
  even : e.natAbs < (2 ^ 25 - 1) * 2 ^ 252 → ∀ c : Sample, f32Exp c ≠ 255 →
    (f32Units r - e).natAbs = (f32Units c - e).natAbs → f32Units c ≠ f32Units r → r.getLsbD 0 = false

/-! ### Turns (log 5) -/

/-- No other master's access is due in this turn. -/
def NoOtherDue (s : State) : Prop := ∀ a, s.others.head? ≠ some (some a)

/-- The next step is another master's access `a`, the turns after it being `rest`. -/
structure OtherTurn (a : Access) (rest : List (Option Access)) (s : State) : Prop where
  no_uop : s.uopWord = none
  due : s.others = some a :: rest

/-- The next step is the host's access `a`, its turns after it being `rest`: the host is not stalled by a launch of
its own (R28), though another master's launch may run (R284). -/
structure HostTurn (a : Access) (rest : List (Option Access)) (s : State) : Prop where
  no_uop : s.uopWord = none
  not_stalled : ¬(s.phase = .busy ∧ s.issuer = .host)
  no_other : NoOtherDue s
  due : s.host = some a :: rest

/-- No master's access is due in this turn, the host being stalled or letting it pass. -/
structure NoAccessDue (s : State) : Prop where
  no_uop : s.uopWord = none
  no_other : NoOtherDue s
  no_host : (s.phase = .busy ∧ s.issuer = .host) ∨ ∀ a, s.host.head? ≠ some (some a)

/-- No master will act before the launch ends: no other master's access is to come, nor one of the host if the launch
is not its own (R28). -/
structure Undisturbed (s : State) : Prop where
  no_others : s.others = []
  host_waits : s.issuer = .host ∨ s.host = []

/-! ### Encodings -/

/-- The fields of a reserved micro-op word (R96, R97, R99). -/
def ReservedUop (x : UopFields) : Prop :=
  x.res ≠ 0 ∨ x.fmt = 3 ∨
    x.op.toNat ∉ [0x01, 0x02, 0x03, 0x04, 0x05, 0x06, 0x07, 0x08, 0x09, 0x0A, 0x10, 0x11, 0x12] ∨
    (x.op.toNat ∈ [0x08, 0x09] ∧ 8 < x.nbi.toNat) ∨
    (x.op.toNat = 0x09 ∧ x.sc = 1) ∨
    (x.op.toNat = 0x03 ∧ x.d = x.e) ∨
    (x.op.toNat = 0x0A ∧ x.d ≠ 0) ∨
    (x.op.toNat ≠ 0x03 ∧ x.e ≠ 0) ∨
    (x.op.toNat ∈ [0x08, 0x09, 0x11, 0x12] ∧ x.a ≠ 0) ∨
    (x.op.toNat ∈ [0x08, 0x09, 0x0A, 0x11, 0x12] ∧ x.b ≠ 0) ∨
    (x.op.toNat ∉ [0x04, 0x06, 0x07] ∧ x.c ≠ 0) ∨
    (x.op.toNat ≠ 0x06 ∧ x.f ≠ 0) ∨
    (x.op.toNat ∉ [0x08, 0x09] ∧ x.nbi ≠ 0) ∨
    (x.op.toNat ∉ [0x08, 0x0A] ∧ x.sc ≠ 0)

/-! ### Frames -/

/-- Nothing but vector register `d` differs. -/
def OnlyVreg (d : VReg) (s t : State) : Prop := t = { s with v := t.v } ∧ ∀ r, r ≠ d → t.vreg r = s.vreg r

/-- Nothing but vector register `d` and the model's draw counter differs, and the counter only for F32 (R17). -/
def OnlyVregAndDraws (fmt : Fmt) (d : VReg) (s t : State) : Prop :=
  t = { s with v := t.v, draws := t.draws } ∧ (fmt ≠ .f32 → t.draws = s.draws) ∧ ∀ r, r ≠ d → t.vreg r = s.vreg r

/-- The instruction is a micro-op whose word holds a given OP field (R95, R97). -/
def HasOp (i : Instr) (op : BitVec 6) : Prop := ∃ u, encode i = .microOp u ∧ u.extractLsb' 0 6 = op

/-- The units' order in the walk (R208): by row, then by column. -/
def WalksBefore (u v : WorkUnit) : Prop := u.y < v.y ∨ (u.y = v.y ∧ u.x < v.x)

/-- A unit of the launch writes the output column x of its row (R206). -/
def Covers (ld : Latch) (u : WorkUnit) (x y : Nat) : Prop :=
  u.y = y ∧ u.x ≤ x ∧ x < u.x + (if u.vector then ld.fmt.lanes else 1)

/-- What the state is after a launch that changed memory, vector registers and draws as given: the command in CMD,
its result code, the engine idle and LD discarded, the CMD write answered (R26, R231). -/
def launchEnd (m : Mode) (fmt : Fmt) (align : Bool) (r : ResultCode) (v : Vector Vec 32) (mem : Memory) (draws : Nat)
    (s : State) : State :=
  { s with
    regs := { s.regs with cmd := encodeCommand m fmt align }
    result := r
    phase := .idle
    latch := Latch.cleared
    cursor := Cursor.origin
    v := v
    mem := mem
    draws := draws }.respond s.issuer .done

/-! ### The invariant -/

/-- What every step keeps: memory is canonical and inside the space (R44); an idle engine holds no descriptor
(R41); a busy one holds a descriptor that passed every check, with its cursor in the grid (R41, R42, R235); the
host's CMD write is held back exactly while its own launch runs (R28). -/
structure Inv (s : State) : Prop where
  mem_wf : s.mem.wf = true
  mem_space : ∀ c ∈ s.mem, c.1 < memorySize
  idle_clear : s.phase = .idle → s.latch = Latch.cleared ∧ s.cursor = Cursor.origin
  busy_valid : s.phase = .busy → ValidLaunch s.params s.latch ∧ Accepted s.params s.latch.mode
  busy_reserved : s.phase = .busy → s.latch.reserved = 0
  busy_cursor : s.phase = .busy → s.cursor.x < s.latch.cols ∧ s.cursor.y < s.latch.rows
  host_stalled : s.hostResponse = .stalled ↔ (s.phase = .busy ∧ s.issuer = .host)

end Sys2Proof.Machine
end

