-- ==== Sys2Proof/Certificates/Slice0/Obligations.lean ====
section
/-! DEFINITION. The statements for the provers, one `Obligations.<Name>` each; OBLIGATIONS.json lists them. -/

open Sys2Proof Sys2Proof.Machine

/-! ### Encoding -/

/-- Decoding the word of a well-formed instruction gives the instruction, whatever its operands (R90 to R97). -/
def Obligations.DecodeOfEncodeIsIdentity : Prop :=
  ∀ i : Instr, i.wellFormed = true → decode (encode i) = .ok i

/-- Every word that decodes is the word of the instruction it decodes to: the decoder drops no bit (R90 to R99). -/
def Obligations.EncodeOfDecodeIsIdentity : Prop :=
  ∀ (w : CodeWord) (i : Instr), decode w = .ok i → encode i = w ∧ i.wellFormed = true

/-- R94: a command word selects a mnemonic by match and mask, with FMT not 3; a word that matches no row is
illegal. -/
def Obligations.CommandSelectedByMatchAndMask : Prop :=
  (∀ (w : Word) (m : Mode),
    (∃ fmt al, decodeCommand w = .ok (Instr.filter m fmt al)) ↔
      (w &&& 0xFFFFECFF#32 = (BitVec.ofInt 8 m.number).setWidth 32 ∧ w.extractLsb' 8 2 ≠ 3#2)) ∧
  ∀ w : Word,
    (∀ m : Mode, w &&& 0xFFFFECFF#32 ≠ (BitVec.ofInt 8 m.number).setWidth 32) → ∃ r, decodeCommand w = .error r

/-- R93: which command words are illegal; a write of one to an idle engine is accepted by CMD and ends with ERR_MODE,
and changes nothing else. -/
def Obligations.IllegalCommandEndsWithErrMode : Prop :=
  (∀ w : Word,
    (∃ r, decodeCommand w = .error r) ↔
      ((w.extractLsb' 0 8).toInt ∉ [-1, 0, 1, 2, 3, 4, 19, 20, 64] ∨ w.extractLsb' 8 2 = 3#2 ∨
        w.extractLsb' 10 2 ≠ 0#2 ∨ w.extractLsb' 13 19 ≠ 0#19)) ∧
  ∀ (s : State) (m : Master) (w : Word) (r : Reject), s.phase = .idle → decodeCommand w = .error r →
    access m (.regWrite s.params.regBase 4 w) s = .next
      ({ s with
        issuer := m
        regs := { s.regs with cmd := w }
        result := .errMode
        latch := Latch.cleared
        cursor := Cursor.origin }.respond m .done)

/-- R99: which micro-op words are reserved; one that reaches the datapath is the fault RESERVED_UOP; the sequencer
never issues one, in any unit of any launch. -/
def Obligations.ReservedMicroOpFaults : Prop :=
  (∀ u : UWord, (∃ r, decodeUop u = .error r) ↔ ReservedUop (uopFields u)) ∧
  (∀ (s : State) (u : UWord), s.uopWord = some u → ReservedUop (uopFields u) → step s = .fault .reservedUop) ∧
  ∀ (tier : Tier) (ld : Latch) (vector : Bool) (i : Instr), i ∈ unitProgram tier ld vector →
    ∃ u, encode i = .microOp u ∧ ¬ReservedUop (uopFields u)

/-- Words written out from R90 and R95 decode to their instructions. -/
def Obligations.WrittenWordsDecode : Prop :=
  decodeCommand 0x00001213#32 = .ok (.filterMean8 .f32 true) ∧
  decodeCommand 0x000000FF#32 = .ok (.filterUndef .u8 false) ∧
  decodeUop 0x0000000831040506#64 = .ok (.vseleq .u8 5 1 2 3 4) ∧
  decodeUop 0x0000060000000848#64 = .ok (.vloadu .u16 8 8 true) ∧
  decodeUop 0x00000400007C008A#64 = .ok (.vstoreu .f32 31 true) ∧
  decodeUop 0x0000024000000108#64 = .error .reservedNeighbour

/-! ### Steps -/

/-- A step runs the decoded instruction: `exec` of the micro-op word at the datapath's input, that word taken away;
and `exec` of the word written to CMD by the host or by another master while the engine is idle, the access being
taken from its list (R26). Where the words come from is the model's own (log 5). -/
def Obligations.StepRunsTheDecodedInstruction : Prop :=
  (∀ (s : State) (u : UWord) (i : Instr), s.uopWord = some u → decodeUop u = .ok i →
    step s = exec i { s with uopWord := none }) ∧
  (∀ (s : State) (w : Word) (rest : List (Option Access)) (i : Instr), s.phase = .idle →
    HostTurn (.regWrite s.params.regBase 4 w) rest s → decodeCommand w = .ok i →
    step s = exec i { s with host := rest, others := s.others.tail, issuer := .host }) ∧
  ∀ (s : State) (w : Word) (rest : List (Option Access)) (i : Instr), s.phase = .idle →
    OtherTurn (.regWrite s.params.regBase 4 w) rest s → decodeCommand w = .ok i →
    step s = exec i { s with others := rest, issuer := .others }

/-- Whose turn a step takes: another master's access when it is due, else the host's unless its own launch stalls it
(R28), also while another master's launch runs (R284), else the launch's while one runs, else nobody's. The order is
the model's own choice (log 5). -/
def Obligations.StepTakesTheTurnDue : Prop :=
  (∀ (s : State) (a : Access) (rest : List (Option Access)), OtherTurn a rest s →
    step s = access .others a { s with others := rest }) ∧
  (∀ (s : State) (a : Access) (rest : List (Option Access)), HostTurn a rest s →
    step s = access .host a { s with host := rest, others := s.others.tail }) ∧
  (∀ s : State, NoAccessDue s → s.phase = .busy → step s = resumeLaunch s) ∧
  ∀ s : State, NoAccessDue s → s.phase = .idle →
    step s = .next { s with host := s.host.tail, others := s.others.tail }

/-- R273: with nothing to do a step changes no state. -/
def Obligations.IdleStepChangesNothing : Prop :=
  ∀ s : State, s.uopWord = none → s.others = [] → s.phase = .idle → s.host = [] → step s = .next s

/-! ### The register block and the bus -/

/-- R36, and R31 to R33 for the read back: a write of a descriptor register changes that register alone, in either
phase, and the launch's latched descriptor not at all. -/
def Obligations.DescriptorWriteChangesItsRegister : Prop :=
  ∀ (s : State) (m : Master) (n : RegName) (w : Word), n ≠ .cmd → n ≠ .status →
    ∃ t, access m (.regWrite (s.params.regBase + n.offset) 4 w) s = .next t ∧
      t = { s with regs := t.regs }.respond m .done ∧
      ∀ q : RegName, t.readReg q = if q = n then w else s.readReg q

/-- R27: a write to CMD while a launch runs changes no register and starts no launch. That the bus answers it as
completed is the model's choice (log 8). -/
def Obligations.CommandWhileBusyIsNotAccepted : Prop :=
  (∀ (s : State) (m : Master) (w : Word), s.phase = .busy →
    access m (.regWrite s.params.regBase 4 w) s = .next (s.respond m .done)) ∧
  ∀ (s : State) (m : Mode) (fmt : Fmt) (al : Bool), s.phase = .busy →
    exec (Instr.filter m fmt al) s = .next s

/-- R22: an aligned 32-bit read of a register answers its content and changes nothing. R30: STATUS holds BUSY in bit
31, 0 in bits 30:2 and RESULT in bits 1:0, and ignores writes. That the bus answers an ignored write as completed is
the model's choice (log 8). -/
def Obligations.RegisterReadsAnswerTheirContent : Prop :=
  (∀ (s : State) (m : Master) (n : RegName),
    access m (.regRead (s.params.regBase + n.offset) 4) s = .next (s.respond m (.data (s.readReg n)))) ∧
  (∀ s : State,
    (s.readReg .status).getLsbD 31 = decide (s.phase = .busy) ∧ (s.readReg .status).extractLsb' 2 29 = 0#29 ∧
      ((s.readReg .status).extractLsb' 0 2).toNat =
        match s.result with
        | .none => 0
        | .ok => 1
        | .errMode => 2
        | .errGeometry => 3) ∧
  ∀ (s : State) (m : Master) (w : Word),
    access m (.regWrite (s.params.regBase + 4) 4 w) s = .next (s.respond m .done)

/-- R34: a reserved offset reads as 0 and ignores writes. That the bus answers an ignored write as completed is the
model's choice (log 8). -/
def Obligations.ReservedOffsetsReadZero : Prop :=
  ∀ (s : State) (m : Master) (o : Nat) (w : Word), 0x28 ≤ o → o < 0x100 → o % 4 = 0 →
    access m (.regRead (s.params.regBase + o) 4) s = .next (s.respond m (.data 0)) ∧
      access m (.regWrite (s.params.regBase + o) 4 w) s = .next (s.respond m .done)

/-- R35: a register access that is not an aligned 32-bit one is the fault REG_ACCESS. Which accesses count as the
block's is the model's choice (log 13, DESIGN CHOICE): one that starts in the block, of no bytes too, and one that
starts below it and reaches into it. -/
def Obligations.MisfitRegisterAccessFaults : Prop :=
  ∀ (s : State) (m : Master) (addr bytes : Nat) (w : Word),
    addr < s.params.regBase + 0x100 → (s.params.regBase ≤ addr ∨ s.params.regBase < addr + bytes) →
    (bytes ≠ 4 ∨ addr < s.params.regBase ∨ (addr - s.params.regBase) % 4 ≠ 0) →
    access m (.regRead addr bytes) s = .fault .regAccess ∧ access m (.regWrite addr bytes w) s = .fault .regAccess

/-- R74: during a launch a write to RS or WS is the fault CONCURRENT_ACCESS, and a read of WS answers some byte (drawn:
logs 4 and 11) and changes no memory. Any other access acts as on plain memory (R60, R70): byte by byte (log 14) and
in device regions too (log 7), which are the model's choices. -/
def Obligations.BuffersBelongToTheLaunch : Prop :=
  ∀ (s : State) (m : Master) (a : Addr) (b : Byte),
    (s.phase = .busy → (InRS s.latch a.toNat ∨ InWS s.latch a.toNat) →
      access m (.memWrite a b) s = .fault .concurrentAccess) ∧
    (s.phase = .busy → InWS s.latch a.toNat →
      ∃ x, access m (.memRead a) s = .next ({ s with draws := s.draws + 1 }.respond m (.byte x))) ∧
    ((s.phase = .busy → ¬InRS s.latch a.toNat ∧ ¬InWS s.latch a.toNat) →
      ∃ mem, access m (.memWrite a b) s = .next ({ s with mem := mem }.respond m .done) ∧
        ∀ c : Nat, mem.read c = if c = a.toNat then b else s.mem.read c) ∧
    ((s.phase = .busy → ¬InWS s.latch a.toNat) →
      access m (.memRead a) s = .next (s.respond m (.byte (s.mem.read a.toNat))))

/-! ### Reset -/

/-- R45: after reset every register reads 0, so STATUS.RESULT is NONE and BUSY is 0, and the phase is IDLE. -/
def Obligations.ResetStateIsClear : Prop :=
  (∀ n : RegName, State.reset.readReg n = 0#32) ∧ State.reset.phase = .idle ∧ State.reset.result = .none

/-- R280, R281: reset at any time puts every register at 0 and the phase at IDLE; memory is not touched but for the
write set of a launch it abandons, whose CMD write never completes (its answer: log 8). That the parameters and the
masters' lists go on through reset is the model's inference (log 21). -/
def Obligations.ResetClearsTheUnit : Prop :=
  ∀ (s : State) (m : Master), ∃ t, access m .reset s = .next t ∧
    (∀ n : RegName, t.readReg n = 0#32) ∧ t.phase = .idle ∧ t.result = .none ∧
    (s.phase = .idle → t.mem = s.mem) ∧
    (s.phase = .busy → Inv s → ∀ a : Nat, ¬InWS s.latch a → t.mem.read a = s.mem.read a) ∧
    (s.phase = .busy → s.issuer = .host → t.hostResponse = .aborted) ∧
    t.params = s.params ∧ t.host = s.host ∧ t.others = s.others

/-! ### Dispatch -/

/-- R233 (d), R235, R236: under REJECT the sentinel ends with ERR_MODE, whatever the geometry, and changes nothing
else. -/
def Obligations.RejectedSentinelEndsWithErrMode : Prop :=
  ∀ (s : State) (fmt : Fmt) (al : Bool), s.phase = .idle → s.params.sentinelPolicy = .reject →
    exec (.filterUndef fmt al) s = .next (launchEnd .undef fmt al .errMode s.v s.mem s.draws s)

/-- R234: a launch whose geometry is invalid ends with ERR_GEOMETRY, and changes nothing else. -/
def Obligations.InvalidGeometryEndsWithErrGeometry : Prop :=
  ∀ (s : State) (m : Mode) (fmt : Fmt) (al : Bool), s.phase = .idle → Accepted s.params m →
    (s.regs.width.toInt ≤ 0 ∨ s.regs.height.toInt ≤ 0 ∨
      s.regs.srcStride.toInt < s.regs.width.toInt * fmt.ps ∨ s.regs.dstStride.toInt < s.regs.width.toInt * fmt.ps) →
    exec (Instr.filter m fmt al) s = .next (launchEnd m fmt al .errGeometry s.v s.mem s.draws s)

/-- R230: the undefined cases of a launch that passes both checks fault, in the order of its pseudocode; a buffer in
device memory faults too (R70, R262), after the others, which is the model's choice (log 7). -/
def Obligations.UndefinedLaunchesFault : Prop :=
  ∀ (s : State) (m : Mode) (fmt : Fmt) (al : Bool), s.phase = .idle → Accepted s.params m →
    ValidGeometry (latchOf m fmt al s.regs) →
    let ld := latchOf m fmt al s.regs
    let misaligned := al = true ∧ ∃ y : Nat, y < ld.rows ∧ srcAddr fmt ld 0 y % 16 ≠ 0
    let overlapping := ∃ a, InRS ld a ∧ InWS ld a
    let outside := ∃ a, (InRS ld a ∨ InWS ld a) ∧ (2 : Int) ^ 64 - 1 < a
    let inDevice := ∃ a, (InRS ld a ∨ InWS ld a) ∧
      ∃ r ∈ s.params.deviceRegions, (r.base : Int) ≤ a ∧ a < (r.base : Int) + r.size
    (misaligned → exec (Instr.filter m fmt al) s = .fault .alignHint) ∧
      (¬misaligned → overlapping → exec (Instr.filter m fmt al) s = .fault .overlap) ∧
      (¬misaligned → ¬overlapping → outside → exec (Instr.filter m fmt al) s = .fault .addrRange) ∧
      (¬misaligned → ¬overlapping → ¬outside → inDevice → exec (Instr.filter m fmt al) s = .fault .deviceMemory)

/-- The checks of acceptance hold exactly of the launches the spec defines, byte by byte (R63, R64, R68, R70, R75,
R76, R234). -/
def Obligations.ChecksAcceptExactlyValidLaunches : Prop :=
  ∀ (p : Params) (ld : Latch),
    (geometryError ld = false ∧ launchFault p ld = none) ↔ ValidLaunch p ld

/-- R26, R41, R42: when a master's access is due before the first unit (another master's, or the host's when the launch
is not its own), the accepted launch stands with BUSY = 1, its descriptor latched and its cursor at (0, 0), and its CMD
write is not answered (R28). That the launch stands there is the model's choice (log 5). -/
def Obligations.AcceptedLaunchLatchesItsDescriptor : Prop :=
  ∀ (s : State) (m : Mode) (fmt : Fmt) (al : Bool) (a : Access) (rest : List (Option Access)),
    s.phase = .idle → Accepted s.params m → ValidLaunch s.params (latchOf m fmt al s.regs) →
    (s.others = some a :: rest ∨ (s.issuer = .others ∧ NoOtherDue s ∧ s.host = some a :: rest)) →
    exec (Instr.filter m fmt al) s = .next
      ({ s with
        regs := { s.regs with cmd := encodeCommand m fmt al }
        phase := .busy
        latch :=
          { mode := m, fmt := fmt, align := al, reserved := 0, srcBase := s.regs.srcBaseHi ++ s.regs.srcBaseLo,
            dstBase := s.regs.dstBaseHi ++ s.regs.dstBaseLo, srcStride := s.regs.srcStride,
            dstStride := s.regs.dstStride, width := s.regs.width, height := s.regs.height }
        cursor := { y := 0, x := 0 } }.respond s.issuer .stalled)

/-- Every FILTER_PLANE command (filter.undef under IDENTITY, filter.pass, filter.clamp1 to filter.clamp4,
filter.mean8, filter.mean9, filter.median8) completes: a valid launch that no master interrupts ends with OK, and
outside its write set memory is as before (R64, R209, R231). -/
def Obligations.ValidLaunchEndsWithOk : Prop :=
  ∀ (s : State) (m : Mode) (fmt : Fmt) (al : Bool), s.phase = .idle → Undisturbed s → Accepted s.params m →
    ValidLaunch s.params (latchOf m fmt al s.regs) →
    ∃ v mem draws, exec (Instr.filter m fmt al) s = .next (launchEnd m fmt al .ok v mem draws s) ∧
      (fmt ≠ .f32 → draws = s.draws) ∧
      ∀ a : Nat, ¬InWS (latchOf m fmt al s.regs) a → mem.read a = s.mem.read a

/-- R200: a valid launch writes to DA(x, y) the mode's kernel of the clamped neighbourhood of (x, y), read from the
source as it was when the launch was accepted; every output sample of the grid, for all nine commands and all three
formats. -/
def Obligations.LaunchWritesTheFilteredPlane : Prop :=
  ∀ (s : State) (m : Mode) (fmt : Fmt) (al : Bool), s.phase = .idle → Undisturbed s → Accepted s.params m →
    ValidLaunch s.params (latchOf m fmt al s.regs) →
    ∃ t, exec (Instr.filter m fmt al) s = .next t ∧ t.result = .ok ∧
      ∀ x y : Nat, x < (latchOf m fmt al s.regs).cols → y < (latchOf m fmt al s.regs).rows →
        ∃ nan, NaNChoice nan ∧
          loadSample fmt t.mem (dstAddr fmt (latchOf m fmt al s.regs) x y).toNat =
            outputSample (latchOf m fmt al s.regs) nan s.mem x y

/-- R261: no sample value decides whether a launch faults or which result it reports. -/
def Obligations.NoDataDependentErrors : Prop :=
  ∀ (s : State) (m : Mode) (fmt : Fmt) (al : Bool) (mem : Memory),
    (∀ f, exec (Instr.filter m fmt al) s = .fault f ↔ exec (Instr.filter m fmt al) { s with mem := mem } = .fault f) ∧
      ∀ t u, exec (Instr.filter m fmt al) s = .next t →
        exec (Instr.filter m fmt al) { s with mem := mem } = .next u → t.result = u.result ∧ t.phase = u.phase

/-- R205: the bytes a launch writes depend on memory through RS alone, for given registers and draws. -/
def Obligations.OutputDependsOnTheReadSetAlone : Prop :=
  ∀ (s : State) (m : Mode) (fmt : Fmt) (al : Bool) (v : Vector Vec 32) (mem : Memory),
    s.phase = .idle → Undisturbed s → Accepted s.params m → ValidLaunch s.params (latchOf m fmt al s.regs) →
    (∀ a : Nat, InRS (latchOf m fmt al s.regs) a → mem.read a = s.mem.read a) →
    ∃ t u, exec (Instr.filter m fmt al) s = .next t ∧
      exec (Instr.filter m fmt al) { s with v := v, mem := mem } = .next u ∧
      ∀ a : Nat, InWS (latchOf m fmt al s.regs) a → u.mem.read a = t.mem.read a

/-- R135: TIER changes no register, no byte written and no result code: whatever a step does, it does the same on
the machine of the other tier. -/
def Obligations.TierIsNotObservable : Prop :=
  ∀ (s : State) (tier : Tier), Inv s →
    (∀ t, step s = .next t → step { s with params := { s.params with tier := tier } } =
      .next { t with params := { s.params with tier := tier } }) ∧
    ∀ f, step s = .fault f → step { s with params := { s.params with tier := tier } } = .fault f

/-- R68, R205: a true alignment assertion changes no byte written and no result. -/
def Obligations.AlignHintIsNotObservable : Prop :=
  ∀ (s : State) (m : Mode) (fmt : Fmt), s.phase = .idle → Undisturbed s → Accepted s.params m →
    ValidLaunch s.params (latchOf m fmt true s.regs) →
    ∃ t u, exec (Instr.filter m fmt true) s = .next t ∧ exec (Instr.filter m fmt false) s = .next u ∧
      u.mem = t.mem ∧ u.result = t.result

/-- R72, R205: a launch interrupted after any number of units by a read of STATUS, of another master or of the host when
the launch is not its own (R284), and then resumed, leaves the memory it leaves uninterrupted (the grain of a unit:
log 5). -/
def Obligations.InterruptedLaunchWritesTheSamePlane : Prop :=
  ∀ (s s' : State) (m : Mode) (fmt : Fmt) (al : Bool) (n : Nat), s.phase = .idle → Undisturbed s →
    s.uopWord = none → Accepted s.params m → ValidLaunch s.params (latchOf m fmt al s.regs) →
    n < (planeUnits (latchOf m fmt al s.regs)).length →
    let turns := List.replicate n none ++ [some (Access.regRead (s.params.regBase + 4) 4)]
    (s' = { s with others := turns } ∨ (s.issuer = .others ∧ s' = { s with host := turns })) →
    ∃ t u u₁ u₂, exec (Instr.filter m fmt al) s = .next t ∧ exec (Instr.filter m fmt al) s' = .next u ∧
      u.phase = .busy ∧ step u = .next u₁ ∧ u₁.phase = .busy ∧ step u₁ = .next u₂ ∧
      u₂.phase = .idle ∧ u₂.result = .ok ∧ u₂.mem = t.mem

/-- R209: a launch that stands still ends with OK in one step once no master acts (one step: log 5). -/
def Obligations.ResumedLaunchEnds : Prop :=
  ∀ s : State, Inv s → s.phase = .busy → s.uopWord = none → Undisturbed s →
    ∃ t, step s = .next t ∧ t.phase = .idle ∧ t.result = .ok

/-! ### The rasterizer -/

/-- R206, R208, R209: the walk goes row by row and by increasing column, no unit twice; every pixel of the grid is
covered by exactly one unit; and how many units a launch executes. -/
def Obligations.WalkCoversEachPixelOnce : Prop :=
  ∀ ld : Latch, (planeUnits ld).Pairwise WalksBefore ∧
    (∀ x y : Nat, x < ld.cols → y < ld.rows →
      ∃ u ∈ planeUnits ld, Covers ld u x y ∧ ∀ w ∈ planeUnits ld, Covers ld w x y → w = u) ∧
    (0 < ld.w → 0 < ld.h →
      (planeUnits ld).length =
        if ld.cols < 3 ∨ ld.rows < 3 then ld.cols * ld.rows
        else 2 * ld.cols +
          (ld.rows - 2) * (2 + (ld.cols - 2) / ld.fmt.lanes + (ld.cols - 2) % ld.fmt.lanes))

/-- R63, R64: every load of every unit reads bytes of RS alone, and every store writes bytes of WS alone. -/
def Obligations.UnitsStayInTheirBuffers : Prop :=
  ∀ (ld : Latch) (u : WorkUnit), ValidGeometry ld → u ∈ planeUnits ld →
    (∀ (nb : Nbi) (k : Nat), k < accessBytes ld.fmt (!u.vector) →
      InRS ld (loadAddr ld.fmt ld { y := u.y, x := u.x } nb (!u.vector) + k)) ∧
    ∀ k : Nat, k < accessBytes ld.fmt (!u.vector) → InWS ld (storeAddr ld.fmt ld { y := u.y, x := u.x } + k)

/-- R176: each lane of the result register of a mode's micro-program is the mode's kernel of the lanes of V[0..8];
registers V[0..15] and V[24..30], memory, the cursor and the descriptor are as before. -/
def Obligations.MicroProgramComputesTheKernel : Prop :=
  ∀ (m : Mode) (fmt : Fmt) (s : State), m ≠ .undef →
    ∃ t, runUops (microProgram m fmt) s = .next t ∧ t = { s with v := t.v, draws := t.draws } ∧
      (∀ r : VReg, r.val < 16 ∨ (24 ≤ r.val ∧ r.val < 31) → t.vreg r = s.vreg r) ∧
      ∀ i, i < fmt.lanes → ∃ nan, NaNChoice nan ∧
        lane fmt (t.vreg (resultReg m)) i = kernel m fmt nan (lane fmt (s.vreg 0) i) (ringLanes fmt s i)

/-! ### Kernels -/

/-- R162: for U8 and U16 SORT8 gives the neighbours in ascending order. -/
def Obligations.SortNetworkSortsIntegers : Prop :=
  ∀ (fmt : Fmt) (r : Ring), fmt ≠ .f32 →
    (sort8 fmt r).toList.Pairwise (fun x y => x.toNat ≤ y.toNat) ∧ (sort8 fmt r).toList.Perm r.list

/-- R181: for U8 and U16 permuting the neighbours changes no mode's output. -/
def Obligations.IntegerKernelsIgnoreNeighbourOrder : Prop :=
  ∀ (m : Mode) (fmt : Fmt) (nan : Nat → Sample) (c : Sample) (r q : Ring), fmt ≠ .f32 → r.list.Perm q.list →
    kernel m fmt nan c r = kernel m fmt nan c q

/-- R179: modes 0 to 4 (and the sentinel's copy) give the encoding of one of the nine inputs, and never draw. -/
def Obligations.ClampOutputsAreInputs : Prop :=
  ∀ (m : Mode) (fmt : Fmt) (nan nan' : Nat → Sample) (c : Sample) (r : Ring),
    m ∈ [Mode.undef, .pass, .clamp1, .clamp2, .clamp3, .clamp4] →
    kernel m fmt nan c r ∈ c :: r.list ∧ kernel m fmt nan c r = kernel m fmt nan' c r

/-- R180: modes 1 to 4 applied twice with the same neighbours give what once gives, F32 included. -/
def Obligations.ClampIsIdempotent : Prop :=
  ∀ (m : Mode) (fmt : Fmt) (nan : Nat → Sample) (c : Sample) (r : Ring),
    m ∈ [Mode.clamp1, .clamp2, .clamp3, .clamp4] →
    kernel m fmt nan (kernel m fmt nan c r) r = kernel m fmt nan c r

/-- R169: for integers clamp4 is the median of the nine samples. -/
def Obligations.Clamp4IsTheMedianOfNine : Prop :=
  ∀ (fmt : Fmt) (nan : Nat → Sample) (c : Sample) (r : Ring), fmt ≠ .f32 →
    ((c :: r.list).map BitVec.toNat).mergeSort[4]? = some (kernel .clamp4 fmt nan c r).toNat

/-- R170 to R172, R177: the integer means are the rounded means of the exact sums; the saturation changes none. -/
def Obligations.IntegerMeansNeverSaturate : Prop :=
  ∀ (fmt : Fmt) (nan : Nat → Sample) (c : Sample) (r : Ring), fmt ≠ .f32 →
    (∀ a ∈ c :: r.list, a.toNat < 2 ^ fmt.bits) →
    (kernel .mean8 fmt nan c r).toNat = ((r.list.map BitVec.toNat).sum + 4) / 8 ∧
      (kernel .mean9 fmt nan c r).toNat = (((c :: r.list).map BitVec.toNat).sum + 4) / 9 ∧
      (kernel .median8 fmt nan c r).toNat = ((sort8 fmt r)[3].toNat + (sort8 fmt r)[4].toNat + 1) / 2 ∧
      ∀ m : Mode, (kernel m fmt nan c r).toNat < 2 ^ fmt.bits

/-! ### F32 arithmetic (R17). A finite value is `f32Units` units of 2^-149. The least magnitude that rounds to an
infinity is (2^25 - 1) * 2^252 units. -/

/-- f32_add and f32_sub of finite values: the exact sum or difference rounded to nearest, ties to even, or an infinity
of its sign; an exact zero is +0 unless both terms are negative. The overflow to infinity and the sign of an exact
zero are the standard's (PRESUMED: log 18). -/
def Obligations.F32AddRoundsToNearestEven : Prop :=
  ∀ nan a b : Sample, f32Exp a ≠ 255 → f32Exp b ≠ 255 →
    RoundedSum (f32Units a + f32Units b) (f32Sign a && f32Sign b) (f32Add nan a b) ∧
      RoundedSum (f32Units a - f32Units b) (f32Sign a && !f32Sign b) (f32Sub nan a b)

/-- f32_mul of finite values: the exact product rounded to nearest, ties to even, with the product of the signs. The
overflow to infinity and the sign are the standard's (PRESUMED: log 18). -/
def Obligations.F32MulRoundsToNearestEven : Prop :=
  ∀ nan a b : Sample, f32Exp a ≠ 255 → f32Exp b ≠ 255 →
    let e := f32Units a * f32Units b
    let r := f32Mul nan a b
    f32Sign r = (f32Sign a != f32Sign b) ∧
    ((2 ^ 25 - 1) * 2 ^ 401 ≤ e.natAbs → f32IsInf r = true) ∧
    (e.natAbs < (2 ^ 25 - 1) * 2 ^ 401 → f32Exp r ≠ 255 ∧ ∀ c : Sample, f32Exp c ≠ 255 →
      (f32Units r * 2 ^ 149 - e).natAbs ≤ (f32Units c * 2 ^ 149 - e).natAbs ∧
      ((f32Units r * 2 ^ 149 - e).natAbs = (f32Units c * 2 ^ 149 - e).natAbs → f32Units c ≠ f32Units r →
        r.getLsbD 0 = false))

/-- f32_div of finite values by a value that is not zero: the exact quotient rounded to nearest, ties to even, with
the product of the signs. The overflow to infinity and the sign are the standard's (PRESUMED: log 18). -/
def Obligations.F32DivRoundsToNearestEven : Prop :=
  ∀ nan a b : Sample, f32Exp a ≠ 255 → f32Exp b ≠ 255 → f32Units b ≠ 0 →
    let n := f32Units a * 2 ^ 149
    let d := f32Units b
    let r := f32Div nan a b
    f32Sign r = (f32Sign a != f32Sign b) ∧
    ((2 ^ 25 - 1) * 2 ^ 252 * d.natAbs ≤ n.natAbs → f32IsInf r = true) ∧
    (n.natAbs < (2 ^ 25 - 1) * 2 ^ 252 * d.natAbs → f32Exp r ≠ 255 ∧ ∀ c : Sample, f32Exp c ≠ 255 →
      (f32Units r * d - n).natAbs ≤ (f32Units c * d - n).natAbs ∧
      ((f32Units r * d - n).natAbs = (f32Units c * d - n).natAbs → f32Units c ≠ f32Units r → r.getLsbD 0 = false))

/-- f32_lt, f32_gt and f32_eq: false when an operand is a NaN; else the order of the values, where +0 equals -0, each
infinity lies beyond every finite value on its side and equals itself. -/
def Obligations.F32ComparisonsOrderValues : Prop :=
  ∀ a b : Sample,
    (f32IsNaN a = true ∨ f32IsNaN b = true → f32Lt a b = false ∧ f32Gt a b = false ∧ f32Eq a b = false) ∧
    (f32Exp a ≠ 255 → f32Exp b ≠ 255 →
      f32Lt a b = decide (f32Units a < f32Units b) ∧ f32Gt a b = decide (f32Units b < f32Units a) ∧
        f32Eq a b = decide (f32Units a = f32Units b)) ∧
    (f32IsInf a = true → f32Exp b ≠ 255 →
      f32Lt a b = f32Sign a ∧ f32Gt a b = !f32Sign a ∧ f32Eq a b = false) ∧
    (f32Exp a ≠ 255 → f32IsInf b = true →
      f32Lt a b = !f32Sign b ∧ f32Gt a b = f32Sign b ∧ f32Eq a b = false) ∧
    (f32IsInf a = true → f32IsInf b = true →
      f32Lt a b = (f32Sign a && !f32Sign b) ∧ f32Gt a b = (!f32Sign a && f32Sign b) ∧
        f32Eq a b = (f32Sign a == f32Sign b))

/-! ### Micro-ops: each completes, with its result and its frame -/

/-- R124. -/
def Obligations.VminTakesTheLaneMinimum : Prop :=
  ∀ (fmt : Fmt) (d a b : VReg) (s : State), HasOp (.vmin fmt d a b) 0x01#6 ∧
    ∃ t, exec (.vmin fmt d a b) s = .next t ∧ OnlyVreg d s t ∧
      ∀ i, i < fmt.lanes →
        let x := lane fmt (s.vreg a) i
        let y := lane fmt (s.vreg b) i
        lane fmt (t.vreg d) i = if (if fmt = .f32 then f32Lt x y else decide (x.toNat < y.toNat)) then x else y

/-- R125. -/
def Obligations.VmaxTakesTheLaneMaximum : Prop :=
  ∀ (fmt : Fmt) (d a b : VReg) (s : State), HasOp (.vmax fmt d a b) 0x02#6 ∧
    ∃ t, exec (.vmax fmt d a b) s = .next t ∧ OnlyVreg d s t ∧
      ∀ i, i < fmt.lanes →
        let x := lane fmt (s.vreg a) i
        let y := lane fmt (s.vreg b) i
        lane fmt (t.vreg d) i = if (if fmt = .f32 then f32Gt x y else decide (y.toNat < x.toNat)) then x else y

/-- R126, R136: the minimum to D and the maximum to E, both sources read first; D = E faults. -/
def Obligations.VsortpOrdersLanePairs : Prop :=
  ∀ (fmt : Fmt) (d e a b : VReg) (s : State), HasOp (.vsortp fmt d e a b) 0x03#6 ∧
    (d = e → exec (.vsortp fmt d e a b) s = .fault .reservedUop) ∧
    (d ≠ e → ∃ t, exec (.vsortp fmt d e a b) s = .next t ∧ t = { s with v := t.v } ∧
      (∀ r, r ≠ d → r ≠ e → t.vreg r = s.vreg r) ∧
      ∀ i, i < fmt.lanes →
        let x := lane fmt (s.vreg a) i
        let y := lane fmt (s.vreg b) i
        (lane fmt (t.vreg d) i = if (if fmt = .f32 then f32Lt x y else decide (x.toNat < y.toNat)) then x else y) ∧
        lane fmt (t.vreg e) i = if (if fmt = .f32 then f32Gt x y else decide (y.toNat < x.toNat)) then x else y)

/-- R127: the minimum of the upper bound and the maximum of value and lower bound. -/
def Obligations.VclipClampsLanes : Prop :=
  ∀ (fmt : Fmt) (d a b c : VReg) (s : State), HasOp (.vclip fmt d a b c) 0x04#6 ∧
    ∃ t, exec (.vclip fmt d a b c) s = .next t ∧ OnlyVreg d s t ∧
      ∀ i, i < fmt.lanes →
        let v := lane fmt (s.vreg a) i
        let lo := lane fmt (s.vreg b) i
        let hi := lane fmt (s.vreg c) i
        let k := if (if fmt = .f32 then f32Gt v lo else decide (lo.toNat < v.toNat)) then v else lo
        lane fmt (t.vreg d) i = if (if fmt = .f32 then f32Lt k hi else decide (k.toNat < hi.toNat)) then k else hi

/-- R128: the exact distance for integers; for F32 the difference with bit 31 cleared, a NaN one drawn. -/
def Obligations.VabsdiffTakesLaneDistance : Prop :=
  ∀ (fmt : Fmt) (d a b : VReg) (s : State), HasOp (.vabsdiff fmt d a b) 0x05#6 ∧
    ∃ t, exec (.vabsdiff fmt d a b) s = .next t ∧ OnlyVregAndDraws fmt d s t ∧
      ∀ i, i < fmt.lanes →
        let x := lane fmt (s.vreg a) i
        let y := lane fmt (s.vreg b) i
        (fmt ≠ .f32 → (lane fmt (t.vreg d) i).toNat = ((x.toNat : Int) - y.toNat).natAbs) ∧
        (fmt = .f32 → ∃ nan, f32IsNaN nan = true ∧ lane fmt (t.vreg d) i = f32Sub nan x y &&& 0x7FFFFFFF#32)

/-- R129. -/
def Obligations.VseleqSelectsOnEqualLanes : Prop :=
  ∀ (fmt : Fmt) (d a b c f : VReg) (s : State), HasOp (.vseleq fmt d a b c f) 0x06#6 ∧
    ∃ t, exec (.vseleq fmt d a b c f) s = .next t ∧ OnlyVreg d s t ∧
      ∀ i, i < fmt.lanes →
        let x := lane fmt (s.vreg a) i
        let y := lane fmt (s.vreg b) i
        lane fmt (t.vreg d) i =
          if (if fmt = .f32 then f32Eq x y else decide (x = y)) then lane fmt (s.vreg c) i else lane fmt (s.vreg f) i

/-- R130. -/
def Obligations.VblendSelectsByTopMaskBit : Prop :=
  ∀ (fmt : Fmt) (d a b c : VReg) (s : State), HasOp (.vblend fmt d a b c) 0x07#6 ∧
    ∃ t, exec (.vblend fmt d a b c) s = .next t ∧ OnlyVreg d s t ∧
      ∀ i, i < fmt.lanes →
        lane fmt (t.vreg d) i =
          if (lane fmt (s.vreg a) i).getLsbD (8 * fmt.ps - 1) then lane fmt (s.vreg b) i else lane fmt (s.vreg c) i

/-- R121, R76: a vector load reads 16 bytes at any address of memory, a scalar load one sample at the clamped
position into lane 0, the other lanes being 0; an address outside memory faults. -/
def Obligations.VloaduLoadsSamples : Prop :=
  ∀ (fmt : Fmt) (d : VReg) (nb : Nbi) (s : State),
    let x := (s.cursor.x : Int) + nb.offset.1
    let y := (s.cursor.y : Int) + nb.offset.2
    let cx := min (max x 0) (s.latch.width.toInt - 1)
    let cy := min (max y 0) (s.latch.height.toInt - 1)
    let a := (s.latch.srcBase.toNat : Int) + y * s.latch.srcStride.toInt + x * fmt.ps
    let b := (s.latch.srcBase.toNat : Int) + cy * s.latch.srcStride.toInt + cx * fmt.ps
    HasOp (.vloadu fmt d nb false) 0x08#6 ∧ HasOp (.vloadu fmt d nb true) 0x08#6 ∧
    (0 ≤ a ∧ a + 16 ≤ 2 ^ 64 → ∃ t, exec (.vloadu fmt d nb false) s = .next t ∧ OnlyVreg d s t ∧
      ∀ i, i < fmt.lanes → lane fmt (t.vreg d) i = loadSample fmt s.mem (a.toNat + i * fmt.ps)) ∧
    (¬(0 ≤ a ∧ a + 16 ≤ 2 ^ 64) → exec (.vloadu fmt d nb false) s = .fault .addrRange) ∧
    (0 ≤ b ∧ b + fmt.ps ≤ 2 ^ 64 → ∃ t, exec (.vloadu fmt d nb true) s = .next t ∧ OnlyVreg d s t ∧
      ∀ i, i < fmt.lanes → lane fmt (t.vreg d) i = if i = 0 then loadSample fmt s.mem b.toNat else 0) ∧
    (¬(0 ≤ b ∧ b + fmt.ps ≤ 2 ^ 64) → exec (.vloadu fmt d nb true) s = .fault .addrRange)

/-- R122: as a vector load at a multiple of 16; at any other address the fault ALIGN_HINT; at a multiple of 16 outside
memory the fault ADDR_RANGE (R137, by inference for vloada: log 23). -/
def Obligations.VloadaLoadsAlignedVectors : Prop :=
  ∀ (fmt : Fmt) (d : VReg) (nb : Nbi) (s : State),
    let x := (s.cursor.x : Int) + nb.offset.1
    let y := (s.cursor.y : Int) + nb.offset.2
    let a := (s.latch.srcBase.toNat : Int) + y * s.latch.srcStride.toInt + x * fmt.ps
    HasOp (.vloada fmt d nb) 0x09#6 ∧
    (a % 16 ≠ 0 → exec (.vloada fmt d nb) s = .fault .alignHint) ∧
    (a % 16 = 0 → 0 ≤ a ∧ a + 16 ≤ 2 ^ 64 → ∃ t, exec (.vloada fmt d nb) s = .next t ∧ OnlyVreg d s t ∧
      exec (.vloadu fmt d nb false) s = .next t ∧
      ∀ i, i < fmt.lanes → lane fmt (t.vreg d) i = loadSample fmt s.mem (a.toNat + i * fmt.ps)) ∧
    (a % 16 = 0 → ¬(0 ≤ a ∧ a + 16 ≤ 2 ^ 64) → exec (.vloada fmt d nb) s = .fault .addrRange)

/-- R123, R76: a store writes at DA(x, y) the 16 bytes of the register, or the bytes of lane 0 alone, and no other
byte; an address outside memory faults. -/
def Obligations.VstoreuStoresSamples : Prop :=
  ∀ (fmt : Fmt) (r : VReg) (sc : Bool) (s : State),
    let a := (s.latch.dstBase.toNat : Int) + s.cursor.y * s.latch.dstStride.toInt + s.cursor.x * fmt.ps
    let n := if sc then fmt.ps else 16
    HasOp (.vstoreu fmt r sc) 0x0A#6 ∧
    (0 ≤ a ∧ a + n ≤ 2 ^ 64 → ∃ t, exec (.vstoreu fmt r sc) s = .next t ∧ t = { s with mem := t.mem } ∧
      (∀ k, k < n → t.mem.read (a.toNat + k) = (s.vreg r).extractLsb' (8 * k) 8) ∧
      ∀ b : Nat, b < a.toNat ∨ a.toNat + n ≤ b → t.mem.read b = s.mem.read b) ∧
    (¬(0 ≤ a ∧ a + n ≤ 2 ^ 64) → exec (.vstoreu fmt r sc) s = .fault .addrRange)

/-- R173. -/
def Obligations.KmedavgAveragesLanes : Prop :=
  ∀ (fmt : Fmt) (d a b : VReg) (s : State), HasOp (.kmedavg fmt d a b) 0x10#6 ∧
    ∃ t, exec (.kmedavg fmt d a b) s = .next t ∧ OnlyVregAndDraws fmt d s t ∧
      ∀ i, i < fmt.lanes →
        let x := lane fmt (s.vreg a) i
        let y := lane fmt (s.vreg b) i
        (fmt ≠ .f32 → (lane fmt (t.vreg d) i).toNat = min ((x.toNat + y.toNat + 1) / 2) (2 ^ fmt.bits - 1)) ∧
        (fmt = .f32 → ∃ nan, NaNChoice nan ∧
          lane fmt (t.vreg d) i = f32Mul (nan 1) (f32Add (nan 0) x y) 0x3F000000#32)

/-- R174, with the formula of R170. -/
def Obligations.Kmean8AveragesNeighbours : Prop :=
  ∀ (fmt : Fmt) (d : VReg) (s : State), HasOp (.kmean8 fmt d) 0x11#6 ∧
    ∃ t, exec (.kmean8 fmt d) s = .next t ∧ OnlyVregAndDraws fmt d s t ∧
      ∀ i, i < fmt.lanes →
        let a := fun n : VReg => lane fmt (s.vreg n) i
        (fmt ≠ .f32 → (lane fmt (t.vreg d) i).toNat =
          min (((a 1).toNat + (a 2).toNat + (a 3).toNat + (a 4).toNat + (a 5).toNat + (a 6).toNat + (a 7).toNat +
            (a 8).toNat + 4) / 8) (2 ^ fmt.bits - 1)) ∧
        (fmt = .f32 → ∃ nan, NaNChoice nan ∧ lane fmt (t.vreg d) i =
          f32Mul (nan 7)
            (f32Add (nan 6) (f32Add (nan 4) (f32Add (nan 0) (a 1) (a 2)) (f32Add (nan 1) (a 3) (a 4)))
              (f32Add (nan 5) (f32Add (nan 2) (a 5) (a 6)) (f32Add (nan 3) (a 7) (a 8))))
            0x3E000000#32)

/-- R175, with the formula of R171. -/
def Obligations.Kmean9AveragesNeighbourhood : Prop :=
  ∀ (fmt : Fmt) (d : VReg) (s : State), HasOp (.kmean9 fmt d) 0x12#6 ∧
    ∃ t, exec (.kmean9 fmt d) s = .next t ∧ OnlyVregAndDraws fmt d s t ∧
      ∀ i, i < fmt.lanes →
        let a := fun n : VReg => lane fmt (s.vreg n) i
        (fmt ≠ .f32 → (lane fmt (t.vreg d) i).toNat =
          min (((a 0).toNat + (a 1).toNat + (a 2).toNat + (a 3).toNat + (a 4).toNat + (a 5).toNat + (a 6).toNat +
            (a 7).toNat + (a 8).toNat + 4) / 9) (2 ^ fmt.bits - 1)) ∧
        (fmt = .f32 → ∃ nan, NaNChoice nan ∧ lane fmt (t.vreg d) i =
          f32Div (nan 8)
            (f32Add (nan 7)
              (f32Add (nan 6) (f32Add (nan 4) (f32Add (nan 0) (a 1) (a 2)) (f32Add (nan 1) (a 3) (a 4)))
                (f32Add (nan 5) (f32Add (nan 2) (a 5) (a 6)) (f32Add (nan 3) (a 7) (a 8))))
              (a 0))
            0x41100000#32)

/-! ### Invariants -/

/-- The invariant holds at reset. -/
def Obligations.InvariantHoldsAtReset : Prop := Inv State.reset

/-- Every step keeps the invariant: memory stays canonical and inside its space, an idle engine holds no descriptor,
a busy one holds a checked descriptor with its cursor in the grid (R41, R42), and the host's CMD write is held back
exactly while its launch runs (R28). -/
def Obligations.EveryStepKeepsTheInvariant : Prop := ∀ s t : State, Inv s → step s = .next t → Inv t

/-- No step changes the unit's parameters (R10). -/
def Obligations.ParametersNeverChange : Prop := ∀ s t : State, step s = .next t → t.params = s.params

/-! ### F32 arithmetic on special operands (R17) -/

/-- f32_add, f32_sub, f32_mul and f32_div where an operand is a NaN or an infinity, or the divisor is a zero: the drawn
NaN, an infinity or a zero. Which of them is the standard's (PRESUMED: log 18). -/
def Obligations.F32SpecialOperands : Prop :=
  ∀ nan a b : Sample,
    let signed := fun (magnitude : Sample) =>
      if f32Sign a = f32Sign b then magnitude else magnitude ||| 0x80000000#32
    (f32IsNaN a = true ∨ f32IsNaN b = true →
      f32Add nan a b = nan ∧ f32Sub nan a b = nan ∧ f32Mul nan a b = nan ∧ f32Div nan a b = nan) ∧
    (f32IsInf a = true → f32IsInf b = true →
      f32Add nan a b = (if f32Sign a = f32Sign b then a else nan) ∧
        f32Sub nan a b = (if f32Sign a = f32Sign b then nan else a) ∧
        f32Mul nan a b = signed 0x7F800000#32 ∧ f32Div nan a b = nan) ∧
    (f32IsInf a = true → f32Exp b ≠ 255 →
      f32Add nan a b = a ∧ f32Sub nan a b = a ∧
        f32Mul nan a b = (if f32Units b = 0 then nan else signed 0x7F800000#32) ∧
        f32Div nan a b = signed 0x7F800000#32) ∧
    (f32Exp a ≠ 255 → f32IsInf b = true →
      f32Add nan a b = b ∧ f32Sub nan a b = b ^^^ 0x80000000#32 ∧
        f32Mul nan a b = (if f32Units a = 0 then nan else signed 0x7F800000#32) ∧
        f32Div nan a b = signed 0#32) ∧
    (f32Exp a ≠ 255 → f32Exp b ≠ 255 → f32Units b = 0 →
      f32Div nan a b = if f32Units a = 0 then nan else signed 0x7F800000#32)
end

