-- ==== Sys2Proof/Laws/Memory.lean ====
section
/-! SUPPORT. What the memory operations do: reads after writes, and that every operation keeps the canonical form. -/

namespace Sys2Proof.Machine

/-! ### One byte -/

theorem Memory.read_erase (m : Memory) (a b : Nat) :
    (m.erase a).read b = if b = a then Memory.unlisted else m.read b := by
  induction m with
  | nil => simp [Memory.erase, Memory.read]
  | cons c rest ih =>
    have ih' : Memory.read (List.filter (fun c => decide (c.1 ≠ a)) rest) b
        = if b = a then Memory.unlisted else Memory.read rest b := ih
    by_cases hca : c.1 = a
    · have : Memory.erase (c :: rest) a = List.filter (fun c => decide (c.1 ≠ a)) rest := by
        simp [Memory.erase, hca]
      rw [this, ih']
      by_cases hb : b = a
      · simp [hb]
      · have : ¬ c.1 = b := by omega
        simp [hb, Memory.read, this]
    · have : Memory.erase (c :: rest) a = c :: List.filter (fun c => decide (c.1 ≠ a)) rest := by
        simp [Memory.erase, hca]
      rw [this]
      by_cases hcb : c.1 = b
      · have : ¬ b = a := by omega
        simp [Memory.read, hcb, this]
      · simp only [Memory.read, hcb, if_false]
        rw [ih']

theorem Memory.read_insert (m : Memory) (a b : Nat) (x : Byte) (h : ∀ c ∈ m, c.1 ≠ a) :
    (m.insert (a, x)).read b = if b = a then x else m.read b := by
  induction m with
  | nil =>
    by_cases hb : b = a
    · simp [Memory.insert, Memory.read, hb]
    · have : ¬ a = b := by omega
      simp [Memory.insert, Memory.read, hb, this]
  | cons c rest ih =>
    have hc : c.1 ≠ a := h c (by simp)
    have hr : ∀ d ∈ rest, d.1 ≠ a := fun d hd => h d (by simp [hd])
    unfold Memory.insert
    split
    · by_cases hb : b = a
      · simp [Memory.read, hb]
      · have : ¬ a = b := by omega
        simp [Memory.read, hb, this]
    · by_cases hcb : c.1 = b
      · have : ¬ b = a := by omega
        simp [Memory.read, hcb, this]
      · simp only [Memory.read, hcb, if_false]
        exact ih hr

/-- A byte read after a write: the byte written at its address, the byte before anywhere else. -/
theorem Memory.read_write (m : Memory) (a b : Nat) (x : Byte) :
    (m.write a x).read b = if b = a then x else m.read b := by
  unfold Memory.write
  split
  · rename_i h
    rw [Memory.read_erase, h]
  · rw [Memory.read_insert]
    · by_cases hb : b = a
      · simp [hb]
      · simp [hb, Memory.read_erase]
    · intro c hc
      simp [Memory.erase] at hc
      exact hc.2

/-! ### Words -/

/-- MemWrite stores byte k at a + k and leaves every other byte (R14). -/
theorem Memory.read_writeBytes (n : Nat) (m : Memory) (a b : Nat) (v : Vec) :
    (m.writeBytes a n v).read b
      = if a ≤ b ∧ b < a + n then (v >>> (8 * (b - a))).setWidth 8 else m.read b := by
  induction n generalizing m a v with
  | zero =>
    simp [Memory.writeBytes]
  | succ n ih =>
    rw [Memory.writeBytes, ih, Memory.read_write]
    by_cases hb : b = a
    · subst hb
      simp
    · by_cases h : a + 1 ≤ b ∧ b < a + 1 + n
      · have h2 : a ≤ b ∧ b < a + (n + 1) := by omega
        rw [if_pos h, if_pos h2, ← BitVec.shiftRight_add]
        congr 2
        omega
      · have h2 : ¬ (a ≤ b ∧ b < a + (n + 1)) := by omega
        rw [if_neg h, if_neg h2, if_neg hb]

/-- Bit j of MemRead(a, n) is bit j % 8 of the byte at a + j / 8 (R14). -/
theorem Memory.getLsbD_readBytes (n : Nat) (m : Memory) (a j : Nat) (hj : j < 128) :
    (m.readBytes a n).getLsbD j = (decide (j < 8 * n) && (m.read (a + j / 8)).getLsbD (j % 8)) := by
  induction n generalizing a j with
  | zero => simp [Memory.readBytes]
  | succ n ih =>
    rw [Memory.readBytes, BitVec.getLsbD_or, BitVec.getLsbD_shiftLeft, BitVec.getLsbD_setWidth]
    by_cases h8 : j < 8
    · have e1 : j / 8 = 0 := by omega
      have e2 : j % 8 = j := by omega
      have e3 : j < 8 * (n + 1) := by omega
      simp [h8, e1, e2, e3, hj]
    · have e1 : a + 1 + (j - 8) / 8 = a + j / 8 := by omega
      have e2 : (j - 8) % 8 = j % 8 := by omega
      have e3 : (j - 8 < 8 * n) ↔ (j < 8 * (n + 1)) := by omega
      have e4 : (m.read a).getLsbD j = false := BitVec.getLsbD_of_ge _ _ (by omega)
      rw [ih (a + 1) (j - 8) (by omega), e1, e2, e4]
      simp [h8, hj, e3]

/-- MemRead depends only on the bytes it reads. -/
theorem Memory.readBytes_congr (n : Nat) (m m' : Memory) (a : Nat)
    (h : ∀ k, k < n → m.read (a + k) = m'.read (a + k)) : m.readBytes a n = m'.readBytes a n := by
  induction n generalizing a with
  | zero => rfl
  | succ n ih =>
    rw [Memory.readBytes, Memory.readBytes, ih (a + 1)]
    · have := h 0 (by omega)
      rw [Nat.add_zero] at this
      rw [this]
    · intro k hk
      have := h (k + 1) (by omega)
      rwa [show a + 1 + k = a + (k + 1) by omega]

/-! ### The canonical form -/

theorem Memory.wf_iff (m : Memory) :
    m.wf = true ↔ (m.Pairwise fun c d => c.1 < d.1) ∧ ∀ c ∈ m, c.2 ≠ Memory.unlisted := by
  simp [Memory.wf]

theorem Memory.mem_insert (m : Memory) (x c : Host.Cell) : c ∈ m.insert x ↔ c = x ∨ c ∈ m := by
  induction m with
  | nil => simp [Memory.insert]
  | cons d rest ih =>
    unfold Memory.insert
    split
    · simp
    · simp [ih]; tauto

theorem Memory.insert_pairwise (m : Memory) (x : Host.Cell) (hm : m.Pairwise fun c d => c.1 < d.1)
    (hx : ∀ c ∈ m, c.1 ≠ x.1) : (m.insert x).Pairwise fun c d => c.1 < d.1 := by
  induction m with
  | nil => simp [Memory.insert]
  | cons d rest ih =>
    have hd := List.pairwise_cons.mp hm
    have hdx : d.1 ≠ x.1 := hx d (by simp)
    unfold Memory.insert
    split
    · rename_i hlt
      refine List.pairwise_cons.mpr ⟨fun c hc => ?_, hm⟩
      rcases List.mem_cons.mp hc with rfl | hc
      · exact hlt
      · exact Nat.lt_trans hlt (hd.1 c hc)
    · refine List.pairwise_cons.mpr ⟨fun c hc => ?_, ih hd.2 fun c hc => hx c (by simp [hc])⟩
      rcases (Memory.mem_insert rest x c).mp hc with rfl | hc
      · omega
      · exact hd.1 c hc

/-- A write keeps the canonical form. -/
theorem Memory.write_wf (m : Memory) (a : Nat) (x : Byte) (h : m.wf = true) : (m.write a x).wf = true := by
  obtain ⟨hp, hv⟩ := (Memory.wf_iff m).mp h
  have he : (m.erase a).Pairwise fun c d => c.1 < d.1 := hp.filter _
  have hm : ∀ c, c ∈ m.erase a → c ∈ m ∧ c.1 ≠ a := fun c hc => by simpa [Memory.erase] using hc
  rw [Memory.wf_iff]
  unfold Memory.write
  split
  · exact ⟨he, fun c hc => hv c (hm c hc).1⟩
  · rename_i hx
    refine ⟨Memory.insert_pairwise _ _ he fun c hc => (hm c hc).2, fun c hc => ?_⟩
    rcases (Memory.mem_insert _ _ c).mp hc with rfl | hc
    · exact hx
    · exact hv c (hm c hc).1

/-- A write lists no address but its own and those listed before. -/
theorem Memory.mem_write (m : Memory) (a : Nat) (x : Byte) (c : Host.Cell) (h : c ∈ m.write a x) :
    c ∈ m ∨ c.1 = a := by
  unfold Memory.write at h
  split at h
  · left; simp [Memory.erase] at h; exact h.1
  · rcases (Memory.mem_insert _ _ c).mp h with rfl | h
    · exact .inr rfl
    · left; simp [Memory.erase] at h; exact h.1

/-- A word written keeps the canonical form. -/
theorem Memory.writeBytes_wf (n : Nat) (m : Memory) (a : Nat) (v : Vec) (h : m.wf = true) :
    (m.writeBytes a n v).wf = true := by
  induction n generalizing m a v with
  | zero => exact h
  | succ n ih => exact ih _ _ _ (Memory.write_wf m a _ h)

/-- A word written lists no address but its own bytes' and those listed before. -/
theorem Memory.mem_writeBytes (n : Nat) (m : Memory) (a : Nat) (v : Vec) (c : Host.Cell)
    (h : c ∈ m.writeBytes a n v) : c ∈ m ∨ (a ≤ c.1 ∧ c.1 < a + n) := by
  induction n generalizing m a v with
  | zero => exact .inl h
  | succ n ih =>
    rcases ih _ _ _ h with h | h
    · rcases Memory.mem_write m a _ c h with h | h
      · exact .inl h
      · exact .inr (by omega)
    · exact .inr (by omega)

/-- Two canonical memories that read alike everywhere are equal. -/
theorem Memory.ext_of_read (m m' : Memory) (h : m.wf = true) (h' : m'.wf = true)
    (hr : ∀ a, m.read a = m'.read a) : m = m' := by
  have key : ∀ (m : Memory), m.wf = true → ∀ c : Host.Cell, c ∈ m ↔ (m.read c.1 = c.2 ∧ c.2 ≠ Memory.unlisted) := by
    intro m
    induction m with
    | nil => intro _ c; simp [Memory.read]; intro h; exact h.symm
    | cons d rest ih =>
      intro hw c
      obtain ⟨hp, hv⟩ := (Memory.wf_iff _).mp hw
      have hd := List.pairwise_cons.mp hp
      have hrest : Memory.wf rest = true := (Memory.wf_iff _).mpr ⟨hd.2, fun c hc => hv c (by simp [hc])⟩
      have ih := ih hrest c
      by_cases hdc : d.1 = c.1
      · simp only [Memory.read, hdc, if_true, List.mem_cons]
        constructor
        · rintro (rfl | hc)
          · exact ⟨rfl, hv _ (by simp)⟩
          · have := hd.1 c hc; omega
        · rintro ⟨he, _⟩
          left
          exact Prod.ext hdc.symm he.symm
      · simp only [Memory.read, hdc, if_false, List.mem_cons]
        rw [← ih]
        constructor
        · rintro (rfl | hc)
          · exact absurd rfl hdc
          · exact hc
        · exact .inr
  obtain ⟨hp, _⟩ := (Memory.wf_iff m).mp h
  obtain ⟨hp', _⟩ := (Memory.wf_iff m').mp h'
  refine List.Perm.eq_of_pairwise (le := fun c d => c.1 < d.1) ?_ hp hp' ?_
  · intro a b _ _ hab hba; omega
  · refine (List.perm_ext_iff_of_nodup ?_ ?_).mpr fun c => by rw [key m h, key m' h', hr]
    · exact hp.imp fun h e => by subst e; omega
    · exact hp'.imp fun h e => by subst e; omega

end Sys2Proof.Machine
end

