-- ==== Sys2Proof/Laws/Lanes.lean ====
section
/-! SUPPORT. What lanes, packing and vector memory accesses do (R14, R18, R66). -/

namespace Sys2Proof.Machine

theorem Fmt.bits_pos (fmt : Fmt) : 0 < fmt.bits := by cases fmt <;> decide

theorem Fmt.bits_le (fmt : Fmt) : fmt.bits ≤ 32 := by cases fmt <;> decide

theorem Fmt.ps_pos (fmt : Fmt) : 0 < fmt.ps := by cases fmt <;> decide

theorem Fmt.lanes_pos (fmt : Fmt) : 0 < fmt.lanes := by cases fmt <;> decide

theorem Fmt.lanes_mul_bits (fmt : Fmt) : fmt.lanes * fmt.bits = 128 := by cases fmt <;> decide

theorem Fmt.lanes_mul_ps (fmt : Fmt) : fmt.lanes * fmt.ps = 16 := by cases fmt <;> decide

/-! ### Bits of a lane -/

theorem getLsbD_lane (fmt : Fmt) (x : Vec) (i j : Nat) :
    (lane fmt x i).getLsbD j = (decide (j < fmt.bits) && x.getLsbD (fmt.bits * i + j)) := by
  have := Fmt.bits_le fmt
  by_cases h : j < fmt.bits
  · have h32 : j < 32 := by omega
    simp [lane, h, h32]
  · simp [lane, BitVec.getLsbD_setWidth, h]

theorem getLsbD_narrow (fmt : Fmt) (x : Sample) (j : Nat) :
    (narrow fmt x).getLsbD j = (decide (j < fmt.bits) && x.getLsbD j) := by
  have := Fmt.bits_le fmt
  by_cases h : j < fmt.bits
  · have h32 : j < 32 := by omega
    simp [narrow, h, h32]
  · simp [narrow, BitVec.getLsbD_setWidth, h]

/-- A sample that fits its format is its own narrowing. -/
theorem narrow_of_lt (fmt : Fmt) (x : Sample) (h : x.toNat < 2 ^ fmt.bits) : narrow fmt x = x := by
  apply BitVec.eq_of_toNat_eq
  have h32 : x.toNat < 2 ^ 32 := x.isLt
  simp only [narrow, BitVec.toNat_setWidth]
  rw [Nat.mod_eq_of_lt h, Nat.mod_eq_of_lt h32]

theorem narrow_toNat_lt (fmt : Fmt) (x : Sample) : (narrow fmt x).toNat < 2 ^ fmt.bits := by
  simp only [narrow, BitVec.toNat_setWidth]
  exact Nat.lt_of_le_of_lt (Nat.mod_le _ _) (Nat.mod_lt _ (by positivity))

theorem lane_toNat_lt (fmt : Fmt) (x : Vec) (i : Nat) : (lane fmt x i).toNat < 2 ^ fmt.bits := by
  simp only [lane, BitVec.toNat_setWidth]
  exact Nat.lt_of_le_of_lt (Nat.mod_le _ _) (BitVec.isLt _)

/-- A lane fits its format. -/
theorem narrow_lane (fmt : Fmt) (x : Vec) (i : Nat) : narrow fmt (lane fmt x i) = lane fmt x i :=
  narrow_of_lt fmt _ (lane_toNat_lt fmt x i)

/-- Every F32 sample is its own narrowing. -/
theorem narrow_f32 (x : Sample) : narrow .f32 x = x := narrow_of_lt .f32 x x.isLt

/-! ### Packing -/

theorem getLsbD_packList (fmt : Fmt) (xs : List Sample) (j : Nat) (hj : j < 128) :
    (packList fmt xs).getLsbD j = ((xs[j / fmt.bits]?).getD 0).getLsbD (j % fmt.bits) := by
  have hb := Fmt.bits_pos fmt
  induction xs generalizing j with
  | nil => simp [packList]
  | cons x xs ih =>
    rw [packList, BitVec.getLsbD_or, BitVec.getLsbD_shiftLeft, BitVec.getLsbD_setWidth, getLsbD_narrow]
    by_cases h : j < fmt.bits
    · have e1 : j / fmt.bits = 0 := Nat.div_eq_of_lt h
      have e2 : j % fmt.bits = j := Nat.mod_eq_of_lt h
      simp [h, e1, e2, hj]
    · have hge : fmt.bits ≤ j := by omega
      have e1 : j / fmt.bits = (j - fmt.bits) / fmt.bits + 1 := by
        rw [Nat.div_eq_sub_div hb hge]
      have e2 : j % fmt.bits = (j - fmt.bits) % fmt.bits := by
        rw [Nat.mod_eq_sub_mod hge]
      rw [ih (j - fmt.bits) (by omega), e1, e2]
      simp [h, hj]

/-- Lane i of a packed vector is the i-th sample, narrowed to the format. -/
theorem lane_packLanes (fmt : Fmt) (f : Nat → Sample) (i : Nat) (hi : i < fmt.lanes) :
    lane fmt (packLanes fmt f) i = narrow fmt (f i) := by
  have hb := Fmt.bits_pos fmt
  have hl := Fmt.lanes_mul_bits fmt
  apply BitVec.eq_of_getLsbD_eq
  intro j _
  rw [getLsbD_lane, getLsbD_narrow]
  by_cases h : j < fmt.bits
  · have hlt : fmt.bits * i + j < 128 := by
      have : fmt.bits * i + fmt.bits ≤ fmt.lanes * fmt.bits := by
        rw [Nat.mul_comm fmt.lanes]; exact Nat.mul_le_mul_left _ hi
      omega
    have e1 : (fmt.bits * i + j) / fmt.bits = i := by
      rw [Nat.mul_add_div hb, Nat.div_eq_of_lt h, Nat.add_zero]
    have e2 : (fmt.bits * i + j) % fmt.bits = j := by
      rw [Nat.mul_add_mod, Nat.mod_eq_of_lt h]
    rw [packLanes, getLsbD_packList _ _ _ hlt, e1, e2]
    simp [h, hi]
  · simp [h]

/-- Lane i of a packed vector whose samples fit the format. -/
theorem lane_packLanes_of_lt (fmt : Fmt) (f : Nat → Sample) (i : Nat) (hi : i < fmt.lanes)
    (h : (f i).toNat < 2 ^ fmt.bits) : lane fmt (packLanes fmt f) i = f i := by
  rw [lane_packLanes fmt f i hi, narrow_of_lt fmt _ h]

/-- Two vectors with the same lanes are equal. -/
theorem vec_ext_lanes (fmt : Fmt) (x y : Vec) (h : ∀ i, i < fmt.lanes → lane fmt x i = lane fmt y i) : x = y := by
  have hb := Fmt.bits_pos fmt
  have hl := Fmt.lanes_mul_bits fmt
  apply BitVec.eq_of_getLsbD_eq
  intro j hj
  have hi : j / fmt.bits < fmt.lanes := by
    rw [Nat.div_lt_iff_lt_mul hb]; omega
  have hm : j % fmt.bits < fmt.bits := Nat.mod_lt _ hb
  have := congrArg (fun z => z.getLsbD (j % fmt.bits)) (h _ hi)
  simp only [getLsbD_lane, hm, decide_true, Bool.true_and] at this
  rwa [Nat.div_add_mod] at this

/-! ### Memory and lanes -/

/-- A sample loaded, bit by bit. -/
theorem getLsbD_loadSample (fmt : Fmt) (m : Memory) (a j : Nat) :
    (loadSample fmt m a).getLsbD j = (decide (j < fmt.bits) && (m.read (a + j / 8)).getLsbD (j % 8)) := by
  have hb := Fmt.bits_le fmt
  rw [loadSample, BitVec.getLsbD_setWidth]
  by_cases h : j < 32
  · rw [Memory.getLsbD_readBytes _ _ _ _ (by omega)]
    simp only [h, decide_true, Bool.true_and]
    rfl
  · have : ¬ j < fmt.bits := by omega
    simp [h, this]

theorem loadSample_toNat_lt (fmt : Fmt) (m : Memory) (a : Nat) : (loadSample fmt m a).toNat < 2 ^ fmt.bits := by
  have hb := Fmt.bits_le fmt
  have : narrow fmt (loadSample fmt m a) = loadSample fmt m a := by
    apply BitVec.eq_of_getLsbD_eq
    intro j _
    rw [getLsbD_narrow, getLsbD_loadSample]
    by_cases h : j < fmt.bits <;> simp [h]
  rw [← this]
  exact narrow_toNat_lt fmt _

/-- Lane i of a vector read at a is the sample at a + i * ps (R66). -/
theorem lane_readBytes_vector (fmt : Fmt) (m : Memory) (a i : Nat) (hi : i < fmt.lanes) :
    lane fmt (m.readBytes a vecBytes) i = loadSample fmt m (a + i * fmt.ps) := by
  apply BitVec.eq_of_getLsbD_eq
  intro j _
  rw [getLsbD_lane, getLsbD_loadSample]
  by_cases h : j < fmt.bits
  · have hlt : fmt.bits * i + j < 128 := by
      have hl := Fmt.lanes_mul_bits fmt
      have : fmt.bits * i + fmt.bits ≤ fmt.lanes * fmt.bits := by
        rw [Nat.mul_comm fmt.lanes]; exact Nat.mul_le_mul_left _ hi
      omega
    rw [Memory.getLsbD_readBytes _ _ _ _ hlt]
    have e1 : a + (fmt.bits * i + j) / 8 = a + i * fmt.ps + j / 8 := by
      have : fmt.bits * i + j = 8 * (i * fmt.ps) + j := by rw [Fmt.bits, Nat.mul_assoc, Nat.mul_comm fmt.ps]
      rw [this]; omega
    have e2 : (fmt.bits * i + j) % 8 = j % 8 := by
      have : fmt.bits * i + j = 8 * (i * fmt.ps) + j := by rw [Fmt.bits, Nat.mul_assoc, Nat.mul_comm fmt.ps]
      rw [this]; omega
    have e3 : fmt.bits * i + j < 8 * vecBytes := by simpa [vecBytes] using hlt
    simp [h, e1, e2, e3]
  · simp [h]

/-- A scalar load fills lane 0 with the sample and the others with 0 (R121). -/
theorem lane_readBytes_scalar (fmt : Fmt) (m : Memory) (a i : Nat) (hi : i < fmt.lanes) :
    lane fmt (m.readBytes a fmt.ps) i = if i = 0 then loadSample fmt m a else 0 := by
  have hb := Fmt.bits_pos fmt
  apply BitVec.eq_of_getLsbD_eq
  intro j _
  rw [getLsbD_lane]
  by_cases h : j < fmt.bits
  · have hlt : fmt.bits * i + j < 128 := by
      have hl := Fmt.lanes_mul_bits fmt
      have : fmt.bits * i + fmt.bits ≤ fmt.lanes * fmt.bits := by
        rw [Nat.mul_comm fmt.lanes]; exact Nat.mul_le_mul_left _ hi
      omega
    rw [Memory.getLsbD_readBytes _ _ _ _ hlt]
    by_cases h0 : i = 0
    · subst h0
      rw [if_pos rfl, getLsbD_loadSample]
      have : j < 8 * fmt.ps := h
      simp [h, this]
    · have : fmt.bits ≤ fmt.bits * i := Nat.le_mul_of_pos_right _ (by omega)
      have : ¬ fmt.bits * i + j < 8 * fmt.ps := by
        have : fmt.bits = 8 * fmt.ps := rfl
        omega
      simp [h0, this]
  · by_cases h0 : i = 0
    · simp [h, h0, getLsbD_loadSample]
    · simp [h, h0]

/-- A sample read from within a word just written is the word's lane (R14, R66). -/
theorem loadSample_writeBytes_lane (fmt : Fmt) (m : Memory) (a n i : Nat) (v : Vec)
    (h : (i + 1) * fmt.ps ≤ n) (hn : n ≤ 16) :
    loadSample fmt (m.writeBytes a n v) (a + i * fmt.ps) = lane fmt v i := by
  apply BitVec.eq_of_getLsbD_eq
  intro j _
  rw [getLsbD_loadSample, getLsbD_lane]
  by_cases hj : j < fmt.bits
  · have hb : fmt.bits = 8 * fmt.ps := rfl
    have hm : (i + 1) * fmt.ps = i * fmt.ps + fmt.ps := by ring
    have hin : a ≤ a + i * fmt.ps + j / 8 ∧ a + i * fmt.ps + j / 8 < a + n := by omega
    have e : fmt.bits * i = 8 * (i * fmt.ps) := by rw [hb]; ring
    rw [Memory.read_writeBytes, if_pos hin, BitVec.getLsbD_setWidth, BitVec.getLsbD_ushiftRight]
    have e2 : 8 * (a + i * fmt.ps + j / 8 - a) + j % 8 = fmt.bits * i + j := by omega
    have e3 : j % 8 < 8 := Nat.mod_lt _ (by decide)
    simp [hj, e2, e3]
  · simp [hj]

/-- A sample that shares no byte with a word written is as before. -/
theorem loadSample_writeBytes_outside (fmt : Fmt) (m : Memory) (a n b : Nat) (v : Vec)
    (h : b + fmt.ps ≤ a ∨ a + n ≤ b) : loadSample fmt (m.writeBytes a n v) b = loadSample fmt m b := by
  unfold loadSample
  rw [Memory.readBytes_congr]
  intro k hk
  rw [Memory.read_writeBytes, if_neg (by omega)]

end Sys2Proof.Machine
end

