-- ==== Sys2Proof/Laws/State.lean ====
section
/-! SUPPORT. One lemma per field per update of State: what each update leaves as it was, and what it sets. -/

namespace Sys2Proof.Machine

/-! ### setVreg -/

@[simp] theorem setVreg_params (s : State) (r : VReg) (x : Vec) : (s.setVreg r x).params = s.params := rfl
@[simp] theorem setVreg_regs (s : State) (r : VReg) (x : Vec) : (s.setVreg r x).regs = s.regs := rfl
@[simp] theorem setVreg_result (s : State) (r : VReg) (x : Vec) : (s.setVreg r x).result = s.result := rfl
@[simp] theorem setVreg_phase (s : State) (r : VReg) (x : Vec) : (s.setVreg r x).phase = s.phase := rfl
@[simp] theorem setVreg_latch (s : State) (r : VReg) (x : Vec) : (s.setVreg r x).latch = s.latch := rfl
@[simp] theorem setVreg_cursor (s : State) (r : VReg) (x : Vec) : (s.setVreg r x).cursor = s.cursor := rfl
@[simp] theorem setVreg_mem (s : State) (r : VReg) (x : Vec) : (s.setVreg r x).mem = s.mem := rfl
@[simp] theorem setVreg_draws (s : State) (r : VReg) (x : Vec) : (s.setVreg r x).draws = s.draws := rfl
@[simp] theorem setVreg_uopWord (s : State) (r : VReg) (x : Vec) : (s.setVreg r x).uopWord = s.uopWord := rfl
@[simp] theorem setVreg_host (s : State) (r : VReg) (x : Vec) : (s.setVreg r x).host = s.host := rfl
@[simp] theorem setVreg_others (s : State) (r : VReg) (x : Vec) : (s.setVreg r x).others = s.others := rfl
@[simp] theorem setVreg_issuer (s : State) (r : VReg) (x : Vec) : (s.setVreg r x).issuer = s.issuer := rfl
@[simp] theorem setVreg_hostResponse (s : State) (r : VReg) (x : Vec) : (s.setVreg r x).hostResponse = s.hostResponse := rfl
@[simp] theorem setVreg_othersResponse (s : State) (r : VReg) (x : Vec) : (s.setVreg r x).othersResponse = s.othersResponse := rfl
@[simp] theorem setVreg_v (s : State) (r : VReg) (x : Vec) : (s.setVreg r x).v = s.v.set r x := rfl

/-! ### afterDraws -/

@[simp] theorem afterDraws_params (s : State) (fmt : Fmt) : (s.afterDraws fmt).params = s.params := by cases fmt <;> rfl
@[simp] theorem afterDraws_regs (s : State) (fmt : Fmt) : (s.afterDraws fmt).regs = s.regs := by cases fmt <;> rfl
@[simp] theorem afterDraws_result (s : State) (fmt : Fmt) : (s.afterDraws fmt).result = s.result := by cases fmt <;> rfl
@[simp] theorem afterDraws_phase (s : State) (fmt : Fmt) : (s.afterDraws fmt).phase = s.phase := by cases fmt <;> rfl
@[simp] theorem afterDraws_latch (s : State) (fmt : Fmt) : (s.afterDraws fmt).latch = s.latch := by cases fmt <;> rfl
@[simp] theorem afterDraws_cursor (s : State) (fmt : Fmt) : (s.afterDraws fmt).cursor = s.cursor := by cases fmt <;> rfl
@[simp] theorem afterDraws_v (s : State) (fmt : Fmt) : (s.afterDraws fmt).v = s.v := by cases fmt <;> rfl
@[simp] theorem afterDraws_mem (s : State) (fmt : Fmt) : (s.afterDraws fmt).mem = s.mem := by cases fmt <;> rfl
@[simp] theorem afterDraws_uopWord (s : State) (fmt : Fmt) : (s.afterDraws fmt).uopWord = s.uopWord := by cases fmt <;> rfl
@[simp] theorem afterDraws_host (s : State) (fmt : Fmt) : (s.afterDraws fmt).host = s.host := by cases fmt <;> rfl
@[simp] theorem afterDraws_others (s : State) (fmt : Fmt) : (s.afterDraws fmt).others = s.others := by cases fmt <;> rfl
@[simp] theorem afterDraws_issuer (s : State) (fmt : Fmt) : (s.afterDraws fmt).issuer = s.issuer := by cases fmt <;> rfl
@[simp] theorem afterDraws_hostResponse (s : State) (fmt : Fmt) : (s.afterDraws fmt).hostResponse = s.hostResponse := by cases fmt <;> rfl
@[simp] theorem afterDraws_othersResponse (s : State) (fmt : Fmt) : (s.afterDraws fmt).othersResponse = s.othersResponse := by cases fmt <;> rfl
@[simp] theorem afterDraws_draws (s : State) (fmt : Fmt) : (s.afterDraws fmt).draws = s.draws + (if fmt = .f32 then 64 else 0) := by cases fmt <;> rfl
@[simp] theorem afterDraws_vreg (s : State) (fmt : Fmt) (r : VReg) : (s.afterDraws fmt).vreg r = s.vreg r := by cases fmt <;> rfl

/-! ### respond -/

@[simp] theorem respond_params (s : State) (m : Master) (r : Response) : (s.respond m r).params = s.params := by cases m <;> rfl
@[simp] theorem respond_regs (s : State) (m : Master) (r : Response) : (s.respond m r).regs = s.regs := by cases m <;> rfl
@[simp] theorem respond_result (s : State) (m : Master) (r : Response) : (s.respond m r).result = s.result := by cases m <;> rfl
@[simp] theorem respond_phase (s : State) (m : Master) (r : Response) : (s.respond m r).phase = s.phase := by cases m <;> rfl
@[simp] theorem respond_latch (s : State) (m : Master) (r : Response) : (s.respond m r).latch = s.latch := by cases m <;> rfl
@[simp] theorem respond_cursor (s : State) (m : Master) (r : Response) : (s.respond m r).cursor = s.cursor := by cases m <;> rfl
@[simp] theorem respond_v (s : State) (m : Master) (r : Response) : (s.respond m r).v = s.v := by cases m <;> rfl
@[simp] theorem respond_mem (s : State) (m : Master) (r : Response) : (s.respond m r).mem = s.mem := by cases m <;> rfl
@[simp] theorem respond_draws (s : State) (m : Master) (r : Response) : (s.respond m r).draws = s.draws := by cases m <;> rfl
@[simp] theorem respond_uopWord (s : State) (m : Master) (r : Response) : (s.respond m r).uopWord = s.uopWord := by cases m <;> rfl
@[simp] theorem respond_host (s : State) (m : Master) (r : Response) : (s.respond m r).host = s.host := by cases m <;> rfl
@[simp] theorem respond_others (s : State) (m : Master) (r : Response) : (s.respond m r).others = s.others := by cases m <;> rfl
@[simp] theorem respond_issuer (s : State) (m : Master) (r : Response) : (s.respond m r).issuer = s.issuer := by cases m <;> rfl
@[simp] theorem respond_hostResponse (s : State) (m : Master) (r : Response) :
    (s.respond m r).hostResponse = if m = .host then r else s.hostResponse := by cases m <;> rfl
@[simp] theorem respond_othersResponse (s : State) (m : Master) (r : Response) :
    (s.respond m r).othersResponse = if m = .others then r else s.othersResponse := by cases m <;> rfl
@[simp] theorem respond_vreg (s : State) (m : Master) (r : Response) (q : VReg) : (s.respond m r).vreg q = s.vreg q := by cases m <;> rfl
@[simp] theorem respond_respond (s : State) (m : Master) (r q : Response) : (s.respond m r).respond m q = s.respond m q := by cases m <;> rfl

/-! ### acceptCommand -/

@[simp] theorem acceptCommand_params (m : Mode) (fmt : Fmt) (al : Bool) (s : State) :
    (acceptCommand m fmt al s).params = s.params := by unfold acceptCommand; simp
@[simp] theorem acceptCommand_regs (m : Mode) (fmt : Fmt) (al : Bool) (s : State) :
    (acceptCommand m fmt al s).regs = { s.regs with cmd := encodeCommand m fmt al } := by unfold acceptCommand; simp [Regs.write]
@[simp] theorem acceptCommand_result (m : Mode) (fmt : Fmt) (al : Bool) (s : State) :
    (acceptCommand m fmt al s).result = s.result := by unfold acceptCommand; simp
@[simp] theorem acceptCommand_phase (m : Mode) (fmt : Fmt) (al : Bool) (s : State) :
    (acceptCommand m fmt al s).phase = .busy := by unfold acceptCommand; simp
@[simp] theorem acceptCommand_latch (m : Mode) (fmt : Fmt) (al : Bool) (s : State) :
    (acceptCommand m fmt al s).latch = latchOf m fmt al s.regs := by unfold acceptCommand; simp
@[simp] theorem acceptCommand_cursor (m : Mode) (fmt : Fmt) (al : Bool) (s : State) :
    (acceptCommand m fmt al s).cursor = Cursor.origin := by unfold acceptCommand; simp
@[simp] theorem acceptCommand_v (m : Mode) (fmt : Fmt) (al : Bool) (s : State) :
    (acceptCommand m fmt al s).v = s.v := by unfold acceptCommand; simp
@[simp] theorem acceptCommand_mem (m : Mode) (fmt : Fmt) (al : Bool) (s : State) :
    (acceptCommand m fmt al s).mem = s.mem := by unfold acceptCommand; simp
@[simp] theorem acceptCommand_draws (m : Mode) (fmt : Fmt) (al : Bool) (s : State) :
    (acceptCommand m fmt al s).draws = s.draws := by unfold acceptCommand; simp
@[simp] theorem acceptCommand_uopWord (m : Mode) (fmt : Fmt) (al : Bool) (s : State) :
    (acceptCommand m fmt al s).uopWord = s.uopWord := by unfold acceptCommand; simp
@[simp] theorem acceptCommand_host (m : Mode) (fmt : Fmt) (al : Bool) (s : State) :
    (acceptCommand m fmt al s).host = s.host := by unfold acceptCommand; simp
@[simp] theorem acceptCommand_others (m : Mode) (fmt : Fmt) (al : Bool) (s : State) :
    (acceptCommand m fmt al s).others = s.others := by unfold acceptCommand; simp
@[simp] theorem acceptCommand_issuer (m : Mode) (fmt : Fmt) (al : Bool) (s : State) :
    (acceptCommand m fmt al s).issuer = s.issuer := by unfold acceptCommand; simp
@[simp] theorem acceptCommand_hostResponse (m : Mode) (fmt : Fmt) (al : Bool) (s : State) :
    (acceptCommand m fmt al s).hostResponse = if s.issuer = .host then .stalled else s.hostResponse := by unfold acceptCommand; simp
@[simp] theorem acceptCommand_othersResponse (m : Mode) (fmt : Fmt) (al : Bool) (s : State) :
    (acceptCommand m fmt al s).othersResponse = if s.issuer = .others then .stalled else s.othersResponse := by unfold acceptCommand; simp

/-! ### endLaunch -/

@[simp] theorem endLaunch_params (r : ResultCode) (s : State) : (endLaunch r s).params = s.params := by unfold endLaunch; simp
@[simp] theorem endLaunch_regs (r : ResultCode) (s : State) : (endLaunch r s).regs = s.regs := by unfold endLaunch; simp
@[simp] theorem endLaunch_result (r : ResultCode) (s : State) : (endLaunch r s).result = r := by unfold endLaunch; simp
@[simp] theorem endLaunch_phase (r : ResultCode) (s : State) : (endLaunch r s).phase = .idle := by unfold endLaunch; simp
@[simp] theorem endLaunch_latch (r : ResultCode) (s : State) : (endLaunch r s).latch = Latch.cleared := by unfold endLaunch; simp
@[simp] theorem endLaunch_cursor (r : ResultCode) (s : State) : (endLaunch r s).cursor = Cursor.origin := by unfold endLaunch; simp
@[simp] theorem endLaunch_v (r : ResultCode) (s : State) : (endLaunch r s).v = s.v := by unfold endLaunch; simp
@[simp] theorem endLaunch_mem (r : ResultCode) (s : State) : (endLaunch r s).mem = s.mem := by unfold endLaunch; simp
@[simp] theorem endLaunch_draws (r : ResultCode) (s : State) : (endLaunch r s).draws = s.draws := by unfold endLaunch; simp
@[simp] theorem endLaunch_uopWord (r : ResultCode) (s : State) : (endLaunch r s).uopWord = s.uopWord := by unfold endLaunch; simp
@[simp] theorem endLaunch_host (r : ResultCode) (s : State) : (endLaunch r s).host = s.host := by unfold endLaunch; simp
@[simp] theorem endLaunch_others (r : ResultCode) (s : State) : (endLaunch r s).others = s.others := by unfold endLaunch; simp
@[simp] theorem endLaunch_issuer (r : ResultCode) (s : State) : (endLaunch r s).issuer = s.issuer := by unfold endLaunch; simp
@[simp] theorem endLaunch_hostResponse (r : ResultCode) (s : State) :
    (endLaunch r s).hostResponse = if s.issuer = .host then .done else s.hostResponse := by unfold endLaunch; simp
@[simp] theorem endLaunch_othersResponse (r : ResultCode) (s : State) :
    (endLaunch r s).othersResponse = if s.issuer = .others then .done else s.othersResponse := by unfold endLaunch; simp

/-! ### takeTurn and due -/

@[simp] theorem takeTurn_params (s : State) : s.takeTurn.params = s.params := rfl
@[simp] theorem takeTurn_regs (s : State) : s.takeTurn.regs = s.regs := rfl
@[simp] theorem takeTurn_result (s : State) : s.takeTurn.result = s.result := rfl
@[simp] theorem takeTurn_phase (s : State) : s.takeTurn.phase = s.phase := rfl
@[simp] theorem takeTurn_latch (s : State) : s.takeTurn.latch = s.latch := rfl
@[simp] theorem takeTurn_cursor (s : State) : s.takeTurn.cursor = s.cursor := rfl
@[simp] theorem takeTurn_v (s : State) : s.takeTurn.v = s.v := rfl
@[simp] theorem takeTurn_mem (s : State) : s.takeTurn.mem = s.mem := rfl
@[simp] theorem takeTurn_draws (s : State) : s.takeTurn.draws = s.draws := rfl
@[simp] theorem takeTurn_uopWord (s : State) : s.takeTurn.uopWord = s.uopWord := rfl
@[simp] theorem takeTurn_issuer (s : State) : s.takeTurn.issuer = s.issuer := rfl
@[simp] theorem takeTurn_hostResponse (s : State) : s.takeTurn.hostResponse = s.hostResponse := rfl
@[simp] theorem takeTurn_othersResponse (s : State) : s.takeTurn.othersResponse = s.othersResponse := rfl
@[simp] theorem takeTurn_others (s : State) : s.takeTurn.others = s.others.tail := rfl
@[simp] theorem takeTurn_vreg (s : State) (r : VReg) : s.takeTurn.vreg r = s.vreg r := rfl

/-- A turn changes the masters' lists alone. -/
theorem takeTurn_eq (s : State) : s.takeTurn = { s with host := s.takeTurn.host, others := s.others.tail } := rfl

theorem hostStalled_iff (s : State) : s.hostStalled = true ↔ s.phase = .busy ∧ s.issuer = .host := by
  simp [State.hostStalled]

/-- Everything `due` can say: another master's access and the turn it leaves, the host's, or none. -/
theorem due_cases (s : State) :
    (∃ a rest, s.others = some a :: rest ∧ s.due = some (.others, a) ∧ s.takeTurn = { s with others := rest }) ∨
      ((∀ a, s.others.head? ≠ some (some a)) ∧
        ((∃ a rest, ¬(s.phase = .busy ∧ s.issuer = .host) ∧ s.host = some a :: rest ∧ s.due = some (.host, a) ∧
            s.takeTurn = { s with host := rest, others := s.others.tail }) ∨
          (((s.phase = .busy ∧ s.issuer = .host) ∨ ∀ a, s.host.head? ≠ some (some a)) ∧ s.due = none ∧
            s.takeTurn = { s with
              host := if s.phase = .busy ∧ s.issuer = .host then s.host else s.host.tail
              others := s.others.tail }))) := by
  unfold State.due State.takeTurn State.hostStalled
  rcases ho : s.others with _ | ⟨_ | a, rest⟩
  · right
    refine ⟨by simp, ?_⟩
    by_cases hs : s.phase = .busy ∧ s.issuer = .host
    · exact .inr ⟨.inl hs, by simp [hs], by simp [hs]⟩
    · rcases hh : s.host with _ | ⟨_ | a, rest⟩
      · exact .inr ⟨.inr (by simp), by simp [hs], by simp [hs]⟩
      · exact .inr ⟨.inr (by simp), by simp [hs], by simp [hs]⟩
      · exact .inl ⟨a, rest, hs, rfl, by simp [hs], by simp [hs]⟩
  · right
    refine ⟨by simp, ?_⟩
    by_cases hs : s.phase = .busy ∧ s.issuer = .host
    · exact .inr ⟨.inl hs, by simp [hs], by simp [hs]⟩
    · rcases hh : s.host with _ | ⟨_ | b, hrest⟩
      · exact .inr ⟨.inr (by simp), by simp [hs], by simp [hs]⟩
      · exact .inr ⟨.inr (by simp), by simp [hs], by simp [hs]⟩
      · exact .inl ⟨b, hrest, hs, rfl, by simp [hs], by simp [hs]⟩
  · exact .inl ⟨a, rest, rfl, by simp, by simp⟩

/-! ### setVreg and vreg -/

/-- The register written holds the value written. -/
@[simp] theorem setVreg_vreg_self (s : State) (r : VReg) (x : Vec) : (s.setVreg r x).vreg r = x := by
  simp [State.vreg]

/-- Every other register is as before. -/
theorem setVreg_vreg_ne (s : State) {r q : VReg} (x : Vec) (h : q ≠ r) : (s.setVreg r x).vreg q = s.vreg q := by
  have hne : r.val ≠ q.val := fun e => h (Fin.ext e.symm)
  simp [State.vreg, hne]

/-- Reading after writing, in one equation. -/
theorem setVreg_vreg (s : State) (r q : VReg) (x : Vec) :
    (s.setVreg r x).vreg q = if q = r then x else s.vreg q := by
  by_cases h : q = r
  · subst h; simp
  · simp [h, setVreg_vreg_ne s x h]

/-- Two states with the same vector registers read alike. -/
theorem vreg_eq_of_v_eq {s t : State} (h : s.v = t.v) (r : VReg) : s.vreg r = t.vreg r := by
  simp [State.vreg, h]

end Sys2Proof.Machine
end

