-- ==== Sys2Proof/Laws/Datapath.lean ====
section
/-! SUPPORT. What the datapath operations can do: loads, stores, one micro-op, a list of micro-ops, one unit. -/

namespace Sys2Proof.Machine

/-! ### Loads and stores (R121 to R123) -/

/-- A load that answers has an address in memory and writes one register. -/
theorem loadTo_eq_next {d : VReg} {a : Int} {n : Nat} {s t : State} :
    loadTo d a n s = .next t ↔ inSpace a n = true ∧ t = s.setVreg d (s.mem.readBytes a.toNat n) := by
  unfold loadTo
  by_cases h : inSpace a n = true
  · simp only [h, if_true, Host.Outcome.next.injEq, true_and]
    exact ⟨Eq.symm, Eq.symm⟩
  · simp [h]

/-- A load never refuses, and its one fault is an address outside memory. -/
theorem loadTo_cases (d : VReg) (a : Int) (n : Nat) (s : State) :
    loadTo d a n s = .next (s.setVreg d (s.mem.readBytes a.toNat n)) ∨ loadTo d a n s = .fault .addrRange := by
  unfold loadTo
  by_cases h : inSpace a n = true <;> simp [h]

/-- A store that answers has an address in memory and writes its bytes. -/
theorem storeTo_eq_next {a : Int} {n : Nat} {x : Vec} {s t : State} :
    storeTo a n x s = .next t ↔
      inSpace a n = true ∧ t = { s with mem := s.mem.writeBytes a.toNat n x } := by
  unfold storeTo
  by_cases h : inSpace a n = true
  · simp only [h, if_true, Host.Outcome.next.injEq, true_and]
    exact ⟨Eq.symm, Eq.symm⟩
  · simp [h]

/-- The bytes of an access lie in the memory space. -/
theorem inSpace_iff (a : Int) (n : Nat) : inSpace a n = true ↔ 0 ≤ a ∧ a + n ≤ (memorySize : Int) := by
  simp [inSpace]

/-! ### One micro-op -/

/-- What one micro-op can change: vector registers, draws, and the bytes of one store inside the memory space. -/
structure UopEffect (s t : State) : Prop where
  frame : t = { s with v := t.v, mem := t.mem, draws := t.draws }
  mem : t.mem = s.mem ∨
    ∃ (a : Int) (n : Nat) (x : Vec), inSpace a n = true ∧ t.mem = s.mem.writeBytes a.toNat n x

theorem UopEffect.of_setVreg (s : State) (r : VReg) (x : Vec) : UopEffect s (s.setVreg r x) :=
  ⟨rfl, .inl rfl⟩

theorem UopEffect.of_setVreg_draws (s : State) (r : VReg) (x : Vec) (fmt : Fmt) :
    UopEffect s ((s.setVreg r x).afterDraws fmt) := by
  cases fmt <;> exact ⟨rfl, .inl rfl⟩

theorem loadTo_effect {d : VReg} {a : Int} {n : Nat} {s t : State} (h : loadTo d a n s = .next t) :
    UopEffect s t := by
  obtain ⟨_, rfl⟩ := loadTo_eq_next.mp h
  exact .of_setVreg s d _

/-- Every micro-op that answers has such an effect. -/
theorem execUop_effect {i : Instr} {s t : State} (h : execUop i s = .next t) : UopEffect s t := by
  have next_inj : ∀ {u : State}, (Host.Outcome.next u : Outcome State) = .next t → u = t := by
    intro u e; exact Host.Outcome.next.inj e
  cases i with
  | vmin fmt d a b => rw [← next_inj h]; exact .of_setVreg _ _ _
  | vmax fmt d a b => rw [← next_inj h]; exact .of_setVreg _ _ _
  | vsortp fmt d e a b =>
    simp only [execUop, execVsortp] at h
    split at h
    · cases h
    · rw [← next_inj h]; exact ⟨rfl, .inl rfl⟩
  | vclip fmt d a b c => rw [← next_inj h]; exact .of_setVreg _ _ _
  | vabsdiff fmt d a b => rw [← next_inj h]; exact .of_setVreg_draws _ _ _ _
  | vseleq fmt d a b c f => rw [← next_inj h]; exact .of_setVreg _ _ _
  | vblend fmt d a b c => rw [← next_inj h]; exact .of_setVreg _ _ _
  | vloadu fmt d nb sc => exact loadTo_effect h
  | vloada fmt d nb =>
    simp only [execUop, execVloada] at h
    split at h
    · cases h
    · exact loadTo_effect h
  | vstoreu fmt a sc =>
    obtain ⟨hin, rfl⟩ := storeTo_eq_next.mp h
    exact ⟨rfl, .inr ⟨_, _, _, hin, rfl⟩⟩
  | kmedavg fmt d a b => rw [← next_inj h]; exact .of_setVreg_draws _ _ _ _
  | kmean8 fmt d => rw [← next_inj h]; exact .of_setVreg_draws _ _ _ _
  | kmean9 fmt d => rw [← next_inj h]; exact .of_setVreg_draws _ _ _ _
  | filterUndef _ _ => cases h
  | filterPass _ _ => cases h
  | filterClamp1 _ _ => cases h
  | filterClamp2 _ _ => cases h
  | filterClamp3 _ _ => cases h
  | filterClamp4 _ _ => cases h
  | filterMean8 _ _ => cases h
  | filterMean9 _ _ => cases h
  | filterMedian8 _ _ => cases h

/-! ### Lists of micro-ops -/

/-- Running two lists one after the other. -/
theorem runUops_append (xs ys : List Instr) (s : State) :
    runUops (xs ++ ys) s =
      match runUops xs s with
      | .next t => runUops ys t
      | .fault f => .fault f
      | .refused r => .refused r := by
  induction xs generalizing s with
  | nil => rfl
  | cons i rest ih =>
    simp only [List.cons_append, runUops]
    cases execUop i s with
    | next t => exact ih t
    | fault f => rfl
    | refused r => rfl

theorem runUops_append_of_next {xs ys : List Instr} {s t : State} (h : runUops xs s = .next t) :
    runUops (xs ++ ys) s = runUops ys t := by
  rw [runUops_append, h]

theorem runUops_cons_of_next {i : Instr} {rest : List Instr} {s t : State} (h : execUop i s = .next t) :
    runUops (i :: rest) s = runUops rest t := by
  simp only [runUops, h]

/-- What a run of micro-ops keeps: everything but vector registers, memory and draws; and memory stays canonical and
inside the space. -/
structure UopsKeep (s t : State) : Prop where
  frame : t = { s with v := t.v, mem := t.mem, draws := t.draws }
  wf : s.mem.wf = true → t.mem.wf = true
  space : (∀ c ∈ s.mem, c.1 < memorySize) → ∀ c ∈ t.mem, c.1 < memorySize

theorem UopsKeep.refl (s : State) : UopsKeep s s := ⟨rfl, id, id⟩

theorem UopsKeep.trans {s t u : State} (h₁ : UopsKeep s t) (h₂ : UopsKeep t u) : UopsKeep s u := by
  refine ⟨?_, fun h => h₂.wf (h₁.wf h), fun h => h₂.space (h₁.space h)⟩
  have f₁ := h₁.frame
  rw [h₂.frame, f₁]

theorem UopEffect.keep {s t : State} (h : UopEffect s t) : UopsKeep s t := by
  refine ⟨h.frame, fun hw => ?_, fun hs c hc => ?_⟩
  · rcases h.mem with e | ⟨a, n, x, _, e⟩
    · rw [e]; exact hw
    · rw [e]; exact Memory.writeBytes_wf _ _ _ _ hw
  · rcases h.mem with e | ⟨a, n, x, hin, e⟩
    · rw [e] at hc; exact hs c hc
    · rw [e] at hc
      rcases Memory.mem_writeBytes _ _ _ _ _ hc with hc | hc
      · exact hs c hc
      · have := (inSpace_iff a n).mp hin
        omega

theorem runUops_keep {is : List Instr} {s t : State} (h : runUops is s = .next t) : UopsKeep s t := by
  induction is generalizing s with
  | nil => rw [runUops] at h; cases h; exact .refl _
  | cons i rest ih =>
    rw [runUops] at h
    split at h
    · rename_i u hu
      exact (execUop_effect hu).keep.trans (ih h)
    · cases h
    · cases h

/-- No micro-op refuses. -/
theorem execUop_not_refused (i : Instr) (s : State) (r : Refusal) : execUop i s ≠ .refused r := by
  intro h
  cases i with
  | vsortp fmt d e a b => simp only [execUop, execVsortp] at h; split at h <;> cases h
  | vloadu fmt d nb sc => simp only [execUop, execVloadu, loadTo] at h; split at h <;> cases h
  | vloada fmt d nb => simp only [execUop, execVloada, loadTo] at h; split_ifs at h
  | vstoreu fmt a sc => simp only [execUop, execVstoreu, storeTo] at h; split at h <;> cases h
  | _ => cases h

theorem runUops_not_refused (is : List Instr) (s : State) (r : Refusal) : runUops is s ≠ .refused r := by
  induction is generalizing s with
  | nil => intro h; cases h
  | cons i rest ih =>
    intro h
    rw [runUops] at h
    split at h
    · exact ih _ h
    · cases h
    · rename_i q hq; exact execUop_not_refused i s q hq

/-! ### One work unit (R207) -/

/-- A unit keeps what micro-ops keep, with the cursor at the unit. -/
theorem runUnit_keep {u : WorkUnit} {s t : State} (h : runUnit u s = .next t) :
    UopsKeep { s with cursor := { y := u.y, x := u.x } } t := runUops_keep h

end Sys2Proof.Machine
end

