-- ==== Sys2Proof/Laws/Launch.lean ====
section
/-! SUPPORT. What a launch can do: the units of a plane lie in the grid, the walk ends the launch or stands still at
a unit, and the four ways a command answers (R206 to R209, R230, R231). -/

namespace Sys2Proof.Machine

/-! ### Units (R206) -/

theorem mem_interiorRow {l cols y : Nat} {u : WorkUnit} (h : u ∈ interiorRow l cols y) :
    u.y = y ∧
      ((u.vector = false ∧ u.x = 0) ∨
        (∃ k, k < (cols - 2) / l ∧ u.vector = true ∧ u.x = 1 + k * l) ∨
        (∃ j, j < (cols - 2) % l ∧ u.vector = false ∧ u.x = 1 + (cols - 2) / l * l + j) ∨
        (u.vector = false ∧ u.x = cols - 1)) := by
  simp only [interiorRow, List.mem_cons, List.mem_append, List.mem_map, List.mem_range, List.not_mem_nil,
    or_false] at h
  rcases h with rfl | (⟨k, hk, rfl⟩ | ⟨j, hj, rfl⟩) | rfl
  · exact ⟨rfl, .inl ⟨rfl, rfl⟩⟩
  · exact ⟨rfl, .inr (.inl ⟨k, hk, rfl, rfl⟩)⟩
  · exact ⟨rfl, .inr (.inr (.inl ⟨j, hj, rfl, rfl⟩))⟩
  · exact ⟨rfl, .inr (.inr (.inr ⟨rfl, rfl⟩))⟩

/-- A unit of a row lies in the grid; a vector unit lies wholly in its interior (R206). -/
theorem mem_rowUnits {l cols rows y : Nat} (hl : 0 < l) {u : WorkUnit} (h : u ∈ rowUnits l cols rows y) :
    u.y = y ∧ u.x < cols ∧ (u.vector = true → 1 ≤ u.x ∧ u.x + l ≤ cols - 1 ∧ 0 < y ∧ y + 1 ≠ rows) := by
  unfold rowUnits at h
  split at h
  · simp only [List.mem_map, List.mem_range] at h
    obtain ⟨x, hx, rfl⟩ := h
    exact ⟨rfl, hx, fun e => by simp [scalarUnit] at e⟩
  · rename_i hs
    simp only [scalarRow, Bool.or_eq_true, decide_eq_true_eq, not_or] at hs
    obtain ⟨⟨hy, hy'⟩, hc⟩ := hs
    obtain ⟨e, hcase⟩ := mem_interiorRow h
    have hdm : (cols - 2) / l * l + (cols - 2) % l = cols - 2 := by
      rw [Nat.mul_comm]; exact Nat.div_add_mod _ _
    refine ⟨e, ?_, ?_⟩
    · rcases hcase with ⟨_, hx⟩ | ⟨k, hk, _, hx⟩ | ⟨j, hj, _, hx⟩ | ⟨_, hx⟩
      · omega
      · have : (k + 1) * l ≤ (cols - 2) / l * l := Nat.mul_le_mul_right l hk
        have : (k + 1) * l = k * l + l := by ring
        omega
      · omega
      · omega
    · intro hv
      rcases hcase with ⟨hf, _⟩ | ⟨k, hk, _, hx⟩ | ⟨j, _, hf, _⟩ | ⟨hf, _⟩
      · rw [hf] at hv; cases hv
      · have : (k + 1) * l ≤ (cols - 2) / l * l := Nat.mul_le_mul_right l hk
        have : (k + 1) * l = k * l + l := by ring
        exact ⟨by omega, by omega, by omega, hy'⟩
      · rw [hf] at hv; cases hv
      · rw [hf] at hv; cases hv

/-- Every unit of a launch lies in the grid (R42, R206). -/
theorem mem_planeUnits {ld : Latch} {u : WorkUnit} (h : u ∈ planeUnits ld) :
    u.y < ld.rows ∧ u.x < ld.cols ∧
      (u.vector = true → 1 ≤ u.x ∧ u.x + ld.fmt.lanes ≤ ld.cols - 1 ∧ 0 < u.y ∧ u.y + 1 < ld.rows) := by
  simp only [planeUnits, List.mem_flatMap, List.mem_range] at h
  obtain ⟨y, hy, hu⟩ := h
  obtain ⟨e, hx, hv⟩ := mem_rowUnits (Fmt.lanes_pos ld.fmt) hu
  refine ⟨by omega, hx, fun hvec => ?_⟩
  obtain ⟨h1, h2, h3, h4⟩ := hv hvec
  exact ⟨h1, h2, by omega, by omega⟩

theorem mem_unitsFrom {ld : Latch} {cur : Cursor} {u : WorkUnit} (h : u ∈ unitsFrom ld cur) :
    u ∈ planeUnits ld := (List.mem_filter.mp h).1

/-! ### The walk (R208, R209) -/

/-- What the walk keeps while it goes on: everything but vector registers, memory, draws, the cursor and the masters'
lists of turns. -/
structure WalkKeep (s t : State) : Prop where
  frame : t =
    { s with v := t.v, mem := t.mem, draws := t.draws, cursor := t.cursor, host := t.host, others := t.others }
  wf : s.mem.wf = true → t.mem.wf = true
  space : (∀ c ∈ s.mem, c.1 < memorySize) → ∀ c ∈ t.mem, c.1 < memorySize

theorem WalkKeep.refl (s : State) : WalkKeep s s := ⟨rfl, id, id⟩

theorem WalkKeep.trans {s t u : State} (h₁ : WalkKeep s t) (h₂ : WalkKeep t u) : WalkKeep s u := by
  refine ⟨?_, fun h => h₂.wf (h₁.wf h), fun h => h₂.space (h₁.space h)⟩
  have f₁ := h₁.frame
  rw [h₂.frame, f₁]

/-- A walk that answers has ended the launch with OK, or stands still with the cursor at one of its units because a
master's access is due. -/
theorem runUnits_cases {us : List WorkUnit} {s t : State} (h : runUnits us s = .next t) :
    ∃ m, WalkKeep s m ∧
      (t = endLaunch .ok m ∨
        ∃ u ∈ us, ∃ a, m.due = some a ∧ t = { m with cursor := { y := u.y, x := u.x } }) := by
  induction us generalizing s with
  | nil => rw [runUnits] at h; cases h; exact ⟨s, .refl _, .inl rfl⟩
  | cons u rest ih =>
    rw [runUnits] at h
    split at h
    · rename_i a hd
      cases h
      exact ⟨s, .refl _, .inr ⟨u, by simp, a, hd, rfl⟩⟩
    · split at h
      · rename_i t₁ ht
        have hk := runUnit_keep ht
        have hw : WalkKeep s t₁ := by
          refine ⟨?_, hk.wf, hk.space⟩
          have hf := hk.frame
          rw [hf]
          rfl
        obtain ⟨m, hm, hcase⟩ := ih h
        refine ⟨m, hw.trans hm, ?_⟩
        rcases hcase with e | ⟨v, hv, e⟩
        · exact .inl e
        · exact .inr ⟨v, by simp [hv], e⟩
      · cases h
      · cases h

/-! ### Commands (R230) -/

/-- A command that answers was turned away (R27), ended with an error code (R233, R234), or walked its plane. -/
theorem filterPlane_cases {m : Mode} {fmt : Fmt} {al : Bool} {s t : State}
    (h : filterPlane m fmt al s = .next t) :
    (s.phase = .busy ∧ t = s) ∨
      (s.phase = .idle ∧ configError s.params m fmt = true ∧
        t = endLaunch .errMode (acceptCommand m fmt al s)) ∨
      (s.phase = .idle ∧ configError s.params m fmt = false ∧ geometryError (latchOf m fmt al s.regs) = true ∧
        t = endLaunch .errGeometry (acceptCommand m fmt al s)) ∨
      (s.phase = .idle ∧ configError s.params m fmt = false ∧ geometryError (latchOf m fmt al s.regs) = false ∧
        launchFault s.params (latchOf m fmt al s.regs) = none ∧
        runUnits (planeUnits (latchOf m fmt al s.regs)) (acceptCommand m fmt al s) = .next t) := by
  unfold filterPlane at h
  split at h
  · rename_i hp
    cases h
    exact .inl ⟨hp, rfl⟩
  · rename_i hp
    right
    unfold startLaunch at h
    rw [acceptCommand_params, acceptCommand_latch] at h
    split at h
    · rename_i hc
      cases h
      exact .inl ⟨hp, hc, rfl⟩
    · rename_i hc
      right
      split at h
      · rename_i hg
        cases h
        exact .inl ⟨hp, by simpa using hc, hg, rfl⟩
      · rename_i hg
        right
        split at h
        · cases h
        · rename_i hf
          exact ⟨hp, by simpa using hc, by simpa using hg, hf, h⟩

/-- Every command is FILTER_PLANE with its mode (R230). -/
theorem exec_filter (m : Mode) (fmt : Fmt) (al : Bool) (s : State) :
    exec (Instr.filter m fmt al) s = filterPlane m fmt al s := by
  cases m <;> rfl

/-- A decoded command word is a command (R90). -/
theorem decodeCommand_ok {w : Word} {i : Instr} (h : decodeCommand w = .ok i) :
    ∃ m fmt al, i = Instr.filter m fmt al := by
  unfold decodeCommand at h
  split at h
  · cases h
  · split at h
    · cases h
    · cases h
    · cases h
      exact ⟨_, _, _, rfl⟩

/-! ### Reset (R281) -/

/-- Bytes drawn over memory change nothing but memory and draws, and keep the canonical form. -/
theorem scramble_keep (as : List Nat) (s : State) :
    scramble s as = { s with mem := (scramble s as).mem, draws := (scramble s as).draws } ∧
      (s.mem.wf = true → (scramble s as).mem.wf = true) ∧
      (∀ c ∈ (scramble s as).mem, c ∈ s.mem ∨ c.1 ∈ as) := by
  induction as generalizing s with
  | nil => exact ⟨rfl, id, fun c hc => .inl hc⟩
  | cons a rest ih =>
    obtain ⟨hf, hw, hm⟩ :=
      ih { s with mem := s.mem.write a (Config.freeByte s.draws), draws := s.draws + 1 }
    refine ⟨?_, fun h => hw (Memory.write_wf _ _ _ h), fun c hc => ?_⟩
    · rw [scramble, hf]
    · rcases hm c hc with h | h
      · rcases Memory.mem_write _ _ _ _ h with h | h
        · exact .inl h
        · exact .inr (by simp [h])
      · exact .inr (by simp [h])

/-- A byte outside the list reads as before. -/
theorem read_scramble_of_not_mem (as : List Nat) (s : State) (b : Nat) (h : b ∉ as) :
    (scramble s as).mem.read b = s.mem.read b := by
  induction as generalizing s with
  | nil => rfl
  | cons a rest ih =>
    have hb : b ≠ a := fun e => h (by simp [e])
    rw [scramble, ih _ fun hr => h (by simp [hr])]
    simp only [Memory.read_write, if_neg hb]

end Sys2Proof.Machine
end

