-- ==== Sys2Proof/Laws/Bus.lean ====
section
/-! SUPPORT. What the bus and a turn can do: the register map, the drawn NaNs, and every way an access, a reset and a
turn answer (R17, R20, R22, R26 to R36, R74, R281). -/

namespace Sys2Proof.Machine

/-! ### Drawn NaNs (R17) -/

/-- 24 free bits always stand for a NaN encoding. -/
theorem nanOfBits_isNaN (b : BitVec 24) : f32IsNaN (nanOfBits b) = true := by
  have he : (nanOfBits b).extractLsb' 23 8 = 0xFF#8 := by
    unfold nanOfBits
    apply BitVec.eq_of_getLsbD_eq
    intro i hi
    simp only [BitVec.getLsbD_extractLsb', BitVec.getLsbD_append]
    have h1 : ¬ 23 + i < 23 := by omega
    have h2 : 23 + i - 23 = i := by omega
    simp [hi, h1, h2]
  have hf : (nanOfBits b).extractLsb' 0 23 =
      (if b.extractLsb' 0 23 = 0#23 then 0x400000#23 else b.extractLsb' 0 23) := by
    unfold nanOfBits
    apply BitVec.eq_of_getLsbD_eq
    intro i hi
    simp only [BitVec.getLsbD_extractLsb', BitVec.getLsbD_append]
    simp [hi]
  have hz : (nanOfBits b).extractLsb' 0 23 ≠ 0#23 := by
    rw [hf]
    split
    · decide
    · assumption
  have hz' : ((nanOfBits b).extractLsb' 0 23).toNat ≠ 0 := by
    intro e
    exact hz (BitVec.eq_of_toNat_eq (by rw [e]; rfl))
  unfold f32IsNaN f32Exp f32Frac
  rw [he, Bool.and_eq_true]
  exact ⟨rfl, bne_iff_ne.mpr hz'⟩

theorem drawNaN_isNaN (n : Nat) : f32IsNaN (drawNaN n) = true := nanOfBits_isNaN _

theorem nanAt_isNaN (s : State) (i k : Nat) : f32IsNaN (s.nanAt i k) = true := drawNaN_isNaN _

/-! ### The register map (R22) -/

theorem RegName.ofOffset_offset (n : RegName) : RegName.ofOffset n.offset = some n := by cases n <;> rfl

theorem RegName.offset_lt (n : RegName) : n.offset < 0x28 := by cases n <;> decide

theorem RegName.offset_mod (n : RegName) : n.offset % 4 = 0 := by cases n <;> rfl

/-- Only the ten offsets of the map hold a register. -/
theorem RegName.ofOffset_eq_none {o : Nat} (h : 0x28 ≤ o) : RegName.ofOffset o = none := by
  unfold RegName.ofOffset
  repeat rw [if_neg (by omega)]

/-- A read of a register after a write of the block: the word at its own register, the old content elsewhere. -/
theorem readReg_write (s : State) (n q : RegName) (w : Word) (hn : n ≠ .status) :
    ({ s with regs := s.regs.write n w } : State).readReg q = if q = n then w else s.readReg q := by
  cases n <;> cases q <;> first | rfl | exact absurd rfl hn

/-! ### Commands on the bus (R26, R27, R93) -/

/-- A CMD write that answers was turned away, ran its instruction, or was an illegal word. -/
theorem writeCommand_cases {m : Master} {w : Word} {s t : State} (h : writeCommand m w s = .next t) :
    (s.phase = .busy ∧ t = s.respond m .done) ∨
      (s.phase = .idle ∧ ∃ i, decodeCommand w = .ok i ∧ exec i { s with issuer := m } = .next t) ∨
      (s.phase = .idle ∧ ∃ r, decodeCommand w = .error r ∧
        t = endLaunch .errMode { s with issuer := m, regs := s.regs.write .cmd w }) := by
  unfold writeCommand at h
  split at h
  · rename_i hp
    cases h
    exact .inl ⟨hp, rfl⟩
  · rename_i hp
    split at h
    · rename_i i hi
      exact .inr (.inl ⟨hp, i, hi, h⟩)
    · rename_i r hr
      cases h
      refine .inr (.inr ⟨hp, r, hr, ?_⟩)
      simp only [rejectCommand, hp]

/-! ### Accesses -/

/-- Every way an access answers: a bare response, a descriptor register written, memory written, a byte drawn, a
command issued, or reset. -/
theorem access_cases {m : Master} {a : Access} {s t : State} (h : access m a s = .next t) :
    (∃ r, r ≠ .stalled ∧ t = s.respond m r) ∨
      (∃ n w, n ≠ RegName.cmd ∧ t = { s with regs := s.regs.write n w }.respond m .done) ∨
      (∃ addr b, a = .memWrite addr b ∧ (s.phase = .busy → inLaunchBuffers s addr = false) ∧
        t = { s with mem := s.mem.write addr.toNat b }.respond m .done) ∨
      (∃ b, s.phase = .busy ∧ t = { s with draws := s.draws + 1 }.respond m (.byte b)) ∨
      (∃ w, writeCommand m w s = .next t) ∨
      (a = .reset ∧ t = resetUnit s) := by
  cases a with
  | regWrite addr bytes w =>
    simp only [access, regWriteAccess] at h
    split at h
    · cases h; exact .inl ⟨_, by decide, rfl⟩
    · split at h
      · cases h
      · split at h
        · rename_i n _
          cases n <;> simp only [writeRegister] at h
          case cmd => exact .inr (.inr (.inr (.inr (.inl ⟨w, h⟩))))
          case status => cases h; exact .inl ⟨_, by decide, rfl⟩
          all_goals (cases h; exact .inr (.inl ⟨_, w, by decide, rfl⟩))
        · cases h; exact .inl ⟨_, by decide, rfl⟩
  | regRead addr bytes =>
    simp only [access, regReadAccess] at h
    split at h
    · cases h; exact .inl ⟨_, by decide, rfl⟩
    · split at h
      · cases h
      · split at h <;> (cases h; exact .inl ⟨_, by simp, rfl⟩)
  | memWrite addr b =>
    simp only [access, memWriteAccess] at h
    split at h
    · rename_i hp
      cases h
      exact .inr (.inr (.inl ⟨addr, b, rfl, by simp [hp], rfl⟩))
    · split at h
      · cases h
      · rename_i hb
        cases h
        exact .inr (.inr (.inl ⟨addr, b, rfl, fun _ => by simpa using hb, rfl⟩))
  | memRead addr =>
    simp only [access, memReadAccess] at h
    split at h
    · cases h; exact .inl ⟨_, by simp, rfl⟩
    · rename_i hp
      split at h
      · cases h; exact .inr (.inr (.inr (.inl ⟨_, hp, rfl⟩)))
      · cases h; exact .inl ⟨_, by simp, rfl⟩
  | reset =>
    cases h
    exact .inr (.inr (.inr (.inr (.inr ⟨rfl, rfl⟩))))

/-! ### Reset (R280, R281) -/

/-- What reset leaves: the platform as it was, the unit's own state at its reset values, and memory and draws changed
only by the launch it abandons. -/
theorem resetUnit_eq (s : State) :
    ∃ mem draws hostResponse othersResponse, resetUnit s =
      { s with
        regs := Regs.reset, result := .none, phase := .idle, latch := Latch.cleared, cursor := Cursor.origin,
        v := vectorReset, uopWord := none, mem := mem, draws := draws, hostResponse := hostResponse,
        othersResponse := othersResponse } ∧
      (s.phase = .idle → mem = s.mem ∧ draws = s.draws ∧ hostResponse = s.hostResponse ∧
        othersResponse = s.othersResponse) ∧
      (s.phase = .busy → mem = (scramble s (writeSet s.latch)).mem ∧
        hostResponse = (match s.issuer with | .host => .aborted | .others => s.hostResponse)) := by
  cases hp : s.phase with
  | idle => exact ⟨s.mem, s.draws, s.hostResponse, s.othersResponse, by simp [resetUnit, hp], by simp, by simp⟩
  | busy =>
    have hk := (scramble_keep (writeSet s.latch) s).1
    refine ⟨(resetUnit s).mem, (resetUnit s).draws, (resetUnit s).hostResponse, (resetUnit s).othersResponse,
      ?_, by simp, fun _ => ?_⟩
    · simp only [resetUnit, hp, abandonLaunch]
      rw [hk]
      cases s.issuer <;> rfl
    · simp only [resetUnit, hp, abandonLaunch]
      rw [hk]
      cases s.issuer <;> exact ⟨rfl, rfl⟩

/-! ### Register addresses (R22, R35) -/

/-- An access reaches the block when it starts in it, or starts below it and one of its bytes lies in it. -/
theorem touchesRegBlock_iff (p : Params) (addr bytes : Nat) :
    touchesRegBlock p addr bytes = true ↔
      addr < p.regBase + regBlockSize ∧ (p.regBase ≤ addr ∨ p.regBase < addr + bytes) := by
  simp [touchesRegBlock]

theorem badRegAccess_iff (p : Params) (addr bytes : Nat) :
    badRegAccess p addr bytes = true ↔ bytes ≠ 4 ∨ addr < p.regBase ∨ (addr - p.regBase) % 4 ≠ 0 := by
  simp [badRegAccess]

/-! ### Turns -/

/-- Every way a step answers: the datapath's word, the access that is due, the launch, or a turn that passes. -/
theorem step_cases {s t : State} (h : step s = .next t) :
    (∃ u i, s.uopWord = some u ∧ decodeUop u = .ok i ∧ exec i { s with uopWord := none } = .next t) ∨
      (∃ m a, s.uopWord = none ∧ s.due = some (m, a) ∧ access m a s.takeTurn = .next t) ∨
      (s.uopWord = none ∧ s.due = none ∧ s.phase = .busy ∧ runUnits (unitsFrom s.latch s.cursor) s = .next t) ∨
      (s.uopWord = none ∧ s.due = none ∧ s.phase = .idle ∧ t = s.takeTurn) := by
  unfold step turn at h
  split at h
  · rename_i u hu
    unfold runUopWord at h
    split at h
    · rename_i i hi
      exact .inl ⟨u, i, hu, hi, h⟩
    · cases h
  · rename_i hu
    split at h
    · rename_i m a hd
      exact .inr (.inl ⟨m, a, hu, hd, h⟩)
    · rename_i hd
      split at h
      · rename_i hp
        exact .inr (.inr (.inl ⟨hu, hd, hp, h⟩))
      · rename_i hp
        cases h
        exact .inr (.inr (.inr ⟨hu, hd, hp, rfl⟩))

end Sys2Proof.Machine
end

