-- ==== Sys2Proof/Laws/Encoding.lean ====
section
/-! SUPPORT. The fields of encoded words: what each reads back as (R90, R92, R95). -/

namespace Sys2Proof

/-! ### Micro-op words (R95) -/

/-- The fields of a word built from fields are those fields. -/
theorem uopFields_uopWordOf (x : UopFields) : uopFields (uopWordOf x) = x := by
  obtain ⟨op, fmt, d, e, a, b, c, f, nbi, sc, res⟩ := x
  unfold uopFields uopWordOf
  congr 1 <;>
  · apply BitVec.eq_of_getLsbD_eq
    intro i hi
    simp only [BitVec.getLsbD_extractLsb', BitVec.getLsbD_append, hi, decide_true, Bool.true_and]
    repeat (rw [if_neg (by omega)])
    try rw [if_pos (by omega)]
    congr 1
    omega

/-- A word is rebuilt from its fields: the fields of R95 leave out no bit. -/
theorem uopWordOf_uopFields (u : UWord) : uopWordOf (uopFields u) = u := by
  apply BitVec.eq_of_getLsbD_eq
  intro i hi
  unfold uopFields uopWordOf
  simp only [BitVec.getLsbD_extractLsb', BitVec.getLsbD_append]
  split_ifs <;>
  · rw [decide_eq_true (by omega), Bool.true_and]
    congr 1
    omega

/-- The mask of R97 keeps OP alone of a word whose reserved bits are 0. -/
theorem uopWordOf_mask (x : UopFields) (h : x.res = 0#21) :
    uopWordOf x &&& 0xFFFFF8000000003F#64 = x.op.setWidth 64 := by
  apply BitVec.eq_of_getLsbD_eq
  intro i hi
  have hm : (0xFFFFF8000000003F#64).getLsbD i = (decide (i < 6) || decide (43 ≤ i)) := by
    revert i; decide
  unfold uopWordOf
  rw [BitVec.getLsbD_and, hm, BitVec.getLsbD_setWidth]
  simp only [BitVec.getLsbD_append, h]
  by_cases h6 : i < 6
  · simp [h6, hi]
  · rw [BitVec.getLsbD_of_ge x.op i (by omega)]
    by_cases h43 : 43 ≤ i
    · repeat (rw [if_neg (by omega)])
      simp
    · simp [h6, h43]

/-! ### Field types -/

theorem Fmt.ofBits_iff (b : BitVec 2) (fmt : Fmt) : Fmt.ofBits b = some fmt ↔ b = fmt.toBits := by
  revert b; cases fmt <;> decide

theorem Fmt.ofBits_toBits (fmt : Fmt) : Fmt.ofBits fmt.toBits = some fmt := (Fmt.ofBits_iff _ _).mpr rfl

theorem Mode.ofBits_iff (b : BitVec 8) (m : Mode) : Mode.ofBits b = some m ↔ b = m.toBits := by
  revert b; cases m <;> decide

theorem Mode.ofBits_toBits (m : Mode) : Mode.ofBits m.toBits = some m := (Mode.ofBits_iff _ _).mpr rfl

theorem nbiOfBits_nbiBits (n : Nbi) : nbiOfBits (nbiBits n) = some n := by revert n; decide

theorem nbiOfBits_iff (b : BitVec 4) (n : Nbi) : nbiOfBits b = some n ↔ b = nbiBits n := by
  revert b n; decide

theorem regBits_toFin (r : VReg) : (regBits r).toFin = r := rfl

theorem regBits_of_toFin (b : BitVec 5) : regBits b.toFin = b := rfl

/-! ### Command words (R90) -/

theorem commandMode_encodeCommand (m : Mode) (fmt : Fmt) (al : Bool) :
    commandMode (encodeCommand m fmt al) = m.toBits := by
  cases m <;> cases fmt <;> cases al <;> decide

theorem commandFmt_encodeCommand (m : Mode) (fmt : Fmt) (al : Bool) :
    commandFmt (encodeCommand m fmt al) = fmt.toBits := by
  cases m <;> cases fmt <;> cases al <;> decide

theorem commandAlign_encodeCommand (m : Mode) (fmt : Fmt) (al : Bool) :
    commandAlign (encodeCommand m fmt al) = al := by
  cases m <;> cases fmt <;> cases al <;> decide

theorem commandReserved_encodeCommand (m : Mode) (fmt : Fmt) (al : Bool) :
    commandReserved (encodeCommand m fmt al) = 0#21 := by
  cases m <;> cases fmt <;> cases al <;> decide

/-- A command's word decodes to the command. -/
theorem decodeCommand_encodeCommand (m : Mode) (fmt : Fmt) (al : Bool) :
    decodeCommand (encodeCommand m fmt al) = .ok (Instr.filter m fmt al) := by
  rw [decodeCommand, commandReserved_encodeCommand, commandFmt_encodeCommand, commandMode_encodeCommand,
    commandAlign_encodeCommand, Fmt.ofBits_toBits, Mode.ofBits_toBits]
  rfl

/-- A command's word, whichever the mode. -/
theorem encode_filter (m : Mode) (fmt : Fmt) (al : Bool) :
    encode (Instr.filter m fmt al) = .command (encodeCommand m fmt al) := by
  cases m <;> rfl

end Sys2Proof
end

