-- ==== Sys2Proof/Laws/PerInstr.lean ====
section
/-! SUPPORT. Statements about every instruction, one lemma per constructor: the word of each instruction has the
match value of its row of spec/opcode_table.json under the row's mask (R94, R97). -/

namespace Sys2Proof

/-- The match value of each row of the opcode table. -/
def tableMatch : Instr → Nat
  | .filterUndef _ _ => 0xFF
  | .filterPass _ _ => 0x00
  | .filterClamp1 _ _ => 0x01
  | .filterClamp2 _ _ => 0x02
  | .filterClamp3 _ _ => 0x03
  | .filterClamp4 _ _ => 0x04
  | .filterMean8 _ _ => 0x13
  | .filterMean9 _ _ => 0x14
  | .filterMedian8 _ _ => 0x40
  | .vmin _ _ _ _ => 0x01
  | .vmax _ _ _ _ => 0x02
  | .vsortp _ _ _ _ _ => 0x03
  | .vclip _ _ _ _ _ => 0x04
  | .vabsdiff _ _ _ _ => 0x05
  | .vseleq _ _ _ _ _ _ => 0x06
  | .vblend _ _ _ _ _ => 0x07
  | .vloadu _ _ _ _ => 0x08
  | .vloada _ _ _ => 0x09
  | .vstoreu _ _ _ => 0x0A
  | .kmedavg _ _ _ _ => 0x10
  | .kmean8 _ _ => 0x11
  | .kmean9 _ _ => 0x12

/-- A word under the mask of its format's rows (R94, R97). -/
def maskedWord : CodeWord → Nat
  | .command w => (w &&& 0xFFFFECFF#32).toNat
  | .microOp u => (u &&& 0xFFFFF8000000003F#64).toNat

/-- A command's word under the mask is its MODE byte. -/
theorem maskedWord_command (m : Mode) (fmt : Fmt) (al : Bool) :
    maskedWord (.command (encodeCommand m fmt al)) = m.toBits.toNat := by
  cases m <;> cases fmt <;> cases al <;> decide

/-- A micro-op's word under the mask is its OP. -/
theorem maskedWord_microOp (x : UopFields) (h : x.res = 0#21) :
    maskedWord (.microOp (uopWordOf x)) = x.op.toNat := by
  rw [maskedWord, uopWordOf_mask x h, BitVec.toNat_setWidth]
  exact Nat.mod_eq_of_lt (Nat.lt_of_lt_of_le x.op.isLt (by decide))

/-- The instruction's word has its row's match value under its row's mask. -/
def Laws.MatchMask.Statement (i : Instr) : Prop := maskedWord (encode i) = tableMatch i

theorem Laws.MatchMask.filterUndef (fmt : Fmt) (al : Bool) : Laws.MatchMask.Statement (.filterUndef fmt al) :=
  maskedWord_command .undef fmt al

theorem Laws.MatchMask.filterPass (fmt : Fmt) (al : Bool) : Laws.MatchMask.Statement (.filterPass fmt al) :=
  maskedWord_command .pass fmt al

theorem Laws.MatchMask.filterClamp1 (fmt : Fmt) (al : Bool) : Laws.MatchMask.Statement (.filterClamp1 fmt al) :=
  maskedWord_command .clamp1 fmt al

theorem Laws.MatchMask.filterClamp2 (fmt : Fmt) (al : Bool) : Laws.MatchMask.Statement (.filterClamp2 fmt al) :=
  maskedWord_command .clamp2 fmt al

theorem Laws.MatchMask.filterClamp3 (fmt : Fmt) (al : Bool) : Laws.MatchMask.Statement (.filterClamp3 fmt al) :=
  maskedWord_command .clamp3 fmt al

theorem Laws.MatchMask.filterClamp4 (fmt : Fmt) (al : Bool) : Laws.MatchMask.Statement (.filterClamp4 fmt al) :=
  maskedWord_command .clamp4 fmt al

theorem Laws.MatchMask.filterMean8 (fmt : Fmt) (al : Bool) : Laws.MatchMask.Statement (.filterMean8 fmt al) :=
  maskedWord_command .mean8 fmt al

theorem Laws.MatchMask.filterMean9 (fmt : Fmt) (al : Bool) : Laws.MatchMask.Statement (.filterMean9 fmt al) :=
  maskedWord_command .mean9 fmt al

theorem Laws.MatchMask.filterMedian8 (fmt : Fmt) (al : Bool) : Laws.MatchMask.Statement (.filterMedian8 fmt al) :=
  maskedWord_command .median8 fmt al

theorem Laws.MatchMask.vmin (fmt : Fmt) (d a b : VReg) : Laws.MatchMask.Statement (.vmin fmt d a b) :=
  maskedWord_microOp _ rfl

theorem Laws.MatchMask.vmax (fmt : Fmt) (d a b : VReg) : Laws.MatchMask.Statement (.vmax fmt d a b) :=
  maskedWord_microOp _ rfl

theorem Laws.MatchMask.vsortp (fmt : Fmt) (d e a b : VReg) : Laws.MatchMask.Statement (.vsortp fmt d e a b) :=
  maskedWord_microOp _ rfl

theorem Laws.MatchMask.vclip (fmt : Fmt) (d a b c : VReg) : Laws.MatchMask.Statement (.vclip fmt d a b c) :=
  maskedWord_microOp _ rfl

theorem Laws.MatchMask.vabsdiff (fmt : Fmt) (d a b : VReg) : Laws.MatchMask.Statement (.vabsdiff fmt d a b) :=
  maskedWord_microOp _ rfl

theorem Laws.MatchMask.vseleq (fmt : Fmt) (d a b c f : VReg) : Laws.MatchMask.Statement (.vseleq fmt d a b c f) :=
  maskedWord_microOp _ rfl

theorem Laws.MatchMask.vblend (fmt : Fmt) (d a b c : VReg) : Laws.MatchMask.Statement (.vblend fmt d a b c) :=
  maskedWord_microOp _ rfl

theorem Laws.MatchMask.vloadu (fmt : Fmt) (d : VReg) (nb : Nbi) (sc : Bool) :
    Laws.MatchMask.Statement (.vloadu fmt d nb sc) :=
  maskedWord_microOp _ rfl

theorem Laws.MatchMask.vloada (fmt : Fmt) (d : VReg) (nb : Nbi) : Laws.MatchMask.Statement (.vloada fmt d nb) :=
  maskedWord_microOp _ rfl

theorem Laws.MatchMask.vstoreu (fmt : Fmt) (a : VReg) (sc : Bool) : Laws.MatchMask.Statement (.vstoreu fmt a sc) :=
  maskedWord_microOp _ rfl

theorem Laws.MatchMask.kmedavg (fmt : Fmt) (d a b : VReg) : Laws.MatchMask.Statement (.kmedavg fmt d a b) :=
  maskedWord_microOp _ rfl

theorem Laws.MatchMask.kmean8 (fmt : Fmt) (d : VReg) : Laws.MatchMask.Statement (.kmean8 fmt d) :=
  maskedWord_microOp _ rfl

theorem Laws.MatchMask.kmean9 (fmt : Fmt) (d : VReg) : Laws.MatchMask.Statement (.kmean9 fmt d) :=
  maskedWord_microOp _ rfl

end Sys2Proof
end

