-- ==== Sys2Proof/Tests/Slice0.lean ====
section
/-! SUPPORT. The model's own tests, their expected values taken from spec/95_test_vectors.md or by hand from the
rules, and for every statement with hypotheses a concrete case that meets them. -/

set_option Elab.async false

namespace Sys2Proof.Tests

open Sys2Proof.Machine

/-! ### Well-formedness (R99) -/

/-- vsortp with D = E is ill-formed; the only check there is. -/
theorem test_wellFormed_refuses_same_destinations : (Instr.vsortp .u8 1 1 1 2).wellFormed = false := by decide

theorem test_wellFormed_accepts_sort_pair : (Instr.vsortp .u8 16 18 16 18).wellFormed = true := by decide

/-! ### Decoding: words written out from R90 and R95 (V-E1, V-E3) -/

theorem test_decode_filterUndef : decodeCommand 0x000000FF#32 = .ok (.filterUndef .u8 false) := by decide
theorem test_decode_filterPass : decodeCommand 0x00001100#32 = .ok (.filterPass .u16 true) := by decide
theorem test_decode_filterClamp1 : decodeCommand 0x00000101#32 = .ok (.filterClamp1 .u16 false) := by decide
theorem test_decode_filterClamp2 : decodeCommand 0x00000002#32 = .ok (.filterClamp2 .u8 false) := by decide
theorem test_decode_filterClamp3 : decodeCommand 0x00000203#32 = .ok (.filterClamp3 .f32 false) := by decide
theorem test_decode_filterClamp4 : decodeCommand 0x00000204#32 = .ok (.filterClamp4 .f32 false) := by decide
theorem test_decode_filterMean8 : decodeCommand 0x00001213#32 = .ok (.filterMean8 .f32 true) := by decide
theorem test_decode_filterMean9 : decodeCommand 0x00000114#32 = .ok (.filterMean9 .u16 false) := by decide
theorem test_decode_filterMedian8 : decodeCommand 0x00000040#32 = .ok (.filterMedian8 .u8 false) := by decide
theorem test_decode_vmin : decodeUop 0x0000000001040301#64 = .ok (.vmin .u8 3 1 2) := by decide
theorem test_decode_vmax : decodeUop 0x0000000001040382#64 = .ok (.vmax .f32 3 1 2) := by decide
theorem test_decode_vsortp : decodeUop 0x0000000009425003#64 = .ok (.vsortp .u8 16 18 16 18) := by decide
theorem test_decode_vclip : decodeUop 0x0000000178001F04#64 = .ok (.vclip .u8 31 0 16 23) := by decide
theorem test_decode_vabsdiff : decodeUop 0x0000000001040545#64 = .ok (.vabsdiff .u16 5 1 2) := by decide
theorem test_decode_vseleq : decodeUop 0x0000000831040506#64 = .ok (.vseleq .u8 5 1 2 3 4) := by decide
theorem test_decode_vblend : decodeUop 0x0000000020980507#64 = .ok (.vblend .u8 5 6 1 2) := by decide
theorem test_decode_vloadu : decodeUop 0x0000060000000848#64 = .ok (.vloadu .u16 8 8 true) := by decide
theorem test_decode_vloada : decodeUop 0x0000010000000409#64 = .ok (.vloada .u8 4 4) := by decide
theorem test_decode_vstoreu : decodeUop 0x00000400007C008A#64 = .ok (.vstoreu .f32 31 true) := by decide
theorem test_decode_kmedavg : decodeUop 0x000000000A4C1F10#64 = .ok (.kmedavg .u8 31 19 20) := by decide
theorem test_decode_kmean8 : decodeUop 0x0000000000001F91#64 = .ok (.kmean8 .f32 31) := by decide
theorem test_decode_kmean9 : decodeUop 0x0000000000001F52#64 = .ok (.kmean9 .u16 31) := by decide

/-- A word is rejected. -/
def rejected (r : Except Reject Instr) : Bool :=
  match r with
  | .ok _ => false
  | .error _ => true

/-- V-E2: the illegal command words. -/
theorem test_decode_illegal_commands :
    [0x00000005#32, 0x00000012#32, 0x00000041#32, 0x0000007F#32, 0x00000080#32, 0x000000FE#32, 0x00000340#32,
      0x00000440#32, 0x00000840#32, 0x00002040#32, 0x80000040#32].all (fun w => rejected (decodeCommand w)) = true := by
  decide

/-- V-E3: the reserved micro-op words, each with its reason. -/
theorem test_decode_reserved_uops :
    [0x0000000000000000#64, 0x00000000000000C1#64, 0x0000024000000108#64, 0x0000040000000109#64,
      0x0000000001042103#64, 0x0000080001040301#64, 0x0000000001042301#64].map decodeUop =
    [.error .reservedOp, .error .reservedFormat, .error .reservedNeighbour, .error .scalarAlignedLoad,
      .error .sameDestinations, .error .reservedUopBits, .error .unusedField] := by decide

theorem test_tableWord_command : decodeTableWord 32 0x1213 = some (.filterMean8 .f32 true) := by decide

theorem test_tableWord_uop : decodeTableWord 64 0x9425003 = some (.vsortp .u8 16 18 16 18) := by decide

/-- Assembler text as V-E1 and V-E3 write it. -/
theorem test_asm :
    [(Instr.filterMean8 .f32 true).asm, (Instr.vloadu .u16 8 8 true).asm, (Instr.vsortp .u8 16 17 1 2).asm] =
      ["filter.mean8.f32 align", "vloadu.u16.s v8, nb8", "vsortp.u8 v16, v17, v1, v2"] := by decide +kernel

/-! ### States for the tests -/

/-- The answer is a next state with a property. -/
def nextSat (o : Outcome State) (p : State → Bool) : Bool :=
  match o with
  | .next t => p t
  | .fault _ => false
  | .refused _ => false

/-- The fault an outcome is. -/
def faultOf (o : Outcome State) : Option Fault :=
  match o with
  | .next _ => none
  | .fault f => some f
  | .refused _ => none

theorem nextSat_exists {o : Outcome State} {p : State → Bool} (h : nextSat o p = true) :
    ∃ t, o = .next t ∧ p t = true := by
  cases o with
  | next t => exact ⟨t, rfl, h⟩
  | fault f => cases h
  | refused r => cases h

theorem eq_fault_of_faultOf {o : Outcome State} {f : Fault} (h : faultOf o = some f) : o = .fault f := by
  cases o with
  | next t => cases h
  | fault g => cases h; rfl
  | refused r => cases h

/-- A vector from its lanes, lane 0 first, `w` bits a lane. -/
def vec (w : Nat) (lanes : List Nat) : Vec := BitVec.ofNat 128 (lanes.foldr (fun x acc => x + 2 ^ w * acc) 0)

/-- The lanes of a vector register. -/
def lanesOf (fmt : Fmt) (r : VReg) (t : State) : List Nat :=
  (List.range fmt.lanes).map fun i => (lane fmt (t.vreg r) i).toNat

/-- Vector registers V0, V1, ... hold the given vectors. -/
def vecState (vs : List Vec) : State :=
  { State.reset with v := Vector.ofFn fun i : Fin 32 => vs.getD i.val 0 }

/-- Bytes in memory from an address on. -/
def putBytes (m : Memory) (a : Nat) (bytes : List Nat) : Memory :=
  match bytes with
  | [] => m
  | b :: rest => putBytes (m.write a (BitVec.ofNat 8 b)) (a + 1) rest

/-- `n` bytes of memory from an address on. -/
def bytesAt (t : State) (a n : Nat) : List Nat := (List.range n).map fun k => (t.mem.read (a + k)).toNat

/-- The registers of V-D1's set-up B, with a geometry and strides of choice. -/
def baseRegs (w h srcStride dstStride : Word) : Regs :=
  { Regs.reset with
    srcBaseLo := 0x1000, dstBaseLo := 0x2000, srcStride := srcStride, dstStride := dstStride, width := w, height := h }

/-- The state of V-D1's set-up B: the grid of V-L1 at 0x1000, the destination filled with 0xEE. -/
def baseState : State :=
  { State.reset with
    regs := baseRegs 3 3 3 3
    mem := putBytes (putBytes [] 0x1000 [10, 20, 10, 20, 50, 20, 10, 20, 10]) 0x2000 (List.replicate 10 0xEE) }

/-- After the launch: the result is OK, 0x2000 holds the plane, and the byte after it is untouched. -/
def gridResult (plane : List Nat) (t : State) : Bool :=
  decide (t.result = .ok ∧ t.phase = .idle ∧ bytesAt t 0x2000 10 = plane ++ [0xEE])

/-! ### One launch of each command (V-R1, V-D1, V-D2) -/

theorem test_filterUndef_copies :
    nextSat (exec (.filterUndef .u8 false) baseState) (gridResult [10, 20, 10, 20, 50, 20, 10, 20, 10]) = true := by
  decide +kernel

theorem test_filterUndef_rejected :
    nextSat (exec (.filterUndef .u8 false)
      { baseState with params := { Params.initial with sentinelPolicy := .reject } })
      (fun t => t.result = .errMode && t.mem = baseState.mem) = true := by decide +kernel

theorem test_filterPass :
    nextSat (exec (.filterPass .u8 false) baseState) (gridResult [10, 20, 10, 20, 50, 20, 10, 20, 10]) = true := by
  decide +kernel

theorem test_filterPass_overlap :
    faultOf (exec (.filterPass .u8 false) { baseState with regs := { baseRegs 3 3 3 3 with dstBaseLo := 0x1004 } }) =
      some .overlap := by decide +kernel

theorem test_filterClamp1 :
    nextSat (exec (.filterClamp1 .u8 false) baseState) (gridResult [10, 20, 10, 20, 20, 20, 10, 20, 10]) = true := by
  decide +kernel

theorem test_filterClamp2 :
    nextSat (exec (.filterClamp2 .u8 false) baseState) (gridResult [10, 20, 10, 20, 20, 20, 10, 20, 10]) = true := by
  decide +kernel

/-- A plane at 0x1000 whose rows are `w` samples wide, with the destination at 0x2000. -/
def planeState (w h : Word) (bytes : List Nat) : State :=
  { baseState with regs := baseRegs w h w w, mem := putBytes [] 0x1000 bytes }

/-- V-R3: one row of three. -/
theorem test_filterClamp3 :
    nextSat (exec (.filterClamp3 .u8 false) (planeState 3 1 [10, 200, 30]))
      (fun t => bytesAt t 0x2000 4 = [10, 30, 30, 0]) = true := by decide +kernel

/-- V-R3: two by two. -/
theorem test_filterClamp4 :
    nextSat (exec (.filterClamp4 .u8 false) (planeState 2 2 [9, 8, 7, 6]))
      (fun t => bytesAt t 0x2000 5 = [8, 8, 7, 7, 0]) = true := by decide +kernel

theorem test_filterMean8 :
    nextSat (exec (.filterMean8 .u8 false) baseState) (gridResult [20, 19, 20, 19, 15, 19, 20, 19, 20]) = true := by
  decide +kernel

/-- V-D1 row 14: the destination stride is one byte short. -/
theorem test_filterMean8_geometry :
    nextSat (exec (.filterMean8 .u8 false) { baseState with regs := baseRegs 3 3 3 2 })
      (fun t => t.result = .errGeometry && t.mem = baseState.mem) = true := by decide +kernel

theorem test_filterMean9 :
    nextSat (exec (.filterMean9 .u8 false) baseState) (gridResult [19, 19, 19, 19, 19, 19, 19, 19, 19]) = true := by
  decide +kernel

theorem test_filterMedian8 :
    nextSat (exec (.filterMedian8 .u8 false) baseState) (gridResult [20, 15, 20, 15, 15, 15, 20, 15, 20]) = true := by
  decide +kernel

/-- V-D2 row 1: a false alignment assertion. -/
theorem test_filterMedian8_alignHint : faultOf (exec (.filterMedian8 .u8 true) baseState) = some .alignHint := by
  decide +kernel

/-! ### Micro-ops (V-P1 to V-P8, V-K1 to V-K3) -/

/-- The rows A and B of V-P1, in V1 and V2. -/
def p1State : State :=
  vecState [0,
    vec 8 [0x00, 0x11, 0x22, 0x33, 0x44, 0x55, 0x66, 0x77, 0x88, 0x99, 0xAA, 0xBB, 0xCC, 0xDD, 0xEE, 0xFF],
    vec 8 [0xF0, 0xE0, 0xD0, 0xC0, 0xB0, 0xA0, 0x90, 0x80, 0x70, 0x60, 0x50, 0x40, 0x30, 0x20, 0x10, 0x00]]

/-- Rows 2, 3, 4 and 8 of V-P3, in V1 and V2. -/
def p3State : State :=
  vecState [0, vec 32 [0x7FC00005, 0x3F800000, 0x80000000, 0xBFC00000],
    vec 32 [0x3F800000, 0xFFC00007, 0x00000000, 0xC0200000]]

theorem test_vmin_u8 :
    nextSat (exec (.vmin .u8 3 1 2) p1State) (fun t => lanesOf .u8 3 t =
      [0x00, 0x11, 0x22, 0x33, 0x44, 0x55, 0x66, 0x77, 0x70, 0x60, 0x50, 0x40, 0x30, 0x20, 0x10, 0x00]) = true := by
  decide +kernel

theorem test_vmin_f32 :
    nextSat (exec (.vmin .f32 3 1 2) p3State)
      (fun t => lanesOf .f32 3 t = [0x3F800000, 0xFFC00007, 0x00000000, 0xC0200000]) = true := by decide +kernel

theorem test_vmax_u8 :
    nextSat (exec (.vmax .u8 3 1 2) p1State) (fun t => lanesOf .u8 3 t =
      [0xF0, 0xE0, 0xD0, 0xC0, 0xB0, 0xA0, 0x90, 0x80, 0x88, 0x99, 0xAA, 0xBB, 0xCC, 0xDD, 0xEE, 0xFF]) = true := by
  decide +kernel

theorem test_vmax_f32 :
    nextSat (exec (.vmax .f32 3 1 2) p3State)
      (fun t => lanesOf .f32 3 t = [0x3F800000, 0xFFC00007, 0x00000000, 0xBFC00000]) = true := by decide +kernel

/-- The destinations are the sources: both are read first (R136). -/
theorem test_vsortp_in_place :
    nextSat (exec (.vsortp .f32 2 1 1 2) p3State) (fun t =>
      lanesOf .f32 2 t = [0x3F800000, 0xFFC00007, 0x00000000, 0xC0200000] &&
        lanesOf .f32 1 t = [0x3F800000, 0xFFC00007, 0x00000000, 0xBFC00000]) = true := by decide +kernel

theorem test_vsortp_same_destinations : faultOf (exec (.vsortp .u8 1 1 1 2) p1State) = some .reservedUop := by
  decide +kernel

/-- V-P4, its U16 row and U8 rows widened; lo > hi gives hi. -/
theorem test_vclip_u16 :
    nextSat (exec (.vclip .u16 31 0 1 2)
      (vecState [vec 16 [50, 5, 15, 50, 0x8000], vec 16 [10, 10, 10, 60, 1], vec 16 [20, 20, 20, 20, 0x7FFF]]))
      (fun t => lanesOf .u16 31 t = [20, 10, 15, 20, 0x7FFF, 0, 0, 0]) = true := by decide +kernel

/-- V-P4's F32 rows. -/
theorem test_vclip_f32 :
    nextSat (exec (.vclip .f32 31 0 1 2)
      (vecState [vec 32 [0x7FC00000, 0x40400000, 0x40400000, 0x80000000],
        vec 32 [0x3F800000, 0x7FC00001, 0x3F800000, 0x00000000],
        vec 32 [0x40A00000, 0x40A00000, 0x7FC00002, 0x3F800000]]))
      (fun t => lanesOf .f32 31 t = [0x3F800000, 0x40A00000, 0x7FC00002, 0x00000000]) = true := by decide +kernel

theorem test_vabsdiff_u8 :
    nextSat (exec (.vabsdiff .u8 5 1 2) p1State) (fun t => lanesOf .u8 5 t =
      [0xF0, 0xCF, 0xAE, 0x8D, 0x6C, 0x4B, 0x2A, 0x09, 0x18, 0x39, 0x5A, 0x7B, 0x9C, 0xBD, 0xDE, 0xFF]) = true := by
  decide +kernel

/-- V-P5's rows whose result is a number. -/
theorem test_vabsdiff_f32 :
    nextSat (exec (.vabsdiff .f32 5 1 2)
      (vecState [0, vec 32 [0x3F800000, 0x80000000, 0x7F61B1E6, 0x3DCCCCCD],
        vec 32 [0x40600000, 0x00000000, 0xFF61B1E6, 0x3E4CCCCD]]))
      (fun t => lanesOf .f32 5 t = [0x40200000, 0, 0x7F800000, 0x3DCCCCCD] && t.draws = 64) = true := by decide +kernel

theorem test_vseleq_u8 :
    nextSat (exec (.vseleq .u8 5 1 2 3 4)
      (vecState [0, vec 8 [5, 6, 7, 8], vec 8 [5, 0, 7, 0], vec 8 [0x11, 0x11, 0x11, 0x11],
        vec 8 [0x22, 0x22, 0x22, 0x22]]))
      (fun t => (lanesOf .u8 5 t).take 4 = [0x11, 0x22, 0x11, 0x22]) = true := by decide +kernel

/-- V-P6: a NaN is not equal to itself, +0 equals -0. -/
theorem test_vseleq_f32 :
    nextSat (exec (.vseleq .f32 5 1 2 3 4)
      (vecState [0, vec 32 [0x7FC00000, 0, 0x3F800000, 1], vec 32 [0x7FC00000, 0x80000000, 0x3F800000, 2],
        vec 32 [1, 1, 1, 1], vec 32 [2, 2, 2, 2]]))
      (fun t => lanesOf .f32 5 t = [2, 1, 1, 2]) = true := by decide +kernel

/-- V-P7. -/
theorem test_vblend_u8 :
    nextSat (exec (.vblend .u8 5 6 1 2)
      { p1State with v := p1State.v.set 6 (vec 8 [0x80, 0x7F, 0xFF, 0, 0x80, 0x7F, 0xFF, 0, 0x80, 0x7F, 0xFF, 0,
        0x80, 0x7F, 0xFF, 0]) })
      (fun t => lanesOf .u8 5 t =
        [0x00, 0xE0, 0x22, 0xC0, 0x44, 0xA0, 0x66, 0x80, 0x88, 0x60, 0xAA, 0x40, 0xCC, 0x20, 0xEE, 0x00]) = true := by
  decide +kernel

theorem test_vblend_f32 :
    nextSat (exec (.vblend .f32 5 0 1 2)
      (vecState [vec 32 [0x80000000, 0x7FC00000, 0, 0xFFFFFFFF], vec 32 [1, 1, 1, 1], vec 32 [2, 2, 2, 2]]))
      (fun t => lanesOf .f32 5 t = [1, 2, 2, 1]) = true := by decide +kernel

/-- The plane of V-P8 during a launch, with the cursor where the test wants it; memory holds at 0x1000 + k the byte
k + 1 for k below 96. -/
def loadState (y x : Nat) : State :=
  { State.reset with
    latch :=
      { Latch.cleared with
        srcBase := 0x1000, dstBase := 0x2000, srcStride := 32, dstStride := 32, width := 20, height := 4 }
    cursor := { y := y, x := x }
    mem := putBytes [] 0x1000 ((List.range 96).map (· + 1)) }

/-- V-P8: the scalar NE load at (0, 0) reads the clamped address 0x1001 into lane 0 alone. -/
theorem test_vloadu_scalar :
    nextSat (exec (.vloadu .u8 3 3 true) (loadState 0 0))
      (fun t => lanesOf .u8 3 t = 2 :: List.replicate 15 0) = true := by decide +kernel

/-- V-P8: the SE load of the vector unit at (1, 1) reads the 16 bytes at 0x1042. -/
theorem test_vloadu_vector :
    nextSat (exec (.vloadu .u8 8 8 false) (loadState 1 1))
      (fun t => lanesOf .u8 8 t = (List.range 16).map (· + 0x43)) = true := by decide +kernel

/-- V-P8: the W load of the vector unit at (1, 1) is at 0x1020. -/
theorem test_vloada_aligned :
    nextSat (exec (.vloada .u8 4 4) (loadState 1 1))
      (fun t => lanesOf .u8 4 t = (List.range 16).map (· + 0x21)) = true := by decide +kernel

/-- V-P8: the centre load at (1, 1) would be at 0x1021. -/
theorem test_vloada_unaligned : faultOf (exec (.vloada .u8 0 0) (loadState 1 1)) = some .alignHint := by decide +kernel

/-- V-P8: the store of the unit at (1, 1) writes 16 bytes at 0x2021. -/
theorem test_vstoreu_vector :
    nextSat (exec (.vstoreu .u8 1 false) { loadState 1 1 with v := p1State.v })
      (fun t => bytesAt t 0x2020 18 =
        [0, 0x00, 0x11, 0x22, 0x33, 0x44, 0x55, 0x66, 0x77, 0x88, 0x99, 0xAA, 0xBB, 0xCC, 0xDD, 0xEE, 0xFF,
          0]) = true := by decide +kernel

/-- A scalar U16 store writes two bytes, the low one first, at DA(2, 1) = 0x2024. -/
theorem test_vstoreu_scalar :
    nextSat (exec (.vstoreu .u16 1 true) { loadState 1 2 with v := (vecState [0, vec 16 [0x1234, 0x5678]]).v })
      (fun t => bytesAt t 0x2023 4 = [0, 0x34, 0x12, 0]) = true := by decide +kernel

/-- V-K1 and V-K4: halves round up. -/
theorem test_kmedavg_u8 :
    nextSat (exec (.kmedavg .u8 31 19 20)
      { State.reset with v := (vectorReset.set 19 (vec 8 [0, 254, 10, 4])).set 20 (vec 8 [1, 255, 20, 5]) })
      (fun t => (lanesOf .u8 31 t).take 4 = [1, 255, 15, 5] && t.draws = 0) = true := by decide +kernel

/-- V-K3: the even median, the overflow, the tie to even, an infinity. -/
theorem test_kmedavg_f32 :
    nextSat (exec (.kmedavg .f32 31 19 20)
      { State.reset with
        v := (vectorReset.set 19 (vec 32 [0x3F800000, 0x7F61B1E6, 0, 0x7F800000])).set 20
          (vec 32 [0x40000000, 0x7F61B1E6, 1, 0x7F800000]) })
      (fun t => lanesOf .f32 31 t = [0x3FC00000, 0x7F800000, 0, 0x7F800000]) = true := by decide +kernel

/-- V0 and V1..V8 of four U16 neighbourhoods of V-K2 and V-K1. -/
def k2State : State :=
  vecState [vec 16 [65535, 65535, 100, 200], vec 16 [65535, 65535, 65535, 1], vec 16 [65535, 65535, 65535, 2],
    vec 16 [65535, 65535, 65535, 3], vec 16 [65535, 65535, 65535, 4], vec 16 [65535, 0, 0, 5],
    vec 16 [65535, 0, 0, 6], vec 16 [65535, 0, 0, 7], vec 16 [65535, 0, 0, 8]]

/-- V0 and V1..V8 of four F32 neighbourhoods of V-K3: 1.0 to 8.0, one infinity, 0.1, subnormals. -/
def k3State : State :=
  vecState (vec 32 [0x3F800000, 0, 0x3DCCCCCD, 1] :: vec 32 [0x3F800000, 0x7F800000, 0x3DCCCCCD, 1] ::
    [0x40000000, 0x40400000, 0x40800000, 0x40A00000, 0x40C00000, 0x40E00000, 0x41000000].map fun x =>
      vec 32 [x, 0x3F800000, 0x3DCCCCCD, 1])

theorem test_kmean8_u16 :
    nextSat (exec (.kmean8 .u16 31) k2State)
      (fun t => (lanesOf .u16 31 t).take 4 = [65535, 32768, 32768, 5]) = true := by decide +kernel

theorem test_kmean8_f32 :
    nextSat (exec (.kmean8 .f32 31) k3State)
      (fun t => lanesOf .f32 31 t = [0x40900000, 0x7F800000, 0x3DCCCCCD, 1]) = true := by decide +kernel

theorem test_kmean9_u16 :
    nextSat (exec (.kmean9 .u16 31) k2State)
      (fun t => (lanesOf .u16 31 t).take 4 = [65535, 36408, 29138, 26]) = true := by decide +kernel

/-- The last lane by hand: 9 units of 2^-149 over 9.0 is one unit. -/
theorem test_kmean9_f32 :
    nextSat (exec (.kmean9 .f32 31) k3State)
      (fun t => lanesOf .f32 31 t = [0x40838E39, 0x7F800000, 0x3DCCCCCD, 1]) = true := by decide +kernel

/-! ### The bus and the step (V-E4, V-H1, V-D1) -/

/-- The next step is the host's access. -/
def hostState (a : Access) (s : State) : State := { s with host := [some a] }

/-- An idle engine with a valid 3 by 3 U8 or U16 descriptor whose rows are 32 bytes apart. -/
def wideState : State := { baseState with regs := baseRegs 3 3 32 32 }

/-- A launch of the median over that descriptor stands before its first unit. -/
def busyState : State :=
  { wideState with
    phase := .busy
    regs := (baseRegs 3 3 32 32).write .cmd 0x40
    latch := latchOf .median8 .u8 false (baseRegs 3 3 32 32)
    hostResponse := .stalled }

theorem test_step_command :
    nextSat (step (hostState (wr Params.initial .cmd 0x14) baseState)) (fun t =>
      gridResult [19, 19, 19, 19, 19, 19, 19, 19, 19] t && t.hostResponse = .done && t.regs.cmd = 0x14) = true := by
  decide +kernel

theorem test_step_illegal_command :
    nextSat (step (hostState (wr Params.initial .cmd 0x340) State.reset)) (fun t =>
      t.readReg .cmd = 0x340 && t.readReg .status = 2) = true := by decide +kernel

theorem test_step_uop :
    nextSat (step { p1State with uopWord := some 0x01040301 }) (fun t =>
      (lanesOf .u8 3 t).take 2 = [0x00, 0x11] && t.uopWord = none) = true := by decide +kernel

theorem test_withFetchWord_command :
    nextSat (step (State.reset.withFetchWord 32 0x40))
      (fun t => t.readReg .status = 3 && t.readReg .cmd = 0x40) = true := by decide +kernel

theorem test_withFetchWord_uop :
    nextSat (step (State.reset.withFetchWord 64 0x1F91)) (fun t => t.draws = 64) = true := by decide +kernel

theorem test_status_while_busy :
    nextSat (access .others (rd Params.initial .status) busyState) (fun t =>
      t.othersResponse = .data 0x80000000) = true := by decide +kernel

theorem test_reserved_offset :
    nextSat (access .host (.regRead 0x40 4) State.reset) (fun t => t.hostResponse = .data 0) = true := by decide +kernel

theorem test_narrow_access : faultOf (access .host (.regWrite 0x00 2 5) State.reset) = some .regAccess := by
  decide +kernel

theorem test_unaligned_access : faultOf (access .host (.regRead 0x02 4) State.reset) = some .regAccess := by
  decide +kernel

theorem test_concurrent_write : faultOf (access .others (.memWrite 0x1042 0) busyState) = some .concurrentAccess := by
  decide +kernel

/-- A unit whose register block starts at 0x100. -/
def movedState : State := { State.reset with params := { Params.initial with regBase := 0x100 } }

/-- R35: accesses that start below the block and reach into it; a word that ends below it does not. -/
theorem test_access_into_the_block :
    faultOf (access .host (.regRead 0xFC 8) movedState) = some .regAccess ∧
      faultOf (access .host (.regWrite 0xFE 4 0) movedState) = some .regAccess ∧
      nextSat (access .host (.regRead 0xFC 4) movedState) (fun t => t.hostResponse = .unclaimed) = true := by
  decide +kernel

/-- Another master's launch stands before its first unit, and the host wants to issue a command and to read STATUS. -/
def lostRaceState : State :=
  { busyState with
    issuer := .others
    hostResponse := .none
    host := [some (wr Params.initial .cmd 0x13), some (rd Params.initial .status)] }

/-- R284 (6): the host's command is turned away, and its read of STATUS shows BUSY. -/
theorem test_host_loses_the_race :
    nextSat (step lostRaceState) (fun t =>
      t.regs.cmd = 0x40 && t.latch.mode = .median8 &&
        nextSat (step t) (fun u => u.phase = .busy && u.hostResponse = .data 0x80000000)) = true := by decide +kernel

/-- V-R4: U8, W = 20, H = 4. -/
theorem test_unit_count :
    (planeUnits { Latch.cleared with width := 20, height := 4 }).length = 50 := by decide +kernel

/-! ### Witnesses: for every statement with hypotheses, a concrete case that meets them -/

/-- The bytes of a plane at a base with rows 32 bytes apart. -/
theorem plane_bounds {base : Int} {cols rows ps x y k : Nat} (hx : x < cols) (hy : y < rows) (hk : k < ps)
    (hps : ps = 1 ∨ ps = 2 ∨ ps = 4) (hw : cols * ps ≤ 32) (hh : rows ≤ 100) :
    base ≤ base + (y : Int) * 32 + (x : Int) * (ps : Int) + k ∧
      base + (y : Int) * 32 + (x : Int) * (ps : Int) + k < base + 3200 := by
  rcases hps with rfl | rfl | rfl <;> constructor <;> push_cast <;> omega

theorem ps_cases (fmt : Fmt) : fmt.ps = 1 ∨ fmt.ps = 2 ∨ fmt.ps = 4 := by cases fmt <;> simp [Fmt.ps]

/-- A descriptor with the source at 0x1000, the destination at 0x2000, both strides 32, and a small geometry. -/
structure SmallLatch (ld : Latch) : Prop where
  src : ld.srcBase.toNat = 0x1000
  dst : ld.dstBase.toNat = 0x2000
  srcStride : ld.srcStride.toInt = 32
  dstStride : ld.dstStride.toInt = 32
  w_pos : 0 < ld.w
  w_le : ld.w * (ld.fmt.ps : Int) ≤ 32
  h_pos : 0 < ld.h
  h_le : ld.h ≤ 100

theorem SmallLatch.rs_bounds {ld : Latch} (h : SmallLatch ld) {a : Int} (ha : InRS ld a) :
    0x1000 ≤ a ∧ a < 0x1000 + 3200 := by
  obtain ⟨x, y, k, hx, hy, hk, rfl⟩ := ha
  have hw := h.w_pos
  have hh := h.h_pos
  have hle := h.h_le
  have hwl := h.w_le
  have hc : (ld.cols : Int) = ld.w := Int.toNat_of_nonneg (by omega)
  have hr : (ld.rows : Int) = ld.h := Int.toNat_of_nonneg (by omega)
  have hcl : ld.cols * ld.fmt.ps ≤ 32 := by
    rw [← hc] at hwl
    exact_mod_cast hwl
  have hb := plane_bounds (base := 0x1000) hx hy hk (ps_cases ld.fmt) hcl (by omega)
  rw [srcAddr, h.src, h.srcStride]
  exact hb

theorem SmallLatch.ws_bounds {ld : Latch} (h : SmallLatch ld) {a : Int} (ha : InWS ld a) :
    0x2000 ≤ a ∧ a < 0x2000 + 3200 := by
  obtain ⟨x, y, k, hx, hy, hk, rfl⟩ := ha
  have hw := h.w_pos
  have hh := h.h_pos
  have hle := h.h_le
  have hwl := h.w_le
  have hc : (ld.cols : Int) = ld.w := Int.toNat_of_nonneg (by omega)
  have hr : (ld.rows : Int) = ld.h := Int.toNat_of_nonneg (by omega)
  have hcl : ld.cols * ld.fmt.ps ≤ 32 := by
    rw [← hc] at hwl
    exact_mod_cast hwl
  have hb := plane_bounds (base := 0x2000) hx hy hk (ps_cases ld.fmt) hcl (by omega)
  rw [dstAddr, h.dst, h.dstStride]
  exact hb

theorem SmallLatch.geometry {ld : Latch} (h : SmallLatch ld) : ValidGeometry ld :=
  ⟨h.w_pos, h.h_pos, by rw [h.srcStride]; exact h.w_le, by rw [h.dstStride]; exact h.w_le⟩

theorem SmallLatch.valid {ld : Latch} (h : SmallLatch ld) : ValidLaunch Params.initial ld := by
  refine ⟨h.geometry, fun _ y _ => ?_, ?_, ?_, ?_⟩
  · simp only [srcAddr, h.src, h.srcStride]
    omega
  · rintro a ⟨h₁, h₂⟩
    have := h.rs_bounds h₁
    have := h.ws_bounds h₂
    omega
  · intro a ha
    have hm : (memorySize : Int) = 2 ^ 64 := rfl
    rw [hm]
    rcases ha with ha | ha
    · have := h.rs_bounds ha
      constructor <;> omega
    · have := h.ws_bounds ha
      constructor <;> omega
  · intro a _ r hr
    cases hr

/-- A 20 by 3 plane, which has one vector unit for U8. -/
def vectorPlaneState : State := { baseState with regs := baseRegs 20 3 32 32 }

theorem wide_small (m : Mode) (fmt : Fmt) (al : Bool) (h : fmt ≠ .f32) :
    SmallLatch (latchOf m fmt al (baseRegs 3 3 32 32)) := by
  have hw : (3 : Int) = (latchOf m fmt al (baseRegs 3 3 32 32)).w := rfl
  have hh : (3 : Int) = (latchOf m fmt al (baseRegs 3 3 32 32)).h := rfl
  refine ⟨by rfl, by rfl, by rfl, by rfl, by rw [← hw]; decide, ?_, by rw [← hh]; decide, by rw [← hh]; decide⟩
  rw [← hw]
  cases fmt with
  | u8 => exact (by decide : (3 : Int) * (1 : Nat) ≤ 32)
  | u16 => exact (by decide : (3 : Int) * (2 : Nat) ≤ 32)
  | f32 => exact absurd rfl h

theorem vectorPlane_small (m : Mode) (al : Bool) : SmallLatch (latchOf m .u8 al (baseRegs 20 3 32 32)) :=
  ⟨by rfl, by rfl, by rfl, by rfl, (by decide : (0 : Int) < 20), (by decide : (20 : Int) * (1 : Nat) ≤ 32),
    (by decide : (0 : Int) < 3), (by decide : (3 : Int) ≤ 100)⟩

theorem accepted_initial (m : Mode) : Accepted Params.initial m := fun _ => rfl

theorem busy_inv : Inv busyState := by
  refine ⟨by decide +kernel, by decide +kernel, ?_, ?_, ?_, ?_, ?_⟩
  · intro h; cases h
  · exact fun _ => ⟨(wide_small _ _ _ (by decide)).valid, fun h => by cases h⟩
  · exact fun _ => rfl
  · exact fun _ => by decide
  · exact ⟨fun _ => ⟨rfl, rfl⟩, fun _ => rfl⟩

theorem host_turn (a : Access) : HostTurn a [] (hostState a wideState) :=
  ⟨rfl, (fun h => by cases h.1), (fun _ h => by cases h), rfl⟩

/-! Encoding. -/

theorem witness_DecodeOfEncodeIsIdentity :
    (Instr.vsortp .u16 31 0 31 0).wellFormed = true ∧ (Instr.filterUndef .f32 true).wellFormed = true := by decide

theorem witness_EncodeOfDecodeIsIdentity :
    decode (.command 0x000012FF#32) = .ok (.filterUndef .f32 true) ∧
      decode (.microOp 0x0000003FFFFC1F86#64) = .ok (.vseleq .f32 31 31 31 31 31) := by decide

theorem witness_CommandSelectedByMatchAndMask :
    0x000012FF#32 &&& 0xFFFFECFF#32 = (BitVec.ofInt 8 Mode.undef.number).setWidth 32 ∧
      ∀ m : Mode, 0x00000005#32 &&& 0xFFFFECFF#32 ≠ (BitVec.ofInt 8 m.number).setWidth 32 := by
  refine ⟨by decide, fun m => ?_⟩
  cases m <;> decide

theorem witness_IllegalCommandEndsWithErrMode :
    ∃ s w r, State.phase s = .idle ∧ decodeCommand w = .error r :=
  ⟨wideState, 0x80000040, .reservedCommandBits, rfl, by decide⟩

theorem witness_ReservedMicroOpFaults :
    (∃ s u, State.uopWord s = some u ∧ ReservedUop (uopFields u)) ∧
      ∃ i, i ∈ unitProgram .t2 (latchOf .median8 .u8 true (baseRegs 20 3 32 32)) true ∧ i = .vloada .u8 4 4 :=
  ⟨⟨{ State.reset with uopWord := some 0x24000000108 }, 0x24000000108, rfl,
    .inr (.inr (.inr (.inl (by decide))))⟩, _, by decide, rfl⟩

/-! Steps. -/

theorem witness_StepRunsTheDecodedInstruction :
    (∃ s u i, State.uopWord s = some u ∧ decodeUop u = .ok i) ∧
    (∃ s w rest i, State.phase s = .idle ∧ HostTurn (.regWrite s.params.regBase 4 w) rest s ∧
      decodeCommand w = .ok i) ∧
      ∃ s w rest i, State.phase s = .idle ∧ OtherTurn (.regWrite s.params.regBase 4 w) rest s ∧
        decodeCommand w = .ok i :=
  ⟨⟨{ p1State with uopWord := some 0x01040301 }, 0x01040301, .vmin .u8 3 1 2, rfl, by decide⟩,
    ⟨hostState (wr Params.initial .cmd 0x40) wideState, 0x40, [], .filterMedian8 .u8 false, rfl, host_turn _,
      by decide⟩,
    { wideState with others := [some (.regWrite 0 4 0x40)] }, 0x40, [], .filterMedian8 .u8 false, rfl, ⟨rfl, rfl⟩,
    by decide⟩

/-- Another master's turn; the host's, from an idle engine and during a launch of another master; the launch's, the
host being stalled by it or letting the turn pass; nobody's. -/
theorem witness_StepTakesTheTurnDue :
    OtherTurn .reset [none] { wideState with others := [some .reset, none] } ∧
      HostTurn .reset [] (hostState .reset wideState) ∧
      HostTurn (.regRead 4 4) [] (hostState (.regRead 4 4) { busyState with issuer := .others }) ∧
      NoAccessDue (hostState (.regRead 4 4) busyState) ∧
      NoAccessDue { busyState with issuer := .others, host := [none, some (.regRead 4 4)] } ∧
      busyState.phase = .busy ∧ NoAccessDue wideState ∧ wideState.phase = .idle :=
  ⟨⟨rfl, rfl⟩, host_turn _, ⟨rfl, (fun h => by cases h.2), (fun _ h => by cases h), rfl⟩,
    ⟨rfl, (fun _ h => by cases h), .inl ⟨rfl, rfl⟩⟩, ⟨rfl, (fun _ h => by cases h), .inr fun _ h => by cases h⟩, rfl,
    ⟨rfl, (fun _ h => by cases h), .inr fun _ h => by cases h⟩, rfl⟩

theorem witness_IdleStepChangesNothing :
    State.reset.uopWord = none ∧ State.reset.others = [] ∧ State.reset.phase = .idle ∧ State.reset.host = [] :=
  ⟨rfl, rfl, rfl, rfl⟩

/-! The register block and the bus. -/

theorem witness_DescriptorWriteChangesItsRegister :
    RegName.height ≠ .cmd ∧ RegName.height ≠ .status ∧
      nextSat (access .host (.regWrite 0x24 4 0xFFFFFFFD) busyState)
        (fun t => t.readReg .height = 0xFFFFFFFD && t.latch = busyState.latch) = true := by decide +kernel

theorem witness_CommandWhileBusyIsNotAccepted : busyState.phase = .busy := rfl

/-- The first and the last reserved offset. -/
theorem witness_ReservedOffsetsReadZero :
    (0x28 ≤ 0x28 ∧ 0x28 < 0x100 ∧ 0x28 % 4 = 0) ∧ 0x28 ≤ 0xFC ∧ 0xFC < 0x100 ∧ 0xFC % 4 = 0 := by decide

/-- At REG_BASE 0x100: a wide access at the last word, one of no bytes, a word at the last byte, and a wide and a
misaligned access that start below the block and reach its first byte. -/
theorem witness_MisfitRegisterAccessFaults :
    (0x1FC < 0x100 + 0x100 ∧ 0x100 ≤ 0x1FC ∧ 8 ≠ 4) ∧ (0x100 < 0x100 + 0x100 ∧ 0x100 ≤ 0x100 ∧ 0 ≠ 4) ∧
      (0x1FF < 0x100 + 0x100 ∧ 0x100 ≤ 0x1FF ∧ (0x1FF - 0x100) % 4 ≠ 0) ∧
      (0xFC < 0x100 + 0x100 ∧ 0x100 < 0xFC + 8 ∧ 8 ≠ 4) ∧ 0xFE < 0x100 + 0x100 ∧ 0x100 < 0xFE + 4 ∧ 0xFE < 0x100 := by
  decide

/-- The first byte of RS, the last of WS, and bytes beside them. -/
theorem witness_BuffersBelongToTheLaunch :
    busyState.phase = .busy ∧ InRS busyState.latch 0x1000 ∧ InWS busyState.latch 0x2042 ∧
      (¬InRS busyState.latch 0xFFF ∧ ¬InWS busyState.latch 0xFFF) ∧ ¬InWS busyState.latch 0x1000 := by
  have h : SmallLatch busyState.latch := wide_small _ _ _ (by decide)
  refine ⟨rfl, ⟨0, 0, 0, by decide, by decide, by decide, by decide⟩,
    ⟨2, 2, 0, by decide, by decide, by decide, by decide⟩, ⟨fun ha => ?_, fun ha => ?_⟩, fun ha => ?_⟩
  · have := h.rs_bounds ha; omega
  · have := h.ws_bounds ha; omega
  · have := h.ws_bounds ha; omega

/-! Reset. -/

theorem witness_ResetClearsTheUnit :
    wideState.phase = .idle ∧ busyState.phase = .busy ∧ Inv busyState ∧ ¬InWS busyState.latch (0x2003 : Nat) ∧
      busyState.issuer = .host := by
  refine ⟨rfl, rfl, busy_inv, ?_, rfl⟩
  rintro ⟨x, y, k, hx, hy, hk, e⟩
  have hc : busyState.latch.cols = 3 := rfl
  have hr : busyState.latch.rows = 3 := rfl
  have hp : busyState.latch.fmt.ps = 1 := rfl
  have hb : busyState.latch.dstBase.toNat = 0x2000 := rfl
  have hs : busyState.latch.dstStride.toInt = 32 := rfl
  rw [dstAddr, hp, hb, hs] at e
  push_cast at e
  omega

/-! Dispatch. -/

theorem witness_RejectedSentinelEndsWithErrMode :
    ∃ s, State.phase s = .idle ∧ s.params.sentinelPolicy = .reject :=
  ⟨{ State.reset with params := { Params.initial with sentinelPolicy := .reject } }, rfl, rfl⟩

/-- Each of the four ways, at its boundary. -/
theorem witness_InvalidGeometryEndsWithErrGeometry :
    baseState.phase = .idle ∧ Accepted baseState.params .median8 ∧
      (baseRegs 0 3 3 3).width.toInt ≤ 0 ∧ (baseRegs 3 0 3 3).height.toInt ≤ 0 ∧
      (baseRegs 3 3 2 3).srcStride.toInt < (baseRegs 3 3 2 3).width.toInt * (Fmt.u8.ps : Int) ∧
      (baseRegs 3 3 3 2).dstStride.toInt < (baseRegs 3 3 3 2).width.toInt * (Fmt.u8.ps : Int) :=
  ⟨rfl, accepted_initial _, by decide, by decide, by decide, by decide⟩

/-- V-D2 row 3: the destination starts inside the source. -/
def overlapLatch : Latch := latchOf .median8 .u8 false { baseRegs 3 3 3 3 with dstBaseLo := 0x1004 }

/-- V-D2 row 5: the source passes the end of memory. -/
def outsideLatch : Latch :=
  latchOf .median8 .u8 false { baseRegs 3 3 3 3 with srcBaseLo := 0xFFFFFFFC, srcBaseHi := 0xFFFFFFFF }

theorem outsideLatch_disjoint : ¬∃ a, InRS outsideLatch a ∧ InWS outsideLatch a := by
  rintro ⟨a, ⟨x, y, k, _, _, _, e⟩, x', y', k', hx', hy', hk', e'⟩
  have h1 : outsideLatch.srcBase.toNat = 18446744073709551612 := rfl
  have h2 : outsideLatch.dstBase.toNat = 0x2000 := rfl
  have h3 : outsideLatch.srcStride.toInt = 3 := rfl
  have h4 : outsideLatch.dstStride.toInt = 3 := rfl
  have h5 : outsideLatch.fmt.ps = 1 := rfl
  have h6 : outsideLatch.cols = 3 := rfl
  have h7 : outsideLatch.rows = 3 := rfl
  rw [srcAddr, h1, h3, h5] at e
  rw [dstAddr, h2, h4, h5] at e'
  rw [h6] at hx'
  rw [h7] at hy'
  rw [h5] at hk'
  push_cast at e e'
  omega

/-- A false assertion; overlapping buffers; a source that passes the end of memory. -/
theorem witness_UndefinedLaunchesFault :
    (ValidGeometry (latchOf .median8 .u8 true (baseRegs 3 3 3 3)) ∧
      ∃ y : Nat, y < 3 ∧ srcAddr .u8 (latchOf .median8 .u8 true (baseRegs 3 3 3 3)) 0 y % 16 ≠ 0) ∧
    (ValidGeometry overlapLatch ∧ ∃ a, InRS overlapLatch a ∧ InWS overlapLatch a) ∧
    ValidGeometry outsideLatch ∧ (¬∃ a, InRS outsideLatch a ∧ InWS outsideLatch a) ∧
      ∃ a, (InRS outsideLatch a ∨ InWS outsideLatch a) ∧ (2 : Int) ^ 64 - 1 < a :=
  ⟨⟨⟨by decide, by decide, by decide, by decide⟩, 1, by decide, by decide⟩,
    ⟨⟨by decide, by decide, by decide, by decide⟩, 0x1004, ⟨1, 1, 0, by decide, by decide, by decide, by decide⟩,
      ⟨0, 0, 0, by decide, by decide, by decide, by decide⟩⟩,
    ⟨by decide, by decide, by decide, by decide⟩, outsideLatch_disjoint, 0x10000000000000000,
    .inl ⟨1, 1, 0, by decide, by decide, by decide, by decide⟩, by norm_num⟩

/-- A buffer whose last byte of WS is device memory, and no other undefined case. -/
theorem witness_UndefinedLaunchesFault_device :
    let ld := latchOf .median8 .u8 true (baseRegs 3 3 32 32)
    ValidGeometry ld ∧ (¬∃ y : Nat, y < ld.rows ∧ srcAddr .u8 ld 0 y % 16 ≠ 0) ∧ (¬∃ a, InRS ld a ∧ InWS ld a) ∧
      (¬∃ a, (InRS ld a ∨ InWS ld a) ∧ (2 : Int) ^ 64 - 1 < a) ∧
      ∃ a, (InRS ld a ∨ InWS ld a) ∧
        ∃ r ∈ [Region.mk 0x2042 1], (r.base : Int) ≤ a ∧ a < (r.base : Int) + r.size := by
  have h := wide_small .median8 .u8 true (by decide)
  refine ⟨h.geometry, ?_, fun ⟨a, ha⟩ => h.valid.disjoint a ha, ?_,
    0x2042, .inr ⟨2, 2, 0, by decide, by decide, by decide, by decide⟩, ⟨0x2042, 1⟩, by simp, by decide,
    by decide⟩
  · rintro ⟨y, hy, hm⟩
    exact hm (h.valid.aligned rfl y hy)
  · rintro ⟨a, ha, hlt⟩
    have hm : (memorySize : Int) = 2 ^ 64 := rfl
    have := (h.valid.in_memory a ha).2
    omega

/-- Another master's access due, and the host's when it is not the issuer. -/
theorem witness_AcceptedLaunchLatchesItsDescriptor :
    wideState.phase = .idle ∧ Accepted wideState.params .mean9 ∧
      ValidLaunch wideState.params (latchOf .mean9 .u16 true wideState.regs) ∧
      ({ wideState with others := [some (.regRead 4 4)] } : State).others = some (.regRead 4 4) :: [] ∧
      ({ hostState (.regRead 4 4) wideState with issuer := .others } : State).issuer = .others ∧
      NoOtherDue { hostState (.regRead 4 4) wideState with issuer := .others } ∧
      ({ hostState (.regRead 4 4) wideState with issuer := .others } : State).host = some (.regRead 4 4) :: [] :=
  ⟨rfl, accepted_initial _, (wide_small .mean9 .u16 true (by decide)).valid, rfl, rfl, (fun _ h => by cases h), rfl⟩

/-- No master acts before the launch ends: the host has issued it, or has nothing to do. -/
theorem wide_undisturbed (a : Access) :
    Undisturbed (hostState a wideState) ∧ Undisturbed { wideState with issuer := .others } :=
  ⟨⟨rfl, .inl rfl⟩, rfl, .inr rfl⟩

/-- The hypotheses of every statement about a valid launch that no master interrupts. -/
theorem witness_ValidLaunch (m : Mode) (fmt : Fmt) (al : Bool) (h : fmt ≠ .f32) :
    wideState.phase = .idle ∧ Undisturbed wideState ∧ wideState.uopWord = none ∧ Accepted wideState.params m ∧
      ValidLaunch wideState.params (latchOf m fmt al wideState.regs) :=
  ⟨rfl, ⟨rfl, .inl rfl⟩, rfl, fun _ => rfl, (wide_small _ _ _ h).valid⟩

theorem witness_ValidLaunchEndsWithOk :
    wideState.phase = .idle ∧ Undisturbed wideState ∧ wideState.uopWord = none ∧ Accepted wideState.params .undef ∧
      ValidLaunch wideState.params (latchOf .undef .u8 false wideState.regs) := witness_ValidLaunch _ _ _ (by decide)

theorem witness_LaunchWritesTheFilteredPlane :
    ValidLaunch wideState.params (latchOf .median8 .u16 true wideState.regs) ∧
      2 < (latchOf .median8 .u16 true wideState.regs).cols ∧ 2 < (latchOf .median8 .u16 true wideState.regs).rows :=
  ⟨(wide_small _ _ _ (by decide)).valid, by decide, by decide⟩

theorem witness_NoDataDependentErrors :
    (∃ t, exec (Instr.filter .clamp2 .u8 false) baseState = .next t) ∧
      ∃ t, exec (Instr.filter .clamp2 .u8 false) { baseState with mem := [] } = .next t := by
  have h₁ : nextSat (exec (Instr.filter .clamp2 .u8 false) baseState) (fun _ => true) = true := by decide +kernel
  have h₂ : nextSat (exec (Instr.filter .clamp2 .u8 false) { baseState with mem := [] }) (fun _ => true) = true := by
    decide +kernel
  obtain ⟨t, ht, _⟩ := nextSat_exists h₁
  obtain ⟨u, hu, _⟩ := nextSat_exists h₂
  exact ⟨⟨t, ht⟩, u, hu⟩

/-- Another memory that agrees on RS: one with a byte below it changed. -/
theorem witness_OutputDependsOnTheReadSetAlone :
    ValidLaunch wideState.params (latchOf .mean8 .u8 false wideState.regs) ∧
      ∀ a : Nat, InRS (latchOf .mean8 .u8 false wideState.regs) a →
        (wideState.mem.write 0xFFF 7).read a = wideState.mem.read a := by
  refine ⟨(wide_small _ _ _ (by decide)).valid, fun a ha => ?_⟩
  have hb := SmallLatch.rs_bounds (wide_small .mean8 .u8 false (by decide)) ha
  rw [Memory.read_write, if_neg (by omega)]

theorem witness_TierIsNotObservable : ∃ t, Inv busyState ∧ step busyState = .next t := by
  have h : nextSat (step busyState) (fun _ => true) = true := by decide +kernel
  obtain ⟨t, ht, _⟩ := nextSat_exists h
  exact ⟨t, busy_inv, ht⟩

/-- A memory write to a buffer of the running launch is a step that faults. -/
theorem witness_TierIsNotObservable_fault :
    Inv { busyState with others := [some (.memWrite 0x1000 1)] } ∧
      step { busyState with others := [some (.memWrite 0x1000 1)] } = .fault .concurrentAccess :=
  ⟨{ mem_wf := busy_inv.mem_wf, mem_space := busy_inv.mem_space, idle_clear := busy_inv.idle_clear,
     busy_valid := busy_inv.busy_valid, busy_reserved := busy_inv.busy_reserved, busy_cursor := busy_inv.busy_cursor,
     host_stalled := busy_inv.host_stalled }, eq_fault_of_faultOf (by decide +kernel)⟩

/-- A plane with a vector unit and a true assertion. -/
theorem witness_AlignHintIsNotObservable :
    vectorPlaneState.phase = .idle ∧ Undisturbed vectorPlaneState ∧ Accepted vectorPlaneState.params .median8 ∧
      ValidLaunch vectorPlaneState.params (latchOf .median8 .u8 true vectorPlaneState.regs) :=
  ⟨rfl, ⟨rfl, .inl rfl⟩, accepted_initial _, (vectorPlane_small _ _).valid⟩

/-- Before the first and before the last of nine units; the launch another master's, so that the host may read too. -/
theorem witness_InterruptedLaunchWritesTheSamePlane :
    Undisturbed { wideState with issuer := .others } ∧
      ValidLaunch wideState.params (latchOf .median8 .u8 false wideState.regs) ∧ wideState.uopWord = none ∧
      0 < (planeUnits (latchOf .median8 .u8 false wideState.regs)).length ∧
      8 < (planeUnits (latchOf .median8 .u8 false wideState.regs)).length :=
  ⟨⟨rfl, .inr rfl⟩, (wide_small _ _ _ (by decide)).valid, rfl, by decide, by decide⟩

theorem witness_ResumedLaunchEnds :
    Inv busyState ∧ busyState.phase = .busy ∧ busyState.uopWord = none ∧ Undisturbed busyState :=
  ⟨busy_inv, rfl, rfl, rfl, .inl rfl⟩

/-! The rasterizer. -/

/-- The last pixel of a plane with a vector unit. -/
theorem witness_WalkCoversEachPixelOnce :
    19 < (latchOf .pass .u8 false (baseRegs 20 3 32 32)).cols ∧
      2 < (latchOf .pass .u8 false (baseRegs 20 3 32 32)).rows := by decide

theorem witness_WalkCoversEachPixelOnce_count :
    (0 < (latchOf .pass .u8 false (baseRegs 20 3 32 32)).w ∧ 0 < (latchOf .pass .u8 false (baseRegs 20 3 32 32)).h) ∧
      0 < (latchOf .pass .u8 false (baseRegs 1 1 1 1)).w ∧ 0 < (latchOf .pass .u8 false (baseRegs 1 1 1 1)).h := by
  decide

theorem witness_UnitsStayInTheirBuffers :
    ValidGeometry (latchOf .pass .u8 false (baseRegs 20 3 32 32)) ∧
      vectorUnit 1 1 ∈ planeUnits (latchOf .pass .u8 false (baseRegs 20 3 32 32)) ∧
      scalarUnit 2 19 ∈ planeUnits (latchOf .pass .u8 false (baseRegs 20 3 32 32)) :=
  ⟨(vectorPlane_small _ _).geometry, by decide +kernel, by decide +kernel⟩

theorem witness_MicroProgramComputesTheKernel :
    (Mode.clamp4 ≠ .undef ∧ Mode.pass ≠ .undef) ∧ (15 < 16 ∨ (24 ≤ 15 ∧ 15 < 31)) ∧ (30 < 16 ∨ (24 ≤ 30 ∧ 30 < 31)) := by
  decide

/-! Kernels. -/

theorem witness_SortNetworkSortsIntegers : Fmt.u8 ≠ .f32 ∧ Fmt.u16 ≠ .f32 := by decide

/-- V-K1's neighbours and the permutation it names. -/
theorem witness_IntegerKernelsIgnoreNeighbourOrder :
    Fmt.u8 ≠ .f32 ∧ (Ring.list ⟨1, 2, 3, 4, 5, 6, 7, 8⟩).Perm (Ring.list ⟨8, 1, 7, 2, 6, 3, 5, 4⟩) := by decide +kernel

theorem witness_ClampOutputsAreInputs : Mode.clamp4 ∈ [Mode.undef, .pass, .clamp1, .clamp2, .clamp3, .clamp4] := by
  decide

theorem witness_ClampIsIdempotent : Mode.clamp1 ∈ [Mode.clamp1, .clamp2, .clamp3, .clamp4] := by decide

/-- V-K1: the median of 200 and 1..8 is 5. -/
theorem witness_Clamp4IsTheMedianOfNine :
    Fmt.u16 ≠ .f32 ∧ kernel .clamp4 .u16 (fun _ => 0x7FC00000) 200 ⟨8, 1, 7, 2, 6, 3, 5, 4⟩ = 5 := by decide +kernel

/-- The largest samples of both formats. -/
theorem witness_IntegerMeansNeverSaturate :
    Fmt.u8 ≠ .f32 ∧
      (∀ a ∈ (255 : Sample) :: Ring.list ⟨255, 255, 255, 255, 255, 255, 255, 255⟩, a.toNat < 2 ^ Fmt.u8.bits) ∧
      ∀ a ∈ (65535 : Sample) :: Ring.list ⟨65535, 0, 65535, 0, 65535, 0, 65535, 0⟩, a.toNat < 2 ^ Fmt.u16.bits := by
  simp [Ring.list, Fmt.bits, Fmt.ps]

/-! F32. -/

/-- An exact zero; a sum exactly at the least magnitude that overflows (the largest finite value plus 2^103), and one
unit of 2^-149 below it. -/
theorem witness_F32AddRoundsToNearestEven :
    (f32Exp 0x3F800000 ≠ 255 ∧ f32Exp 0xBF800000 ≠ 255 ∧ f32Units 0x3F800000 + f32Units 0xBF800000 = 0) ∧
      (f32Exp 0x7F7FFFFF ≠ 255 ∧ f32Exp 0x73000000 ≠ 255 ∧
        (f32Units 0x7F7FFFFF + f32Units 0x73000000).natAbs = (2 ^ 25 - 1) * 2 ^ 252) ∧
      (f32Exp 0x72FFFFFF ≠ 255 ∧ (f32Units 0x7F7FFFFF + f32Units 0x72FFFFFF).natAbs < (2 ^ 25 - 1) * 2 ^ 252) := by
  decide +kernel

/-- 18631 * (1801 * 2^103) is exactly the least magnitude that overflows; 1.0 * 1.0 is below it. -/
theorem witness_F32MulRoundsToNearestEven :
    (f32Exp 0x46918E00 ≠ 255 ∧ f32Exp 0x78612000 ≠ 255 ∧
        (f32Units 0x46918E00 * f32Units 0x78612000).natAbs = (2 ^ 25 - 1) * 2 ^ 401) ∧
      f32Exp 0x3F800000 ≠ 255 ∧ (f32Units 0x3F800000 * f32Units 0x3F800000).natAbs < (2 ^ 25 - 1) * 2 ^ 401 := by
  decide +kernel

/-- The largest finite value over 0.5, and 1.0 over 3.0. -/
theorem witness_F32DivRoundsToNearestEven :
    (f32Exp 0x7F7FFFFF ≠ 255 ∧ f32Exp 0x3F000000 ≠ 255 ∧ f32Units 0x3F000000 ≠ 0 ∧
        (2 ^ 25 - 1) * 2 ^ 252 * (f32Units 0x3F000000).natAbs ≤ (f32Units 0x7F7FFFFF * 2 ^ 149).natAbs) ∧
      f32Exp 0x3F800000 ≠ 255 ∧ f32Exp 0x40400000 ≠ 255 ∧ f32Units 0x40400000 ≠ 0 ∧
        (f32Units 0x3F800000 * 2 ^ 149).natAbs < (2 ^ 25 - 1) * 2 ^ 252 * (f32Units 0x40400000).natAbs := by
  decide +kernel

theorem witness_F32ComparisonsOrderValues :
    f32IsNaN 0x7F800001 = true ∧ f32Exp 0x7F7FFFFF ≠ 255 ∧ f32Exp 0x80000000 ≠ 255 ∧ f32IsInf 0xFF800000 = true ∧
      f32IsInf 0x7F800000 = true := by decide

/-- A NaN, both infinities, both zeros, and the least and the greatest finite magnitude. -/
theorem witness_F32SpecialOperands :
    f32IsNaN 0xFFFFFFFF = true ∧ f32IsInf 0x7F800000 = true ∧ f32IsInf 0xFF800000 = true ∧
      (f32Exp 0 ≠ 255 ∧ f32Units 0 = 0) ∧ (f32Exp 0x80000000 ≠ 255 ∧ f32Units 0x80000000 = 0) ∧
      (f32Exp 1 ≠ 255 ∧ f32Units 1 ≠ 0) ∧ f32Exp 0x7F7FFFFF ≠ 255 ∧ f32Units 0x7F7FFFFF ≠ 0 := by decide +kernel

/-! Micro-ops. -/

/-- Both cases of the pair of destinations. -/
theorem witness_VsortpOrdersLanePairs : (1 : VReg) = 1 ∧ (16 : VReg) ≠ 17 := by decide

/-- For every micro-op statement: each format has lanes to speak of; the last ones. -/
theorem witness_lanes : 15 < Fmt.u8.lanes ∧ 7 < Fmt.u16.lanes ∧ 3 < Fmt.f32.lanes := by decide

/-- A descriptor whose source and destination start at an address. -/
def edgeState (base : Addr) : State :=
  { State.reset with latch := { Latch.cleared with srcBase := base, dstBase := base, width := 1, height := 1 } }

/-- The last place a vector load fits, the next one, and an address below 0. -/
theorem witness_VloaduLoadsSamples :
    nextSat (exec (.vloadu .u8 1 0 false) (edgeState 0xFFFFFFFFFFFFFFF0)) (fun _ => true) = true ∧
      faultOf (exec (.vloadu .u8 1 0 false) (edgeState 0xFFFFFFFFFFFFFFF1)) = some .addrRange ∧
      faultOf (exec (.vloadu .u8 1 4 false) (edgeState 0)) = some .addrRange := by decide +kernel

/-- The last place a scalar load fits, and the next one. -/
theorem witness_VloaduLoadsSamples_scalar :
    nextSat (exec (.vloadu .f32 1 8 true) (edgeState 0xFFFFFFFFFFFFFFFC)) (fun _ => true) = true ∧
      faultOf (exec (.vloadu .f32 1 8 true) (edgeState 0xFFFFFFFFFFFFFFFD)) = some .addrRange := by decide +kernel

/-- A multiple of 16 that does not fit: column 16 of a row at the last vector. -/
theorem witness_VloadaLoadsAlignedVectors :
    nextSat (exec (.vloada .u8 1 0) (edgeState 0xFFFFFFFFFFFFFFF0)) (fun _ => true) = true ∧
      faultOf (exec (.vloada .u8 1 0) { edgeState 0xFFFFFFFFFFFFFFF0 with cursor := { y := 0, x := 16 } }) =
        some .addrRange := by decide +kernel

theorem witness_VstoreuStoresSamples :
    nextSat (exec (.vstoreu .u16 1 true) (edgeState 0xFFFFFFFFFFFFFFFE)) (fun _ => true) = true ∧
      faultOf (exec (.vstoreu .u16 1 true) (edgeState 0xFFFFFFFFFFFFFFFF)) = some .addrRange ∧
      nextSat (exec (.vstoreu .u16 1 false) (edgeState 0xFFFFFFFFFFFFFFF0)) (fun _ => true) = true ∧
      faultOf (exec (.vstoreu .u16 1 false) (edgeState 0xFFFFFFFFFFFFFFF1)) = some .addrRange := by decide +kernel

/-! Invariants. -/

/-- As for the tier: a step of a running launch. -/
theorem witness_EveryStepKeepsTheInvariant : ∃ t, Inv busyState ∧ step busyState = .next t :=
  witness_TierIsNotObservable

theorem witness_ParametersNeverChange : ∃ t, step State.reset = .next t := ⟨State.reset, rfl⟩

end Sys2Proof.Tests
end

section
/-! SUPPORT. No step changes the unit's parameters (R10). -/

namespace Sys2Proof.Machine

/-- An instruction is a command, or the datapath runs it as a micro-op (R90, R95). -/
theorem filter_or_exec_eq_execUop (i : Instr) (s : State) :
    (∃ m fmt al, i = Instr.filter m fmt al) ∨ exec i s = execUop i s := by
  cases i with
  | filterUndef fmt al => exact .inl ⟨.undef, fmt, al, rfl⟩
  | filterPass fmt al => exact .inl ⟨.pass, fmt, al, rfl⟩
  | filterClamp1 fmt al => exact .inl ⟨.clamp1, fmt, al, rfl⟩
  | filterClamp2 fmt al => exact .inl ⟨.clamp2, fmt, al, rfl⟩
  | filterClamp3 fmt al => exact .inl ⟨.clamp3, fmt, al, rfl⟩
  | filterClamp4 fmt al => exact .inl ⟨.clamp4, fmt, al, rfl⟩
  | filterMean8 fmt al => exact .inl ⟨.mean8, fmt, al, rfl⟩
  | filterMean9 fmt al => exact .inl ⟨.mean9, fmt, al, rfl⟩
  | filterMedian8 fmt al => exact .inl ⟨.median8, fmt, al, rfl⟩
  | _ => exact .inr rfl

theorem UopEffect.params_eq {s t : State} (h : UopEffect s t) : t.params = s.params := by rw [h.frame]

theorem WalkKeep.params_eq {s t : State} (h : WalkKeep s t) : t.params = s.params := by rw [h.frame]

theorem runUnits_params {us : List WorkUnit} {s t : State} (h : runUnits us s = .next t) : t.params = s.params := by
  obtain ⟨m, hwalk, rfl | ⟨_, _, _, _, rfl⟩⟩ := runUnits_cases h
  · rw [endLaunch_params, hwalk.params_eq]
  · exact hwalk.params_eq

theorem filterPlane_params {m : Mode} {fmt : Fmt} {al : Bool} {s t : State} (h : filterPlane m fmt al s = .next t) :
    t.params = s.params := by
  obtain ⟨_, rfl⟩ | ⟨_, _, rfl⟩ | ⟨_, _, _, rfl⟩ | ⟨_, _, _, _, hwalk⟩ := filterPlane_cases h
  · rfl
  · simp
  · simp
  · rw [runUnits_params hwalk, acceptCommand_params]

theorem exec_params {i : Instr} {s t : State} (h : exec i s = .next t) : t.params = s.params := by
  obtain ⟨m, fmt, al, rfl⟩ | huop := filter_or_exec_eq_execUop i s
  · rw [exec_filter] at h
    exact filterPlane_params h
  · rw [huop] at h
    exact (execUop_effect h).params_eq

theorem writeCommand_params {m : Master} {w : Word} {s t : State} (h : writeCommand m w s = .next t) :
    t.params = s.params := by
  obtain ⟨_, rfl⟩ | ⟨_, i, _, hexec⟩ | ⟨_, _, _, rfl⟩ := writeCommand_cases h
  · simp
  · simpa using exec_params hexec
  · simp

theorem resetUnit_params (s : State) : (resetUnit s).params = s.params := by
  obtain ⟨_, _, _, _, heq, -⟩ := resetUnit_eq s
  rw [heq]

theorem access_params {m : Master} {a : Access} {s t : State} (h : access m a s = .next t) :
    t.params = s.params := by
  obtain ⟨_, _, rfl⟩ | ⟨_, _, _, rfl⟩ | ⟨_, _, _, _, rfl⟩ | ⟨_, _, rfl⟩ | ⟨_, hcmd⟩ | ⟨_, rfl⟩ := access_cases h
  case inr.inr.inr.inr.inl => exact writeCommand_params hcmd
  case inr.inr.inr.inr.inr => exact resetUnit_params s
  all_goals simp

/-- Settles O59: each of the four ways a step answers keeps the parameters. -/
theorem parametersNeverChange : Obligations.ParametersNeverChange := by
  intro s t h
  obtain ⟨_, _, _, _, hexec⟩ | ⟨_, _, _, _, hacc⟩ | ⟨_, _, _, hwalk⟩ | ⟨_, _, _, rfl⟩ := step_cases h
  · simpa using exec_params hexec
  · simpa using access_params hacc
  · exact runUnits_params hwalk
  · simp

end Sys2Proof.Machine
end

section
/-! SUPPORT. A binary32 encoding as a sign and 31 low bits; which of them are finite, infinite or NaN; the value of the
low bits, and how packing and negation act on them (R13, R17). -/

namespace Sys2Proof.Machine

/-! ### Sign and low bits -/

/-- The exponent and fraction fields as one number. -/
def f32Low (a : Sample) : Nat := (a.extractLsb' 0 31).toNat

/-- The magnitude, in units of 2^-149, of finite low bits. -/
def lowMag (low : Nat) : Nat :=
  if low / 2 ^ 23 = 0 then low % 2 ^ 23 else (2 ^ 23 + low % 2 ^ 23) * 2 ^ (low / 2 ^ 23 - 1)

/-- A magnitude with a sign. -/
def withSign (sign : Bool) (m : Nat) : Int := if sign then -(m : Int) else (m : Int)

theorem f32Low_eq_mod (a : Sample) : f32Low a = a.toNat % 2 ^ 31 := by
  simp [f32Low, BitVec.extractLsb'_toNat]

theorem f32Low_lt (a : Sample) : f32Low a < 2 ^ 31 := BitVec.isLt _

theorem f32Sign_eq_decide (a : Sample) : f32Sign a = decide (2 ^ 31 ≤ a.toNat) := by
  have hmsb := BitVec.msb_eq_getLsbD_last a
  rw [BitVec.msb_eq_decide] at hmsb
  exact hmsb.symm

theorem f32Exp_eq (a : Sample) : f32Exp a = f32Low a / 2 ^ 23 := by
  rw [f32Low_eq_mod, f32Exp, BitVec.extractLsb'_toNat, Nat.shiftRight_eq_div_pow]
  omega

theorem f32Frac_eq (a : Sample) : f32Frac a = f32Low a % 2 ^ 23 := by
  rw [f32Low_eq_mod, f32Frac, BitVec.extractLsb'_toNat, Nat.shiftRight_zero]
  omega

theorem f32Mag_eq (a : Sample) : f32Mag a = lowMag (f32Low a) := by
  rw [f32Mag, lowMag, f32Exp_eq, f32Frac_eq]

theorem f32Mag_zero : f32Mag 0#32 = 0 := by decide

theorem f32Units_eq (a : Sample) : f32Units a = withSign (f32Sign a) (f32Mag a) := rfl

theorem f32Key_eq (a : Sample) : f32Key a = withSign (f32Sign a) (f32Low a) := rfl

theorem getLsbD_zero_eq (a : Sample) : a.getLsbD 0 = decide (f32Low a % 2 = 1) := by
  rw [f32Low_eq_mod, BitVec.getLsbD, Nat.testBit_zero]
  congr 2
  omega

/-! ### Signed magnitudes -/

@[simp] theorem withSign_false (m : Nat) : withSign false m = m := rfl

@[simp] theorem withSign_true (m : Nat) : withSign true m = -m := rfl

theorem natAbs_withSign (sign : Bool) (m : Nat) : (withSign sign m).natAbs = m := by
  cases sign <;> simp

theorem withSign_eq_zero_iff (sign : Bool) (m : Nat) : withSign sign m = 0 ↔ m = 0 := by
  cases sign <;> simp

theorem withSign_mul (s t : Bool) (m n : Nat) : withSign s m * withSign t n = withSign (s != t) (m * n) := by
  cases s <;> cases t <;> simp

theorem withSign_mul_natCast (s : Bool) (m n : Nat) : withSign s m * n = withSign s (m * n) := by
  cases s <;> simp

theorem withSign_natAbs (e : Int) : withSign (decide (e < 0)) e.natAbs = e := by
  by_cases h : e < 0
  · simp only [h, decide_true, withSign_true]; omega
  · simp only [h, decide_false, withSign_false]; omega

/-! ### Kinds of encodings -/

theorem f32IsNaN_iff (a : Sample) : f32IsNaN a = true ↔ 0x7F800000 < f32Low a := by
  have := f32Low_lt a
  simp only [f32IsNaN, f32Exp_eq, f32Frac_eq, Bool.and_eq_true, beq_iff_eq, bne_iff_ne]
  omega

theorem f32IsInf_iff (a : Sample) : f32IsInf a = true ↔ f32Low a = 0x7F800000 := by
  have := f32Low_lt a
  simp only [f32IsInf, f32Exp_eq, f32Frac_eq, Bool.and_eq_true, beq_iff_eq]
  omega

theorem f32Exp_ne_iff (a : Sample) : f32Exp a ≠ 255 ↔ f32Low a < 0x7F800000 := by
  have := f32Low_lt a
  rw [f32Exp_eq]
  omega

theorem f32IsNaN_eq_decide (a : Sample) : f32IsNaN a = decide (0x7F800000 < f32Low a) :=
  Bool.eq_iff_iff.mpr (by simpa using f32IsNaN_iff a)

theorem f32IsInf_eq_decide (a : Sample) : f32IsInf a = decide (f32Low a = 0x7F800000) :=
  Bool.eq_iff_iff.mpr (by simpa using f32IsInf_iff a)

theorem not_isNaN_of_isInf {a : Sample} (h : f32IsInf a = true) : f32IsNaN a = false := by
  rw [f32IsInf_iff] at h
  simp [f32IsNaN_eq_decide, h]

theorem not_isNaN_of_finite {a : Sample} (h : f32Exp a ≠ 255) : f32IsNaN a = false := by
  rw [f32Exp_ne_iff] at h
  simp [f32IsNaN_eq_decide]; omega

theorem not_isInf_of_finite {a : Sample} (h : f32Exp a ≠ 255) : f32IsInf a = false := by
  rw [f32Exp_ne_iff] at h
  simp [f32IsInf_eq_decide]; omega

theorem f32Units_eq_zero_iff (a : Sample) : f32Units a = 0 ↔ f32Mag a = 0 := withSign_eq_zero_iff _ _

/-! ### Packing -/

theorem toNat_f32Pack (sign : Bool) {low : Nat} (h : low < 2 ^ 31) :
    (f32Pack sign low).toNat = if sign then 2 ^ 31 + low else low := by
  rw [f32Pack, BitVec.toNat_ofNat, Nat.mod_eq_of_lt]
  split <;> omega

theorem f32Low_f32Pack (sign : Bool) {low : Nat} (h : low < 2 ^ 31) : f32Low (f32Pack sign low) = low := by
  rw [f32Low_eq_mod, toNat_f32Pack sign h]
  split <;> omega

theorem f32Sign_f32Pack (sign : Bool) {low : Nat} (h : low < 2 ^ 31) : f32Sign (f32Pack sign low) = sign := by
  rw [f32Sign_eq_decide, toNat_f32Pack sign h]
  cases sign
  · simpa using h
  · simp

theorem f32Inf_bne (s t : Bool) :
    f32Inf (s != t) = if s = t then 0x7F800000#32 else 0x7F800000#32 ||| 0x80000000#32 := by
  cases s <;> cases t <;> rfl

theorem f32Pack_bne_zero (s t : Bool) :
    f32Pack (s != t) 0 = if s = t then 0#32 else 0#32 ||| 0x80000000#32 := by
  cases s <;> cases t <;> rfl

/-! ### Negation -/

theorem f32Low_f32Neg (a : Sample) : f32Low (f32Neg a) = f32Low a := by
  rw [f32Low, f32Neg, BitVec.extractLsb'_xor]
  simp [f32Low]

theorem f32Sign_f32Neg (a : Sample) : f32Sign (f32Neg a) = !f32Sign a := by
  simp [f32Sign, f32Neg]

theorem f32Exp_f32Neg (a : Sample) : f32Exp (f32Neg a) = f32Exp a := by rw [f32Exp_eq, f32Low_f32Neg, f32Exp_eq]

theorem f32IsNaN_f32Neg (a : Sample) : f32IsNaN (f32Neg a) = f32IsNaN a := by
  rw [f32IsNaN_eq_decide, f32Low_f32Neg, f32IsNaN_eq_decide]

theorem f32IsInf_f32Neg (a : Sample) : f32IsInf (f32Neg a) = f32IsInf a := by
  rw [f32IsInf_eq_decide, f32Low_f32Neg, f32IsInf_eq_decide]

theorem f32Units_f32Neg (a : Sample) : f32Units (f32Neg a) = -f32Units a := by
  rw [f32Units_eq, f32Units_eq, f32Mag_eq, f32Mag_eq, f32Low_f32Neg, f32Sign_f32Neg]
  cases f32Sign a <;> simp

/-! ### The value of the low bits -/

/-- Low bits are a scale and a significand of at most 24 bits, whose top bit is set unless the scale is 0. -/
theorem exists_scale_significand (low : Nat) :
    ∃ s n, low = s * 2 ^ 23 + n ∧ n < 2 ^ 24 ∧ (s = 0 ∨ 2 ^ 23 ≤ n) := by
  by_cases h : low < 2 ^ 24
  · exact ⟨0, low, by omega, h, .inl rfl⟩
  · exact ⟨low / 2 ^ 23 - 1, low - (low / 2 ^ 23 - 1) * 2 ^ 23, by omega, by omega, .inr (by omega)⟩

/-- Scale and significand give the value; a significand that carries to 2^24 is the least of the next scale. -/
theorem lowMag_scale_significand {s n : Nat} (hn : n ≤ 2 ^ 24) (hs : s = 0 ∨ 2 ^ 23 ≤ n) :
    lowMag (s * 2 ^ 23 + n) = n * 2 ^ s := by
  unfold lowMag
  rcases Nat.lt_or_ge n (2 ^ 23) with hsub | hnorm
  · obtain rfl : s = 0 := by omega
    rw [if_pos (by omega)]
    omega
  · rcases Nat.lt_or_eq_of_le hn with hlt | rfl
    · have hexp : (s * 2 ^ 23 + n) / 2 ^ 23 = s + 1 := by omega
      have hfrac : 2 ^ 23 + (s * 2 ^ 23 + n) % 2 ^ 23 = n := by omega
      rw [if_neg (by omega), hexp, hfrac, Nat.add_sub_cancel]
    · have hexp : (s * 2 ^ 23 + 2 ^ 24) / 2 ^ 23 = s + 2 := by omega
      have hfrac : (s * 2 ^ 23 + 2 ^ 24) % 2 ^ 23 = 0 := by omega
      rw [if_neg (by omega), hexp, hfrac, show s + 2 - 1 = s + 1 from rfl]
      ring

theorem lowMag_zero : lowMag 0 = 0 := rfl

/-- Larger low bits are larger values. -/
theorem lowMag_strictMono : StrictMono lowMag := by
  refine strictMono_nat_of_lt_succ fun low => ?_
  obtain ⟨s, n, rfl, hn, hs⟩ := exists_scale_significand low
  rw [Nat.add_assoc, lowMag_scale_significand (by omega) hs, lowMag_scale_significand (by omega) (by omega)]
  exact Nat.mul_lt_mul_of_pos_right (Nat.lt_succ_self n) (by positivity)

/-! ### Comparisons -/

theorem withSign_lt_iff_of_strictMono {f : Nat → Nat} (hf : StrictMono f) (h0 : f 0 = 0) (s t : Bool) (m n : Nat) :
    withSign s (f m) < withSign t (f n) ↔ withSign s m < withSign t n := by
  have hlt := hf.lt_iff_lt (a := m) (b := n)
  have hgt := hf.lt_iff_lt (a := n) (b := m)
  have hm := hf.lt_iff_lt (a := 0) (b := m)
  have hn := hf.lt_iff_lt (a := 0) (b := n)
  cases s <;> cases t <;> simp only [withSign_false, withSign_true] <;> omega

theorem f32Units_lt_iff (a b : Sample) : f32Units a < f32Units b ↔ f32Key a < f32Key b := by
  rw [f32Units_eq, f32Units_eq, f32Mag_eq, f32Mag_eq, f32Key_eq, f32Key_eq]
  exact withSign_lt_iff_of_strictMono lowMag_strictMono lowMag_zero _ _ _ _

theorem f32Units_eq_iff (a b : Sample) : f32Units a = f32Units b ↔ f32Key a = f32Key b := by
  have := f32Units_lt_iff a b
  have := f32Units_lt_iff b a
  omega

theorem f32_comparisons_of_isNaN {a b : Sample} (h : f32IsNaN a = true ∨ f32IsNaN b = true) :
    f32Lt a b = false ∧ f32Gt a b = false ∧ f32Eq a b = false := by
  rcases h with h | h <;> simp [f32Lt, f32Gt, f32Eq, h]

/-- With no NaN the comparisons compare the keys. -/
theorem f32_comparisons_of_not_isNaN {a b : Sample} (ha : f32IsNaN a = false) (hb : f32IsNaN b = false) :
    f32Lt a b = decide (f32Key a < f32Key b) ∧ f32Gt a b = decide (f32Key b < f32Key a) ∧
      f32Eq a b = decide (f32Key a = f32Key b) := by
  simp [f32Lt, f32Gt, f32Eq, ha, hb]

theorem f32Key_of_isInf {a : Sample} (h : f32IsInf a = true) : f32Key a = withSign (f32Sign a) 0x7F800000 := by
  rw [f32Key_eq, (f32IsInf_iff a).mp h]

theorem natAbs_f32Key_lt_of_finite {a : Sample} (h : f32Exp a ≠ 255) : (f32Key a).natAbs < 0x7F800000 := by
  rw [f32Key_eq, natAbs_withSign]
  exact (f32Exp_ne_iff a).mp h

/-- What is smaller in magnitude lies on the inner side of a signed value. -/
theorem withSign_order_of_natAbs_lt (s : Bool) {m : Nat} {k : Int} (h : k.natAbs < m) :
    (withSign s m < k ↔ s = true) ∧ (k < withSign s m ↔ s = false) ∧ withSign s m ≠ k := by
  cases s <;> simp <;> omega

/-- Settles O43: the keys are ordered as the values, and an infinity's key lies beyond every finite one's. -/
theorem f32ComparisonsOrderValues : Obligations.F32ComparisonsOrderValues := by
  intro a b
  refine ⟨f32_comparisons_of_isNaN, fun ha hb => ?_, fun ha hb => ?_, fun ha hb => ?_, fun ha hb => ?_⟩
  · simpa only [f32Units_lt_iff, f32Units_eq_iff] using
      f32_comparisons_of_not_isNaN (not_isNaN_of_finite ha) (not_isNaN_of_finite hb)
  · obtain ⟨hlt, hgt, heq⟩ := f32_comparisons_of_not_isNaN (not_isNaN_of_isInf ha) (not_isNaN_of_finite hb)
    obtain ⟨below, above, apart⟩ := withSign_order_of_natAbs_lt (f32Sign a) (natAbs_f32Key_lt_of_finite hb)
    rw [hlt, hgt, heq, f32Key_of_isInf ha]
    simp [below, above, apart]
  · obtain ⟨hlt, hgt, heq⟩ := f32_comparisons_of_not_isNaN (not_isNaN_of_finite ha) (not_isNaN_of_isInf hb)
    obtain ⟨below, above, apart⟩ := withSign_order_of_natAbs_lt (f32Sign b) (natAbs_f32Key_lt_of_finite ha)
    rw [hlt, hgt, heq, f32Key_of_isInf hb]
    simp [below, above, apart.symm]
  · obtain ⟨hlt, hgt, heq⟩ := f32_comparisons_of_not_isNaN (not_isNaN_of_isInf ha) (not_isNaN_of_isInf hb)
    rw [hlt, hgt, heq, f32Key_of_isInf ha, f32Key_of_isInf hb]
    cases f32Sign a <;> cases f32Sign b <;> decide

end Sys2Proof.Machine
end

section
/-! SUPPORT. Rounding a quotient once, to nearest and ties to even, and from it the four operations of R17 on finite
values. -/

namespace Sys2Proof.Machine

/-! ### Rounding to an integer -/

/-- The rounded integer is at most half a divisor away, and even when it is exactly half. -/
theorem roundHalfEven_error (p : Nat) {q : Nat} (hq : 0 < q) :
    2 * ((roundHalfEven p q * q : Nat) - (p : Int)).natAbs ≤ q ∧
      (2 * ((roundHalfEven p q * q : Nat) - (p : Int)).natAbs = q → roundHalfEven p q % 2 = 0) := by
  have hdiv : q * (p / q) + p % q = p := Nat.div_add_mod p q
  have hmod : p % q < q := Nat.mod_lt p hq
  rw [Nat.mul_comm] at hdiv
  unfold roundHalfEven
  split
  · rw [Nat.add_mul, Nat.one_mul]
    omega
  · omega

/-- No multiple of the divisor is nearer, and one as near leaves the rounded integer even. -/
theorem roundHalfEven_nearest (p : Nat) {q : Nat} (hq : 0 < q) (k : Nat) :
    ((roundHalfEven p q * q : Nat) - (p : Int)).natAbs ≤ ((k * q : Nat) - (p : Int)).natAbs ∧
      (((roundHalfEven p q * q : Nat) - (p : Int)).natAbs = ((k * q : Nat) - (p : Int)).natAbs →
        k ≠ roundHalfEven p q → roundHalfEven p q % 2 = 0) := by
  obtain ⟨herr, htie⟩ := roundHalfEven_error p hq
  generalize roundHalfEven p q = n at *
  rcases Nat.lt_trichotomy k n with hlt | rfl | hgt
  · have : (k + 1) * q ≤ n * q := Nat.mul_le_mul_right q hlt
    rw [Nat.add_mul, Nat.one_mul] at this
    omega
  · omega
  · have : (n + 1) * q ≤ k * q := Nat.mul_le_mul_right q hgt
    rw [Nat.add_mul, Nat.one_mul] at this
    omega

/-- Rounding stays between integer bounds. -/
theorem roundHalfEven_le {p q m : Nat} (hq : 0 < q) (h : p ≤ m * q) : roundHalfEven p q ≤ m := by
  have herr := (roundHalfEven_error p hq).1
  by_contra hgt
  have : (m + 1) * q ≤ roundHalfEven p q * q := Nat.mul_le_mul_right q (by omega)
  rw [Nat.add_mul, Nat.one_mul] at this
  omega

theorem le_roundHalfEven {p q m : Nat} (hq : 0 < q) (h : m * q ≤ p) : m ≤ roundHalfEven p q := by
  have herr := (roundHalfEven_error p hq).1
  by_contra hlt
  have : (roundHalfEven p q + 1) * q ≤ m * q := Nat.mul_le_mul_right q (by omega)
  rw [Nat.add_mul, Nat.one_mul] at this
  omega

/-- An even integer is reached exactly from half a divisor below it. -/
theorem even_le_roundHalfEven_iff {p q m : Nat} (hq : 0 < q) :
    2 * m ≤ roundHalfEven p q ↔ (4 * m - 1) * q ≤ 2 * p := by
  obtain ⟨herr, htie⟩ := roundHalfEven_error p hq
  rcases Nat.eq_zero_or_pos m with rfl | hm
  · simp
  obtain ⟨j, rfl⟩ : ∃ j, m = j + 1 := ⟨m - 1, by omega⟩
  have hthreshold : (4 * (j + 1) - 1) * q + q = 2 * ((2 * (j + 1)) * q) := by
    rw [show 4 * (j + 1) - 1 = 4 * j + 3 by omega]
    ring
  constructor
  · intro hle
    have := Nat.mul_le_mul_right q hle
    omega
  · intro hle
    by_contra hlt
    have := Nat.mul_le_mul_right q (show roundHalfEven p q + 1 ≤ 2 * (j + 1) by omega)
    rw [Nat.add_mul, Nat.one_mul] at this
    have heven := htie (by omega)
    have := Nat.mul_le_mul_right q (show roundHalfEven p q + 2 ≤ 2 * (j + 1) by omega)
    rw [Nat.add_mul] at this
    omega

/-! ### The scale of a quotient -/

/-- At its scale a quotient is below 2^24, and at least 2^23 unless the scale is 0. -/
theorem f32Scale_bounds (p : Nat) {q : Nat} (hq : 0 < q) :
    p < 2 ^ 24 * (q * 2 ^ f32Scale p q) ∧ (f32Scale p q = 0 ∨ 2 ^ 23 * (q * 2 ^ f32Scale p q) ≤ p) := by
  have hlt : p / q < 2 ^ (Nat.log2 (p / q) + 1) := Nat.lt_log2_self
  have hupper : 2 ^ (Nat.log2 (p / q) + 1) ≤ 2 ^ 24 * 2 ^ f32Scale p q := by
    rw [← Nat.pow_add]
    exact Nat.pow_le_pow_right (by decide) (by unfold f32Scale; omega)
  refine ⟨?_, ?_⟩
  · have := (Nat.div_lt_iff_lt_mul hq).mp (Nat.lt_of_lt_of_le hlt hupper)
    rwa [Nat.mul_assoc, Nat.mul_comm _ q] at this
  · by_cases hs : f32Scale p q = 0
    · exact .inl hs
    · right
      have hlog : 23 + f32Scale p q = Nat.log2 (p / q) := by unfold f32Scale at hs ⊢; omega
      have hne : p / q ≠ 0 := by
        intro h0
        simp [f32Scale, h0] at hs
      have hle : 2 ^ 23 * 2 ^ f32Scale p q ≤ p / q := by
        rw [← Nat.pow_add, hlog]
        exact Nat.log2_self_le hne
      have := (Nat.le_div_iff_mul_le hq).mp hle
      rwa [Nat.mul_assoc, Nat.mul_comm _ q] at this

/-- The significand that a quotient is rounded to, at its scale. -/
def f32Significand (p q : Nat) : Nat := roundHalfEven p (q * 2 ^ f32Scale p q)

theorem f32RoundMag_eq (p q : Nat) :
    f32RoundMag p q = min (f32Scale p q * 2 ^ 23 + f32Significand p q) 0x7F800000 := rfl

theorem f32Significand_bounds (p : Nat) {q : Nat} (hq : 0 < q) :
    f32Significand p q ≤ 2 ^ 24 ∧ (f32Scale p q = 0 ∨ 2 ^ 23 ≤ f32Significand p q) := by
  have hQ : 0 < q * 2 ^ f32Scale p q := by positivity
  obtain ⟨hupper, hlower⟩ := f32Scale_bounds p hq
  exact ⟨roundHalfEven_le hQ (Nat.le_of_lt hupper), hlower.imp_right (le_roundHalfEven hQ)⟩

/-- The low bits before they are cut off at infinity reach it exactly from the overflow threshold on. -/
theorem overflow_iff (p : Nat) {q : Nat} (hq : 0 < q) :
    0x7F800000 ≤ f32Scale p q * 2 ^ 23 + f32Significand p q ↔ (2 ^ 25 - 1) * 2 ^ 252 * q ≤ p := by
  obtain ⟨hn, hsn⟩ := f32Significand_bounds p hq
  obtain ⟨hupper, hlower⟩ := f32Scale_bounds p hq
  rcases Nat.lt_trichotomy (f32Scale p q) 253 with hlt | heq | hgt
  · have : q * 2 ^ f32Scale p q ≤ q * 2 ^ 252 :=
      Nat.mul_le_mul_left q (Nat.pow_le_pow_right (by decide) (by omega))
    omega
  · have hround := even_le_roundHalfEven_iff (p := p) (m := 2 ^ 23) (q := q * 2 ^ 253) (by positivity)
    have hsig : f32Significand p q = roundHalfEven p (q * 2 ^ 253) := by rw [f32Significand, heq]
    rw [heq, hsig]
    omega
  · have : q * 2 ^ 254 ≤ q * 2 ^ f32Scale p q :=
      Nat.mul_le_mul_left q (Nat.pow_le_pow_right (by decide) (by omega))
    omega

/-! ### Rounding to binary32 -/

theorem f32RoundMag_le (p q : Nat) : f32RoundMag p q ≤ 0x7F800000 := Nat.min_le_right _ _

theorem f32Sign_f32Round (sign : Bool) (p q : Nat) : f32Sign (f32Round sign p q) = sign :=
  f32Sign_f32Pack sign (Nat.lt_of_le_of_lt (f32RoundMag_le p q) (by decide))

theorem f32Low_f32Round (sign : Bool) (p q : Nat) : f32Low (f32Round sign p q) = f32RoundMag p q :=
  f32Low_f32Pack sign (Nat.lt_of_le_of_lt (f32RoundMag_le p q) (by decide))

/-- From the threshold on the result is the infinity of its sign. -/
theorem f32Round_of_overflow (sign : Bool) {p q : Nat} (hq : 0 < q) (h : (2 ^ 25 - 1) * 2 ^ 252 * q ≤ p) :
    f32Round sign p q = f32Inf sign := by
  rw [f32Round, f32RoundMag_eq, Nat.min_eq_right ((overflow_iff p hq).mpr h), f32Inf]

/-- Below the threshold nothing is cut off. -/
theorem f32RoundMag_of_lt {p q : Nat} (hq : 0 < q) (h : p < (2 ^ 25 - 1) * 2 ^ 252 * q) :
    f32RoundMag p q = f32Scale p q * 2 ^ 23 + f32Significand p q ∧ f32RoundMag p q < 0x7F800000 := by
  have hlt := mt (overflow_iff p hq).mp (Nat.not_le.mpr h)
  rw [f32RoundMag_eq]
  omega

/-- The magnitude of low bits is a multiple of a scale's unit, or below the scale's least significand. -/
theorem lowMag_multiple_or_lt (low s : Nat) :
    (∃ k, lowMag low = k * 2 ^ s) ∨ 0 < s ∧ lowMag low < 2 ^ 23 * 2 ^ s := by
  obtain ⟨t, n, rfl, hn, ht⟩ := exists_scale_significand low
  rw [lowMag_scale_significand (Nat.le_of_lt hn) ht]
  rcases Nat.lt_or_ge t s with hlt | hge
  · right
    have hpow : 2 ^ (t + 1) ≤ 2 ^ s := Nat.pow_le_pow_right (by decide) hlt
    have : n * 2 ^ t < 2 ^ 24 * 2 ^ t := Nat.mul_lt_mul_of_pos_right hn (by positivity)
    rw [Nat.pow_succ] at hpow
    exact ⟨by omega, by omega⟩
  · exact .inl ⟨n * 2 ^ (t - s), by rw [Nat.mul_assoc, ← Nat.pow_add, Nat.sub_add_cancel hge]⟩

/-- Below the threshold no magnitude is nearer to p/q than the rounded one, and another one as near leaves it even. -/
theorem f32RoundMag_nearest {p q : Nat} (hq : 0 < q) (h : p < (2 ^ 25 - 1) * 2 ^ 252 * q) (low : Nat) :
    ((lowMag (f32RoundMag p q) * q : Nat) - (p : Int)).natAbs ≤ ((lowMag low * q : Nat) - (p : Int)).natAbs ∧
      (((lowMag (f32RoundMag p q) * q : Nat) - (p : Int)).natAbs = ((lowMag low * q : Nat) - (p : Int)).natAbs →
        lowMag low ≠ lowMag (f32RoundMag p q) → f32RoundMag p q % 2 = 0) := by
  obtain ⟨hn, hsn⟩ := f32Significand_bounds p hq
  obtain ⟨_, hlower⟩ := f32Scale_bounds p hq
  have hQ : 0 < q * 2 ^ f32Scale p q := by positivity
  have hunit : ∀ k, k * 2 ^ f32Scale p q * q = k * (q * 2 ^ f32Scale p q) := fun k => by ring
  rw [(f32RoundMag_of_lt hq h).1, lowMag_scale_significand hn hsn, hunit]
  have hparity : (f32Scale p q * 2 ^ 23 + f32Significand p q) % 2 = f32Significand p q % 2 := by omega
  rw [hparity]
  rcases lowMag_multiple_or_lt low (f32Scale p q) with ⟨k, hk⟩ | ⟨hs, hlt⟩
  · rw [hk, hunit]
    obtain ⟨hle, htie⟩ := roundHalfEven_nearest p hQ k
    exact ⟨hle, fun heq hne => htie heq fun hkn => hne (by rw [hkn]; rfl)⟩
  · have hleast : 2 ^ 23 * (q * 2 ^ f32Scale p q) ≤ p := hlower.resolve_left (by omega)
    have hbelow := Nat.mul_lt_mul_of_pos_right hlt hq
    rw [hunit] at hbelow
    have hle := (roundHalfEven_nearest p hQ (2 ^ 23)).1
    rw [f32Significand]
    omega

/-! ### Rounding a signed quotient -/

/-- Of e/q units, `r` is a nearest finite value, and even when another one is as near. -/
structure NearestEven (e : Int) (q : Nat) (r : Sample) : Prop where
  finite : f32Exp r ≠ 255
  nearest : ∀ c : Sample, f32Exp c ≠ 255 → (f32Units r * q - e).natAbs ≤ (f32Units c * q - e).natAbs
  even : ∀ c : Sample, f32Exp c ≠ 255 → (f32Units r * q - e).natAbs = (f32Units c * q - e).natAbs →
    f32Units c ≠ f32Units r → r.getLsbD 0 = false

theorem f32Units_mul_sub (c : Sample) (q : Nat) (sign : Bool) (p : Nat) :
    (f32Units c * q - withSign sign p).natAbs =
      if f32Sign c = sign then ((f32Mag c * q : Nat) - (p : Int)).natAbs else f32Mag c * q + p := by
  rw [f32Units_eq, withSign_mul_natCast]
  cases f32Sign c <;> cases sign <;> simp <;> omega

/-- Below the threshold a rounded quotient is the nearest finite value of either sign, ties to even. -/
theorem f32Round_nearestEven (sign : Bool) {p q : Nat} (hq : 0 < q) (h : p < (2 ^ 25 - 1) * 2 ^ 252 * q) :
    NearestEven (withSign sign p) q (f32Round sign p q) := by
  have hsign := f32Sign_f32Round sign p q
  have hlow := f32Low_f32Round sign p q
  have hmag : f32Mag (f32Round sign p q) = lowMag (f32RoundMag p q) := by rw [f32Mag_eq, hlow]
  have hnearest := fun c : Sample => f32Mag_eq c ▸ f32RoundMag_nearest hq h (f32Low c)
  generalize f32Round sign p q = r at *
  rw [← hmag] at hnearest
  have hr := f32Units_mul_sub r q sign p
  rw [if_pos hsign] at hr
  refine ⟨(f32Exp_ne_iff r).mpr (hlow ▸ (f32RoundMag_of_lt hq h).2), fun c _ => ?_, fun c _ heq hne => ?_⟩
  · have hle := (hnearest c).1
    rw [hr, f32Units_mul_sub]
    split <;> omega
  · rw [getLsbD_zero_eq, hlow, decide_eq_false_iff_not, Nat.mod_two_not_eq_one]
    have hle := (hnearest c).1
    rw [hr, f32Units_mul_sub] at heq
    by_cases hc : f32Mag c = f32Mag r
    · refine absurd ?_ hne
      split at heq
      · next hs => rw [f32Units_eq, f32Units_eq, hs, hsign, hc]
      · have hzero : (f32Mag r * q - (p : Int)).natAbs ≤ p := by simpa [f32Mag_zero] using (hnearest 0#32).1
        have hprod : f32Mag r * q = 0 := by rw [hc] at heq; omega
        have hr0 : f32Mag r = 0 := (Nat.mul_eq_zero.mp hprod).resolve_right (by omega)
        rw [(f32Units_eq_zero_iff c).mpr (hc.trans hr0), (f32Units_eq_zero_iff r).mpr hr0]
    · refine (hnearest c).2 ?_ hc
      split at heq <;> omega

/-! ### Sums and differences -/

theorem f32Add_of_finite (nan : Sample) {a b : Sample} (ha : f32Exp a ≠ 255) (hb : f32Exp b ≠ 255) :
    f32Add nan a b =
      if f32Units a + f32Units b = 0 then f32Pack (f32Sign a && f32Sign b) 0
      else f32Round (decide (f32Units a + f32Units b < 0)) (f32Units a + f32Units b).natAbs 1 := by
  simp [f32Add, not_isNaN_of_finite, not_isInf_of_finite, ha, hb]

/-- An exact zero of either sign is a rounded sum of 0. -/
theorem roundedSum_zero (sign : Bool) : RoundedSum 0 sign (f32Pack sign 0) where
  zero := fun _ => by cases sign <;> rfl
  overflow := fun h => absurd h (by decide)
  finite := fun _ => by cases sign <;> decide
  nearest := fun _ c _ => by
    have hunits : f32Units (f32Pack sign 0) = 0 := by cases sign <;> decide
    rw [hunits]
    omega
  even := fun _ c _ _ _ => by cases sign <;> rfl

/-- A sum that is not zero, rounded once. -/
theorem roundedSum_f32Round {e : Int} (he : e ≠ 0) (sign : Bool) :
    RoundedSum e sign (f32Round (decide (e < 0)) e.natAbs 1) := by
  have hround : e.natAbs < (2 ^ 25 - 1) * 2 ^ 252 → NearestEven e 1 (f32Round (decide (e < 0)) e.natAbs 1) := by
    intro h
    have := f32Round_nearestEven (decide (e < 0)) Nat.one_pos (by rwa [Nat.mul_one])
    rwa [withSign_natAbs] at this
  refine ⟨fun h => absurd h he, fun h => ?_, fun h => (hround h).finite, fun h c hc => ?_, fun h c hc => ?_⟩
  · rw [f32Round_of_overflow _ Nat.one_pos (by rwa [Nat.mul_one])]
    by_cases hneg : e < 0 <;> simp only [hneg, decide_true, decide_false, if_true, if_false] <;> rfl
  · simpa using (hround h).nearest c hc
  · simpa using (hround h).even c hc

theorem f32Add_roundedSum (nan : Sample) {a b : Sample} (ha : f32Exp a ≠ 255) (hb : f32Exp b ≠ 255) :
    RoundedSum (f32Units a + f32Units b) (f32Sign a && f32Sign b) (f32Add nan a b) := by
  rw [f32Add_of_finite nan ha hb]
  split
  · next hzero => rw [hzero]; exact roundedSum_zero _
  · next hne => exact roundedSum_f32Round hne _

/-- Settles O40: a difference is the sum with the negated subtrahend. -/
theorem f32AddRoundsToNearestEven : Obligations.F32AddRoundsToNearestEven := by
  intro nan a b ha hb
  have hsub := f32Add_roundedSum nan ha (b := f32Neg b) (by rwa [f32Exp_f32Neg])
  rw [f32Units_f32Neg, f32Sign_f32Neg, ← Int.sub_eq_add_neg] at hsub
  exact ⟨f32Add_roundedSum nan ha hb, hsub⟩

/-! ### Products and quotients -/

theorem f32IsInf_f32Inf (sign : Bool) : f32IsInf (f32Inf sign) = true := by cases sign <;> decide

theorem f32Mul_of_finite (nan : Sample) {a b : Sample} (ha : f32Exp a ≠ 255) (hb : f32Exp b ≠ 255) :
    f32Mul nan a b = f32Round (f32Sign a != f32Sign b) (f32Mag a * f32Mag b) (2 ^ 149) := by
  simp [f32Mul, not_isNaN_of_finite, not_isInf_of_finite, ha, hb]

theorem f32Div_of_finite (nan : Sample) {a b : Sample} (ha : f32Exp a ≠ 255) (hb : f32Exp b ≠ 255)
    (hb0 : f32Mag b ≠ 0) :
    f32Div nan a b = f32Round (f32Sign a != f32Sign b) (f32Mag a * 2 ^ 149) (f32Mag b) := by
  simp [f32Div, not_isNaN_of_finite, not_isInf_of_finite, ha, hb, hb0]

/-- Settles O41: the product of the magnitudes, 2^149 times too large in units of 2^-149, is rounded once. -/
theorem f32MulRoundsToNearestEven : Obligations.F32MulRoundsToNearestEven := by
  intro nan a b ha hb
  have hexact : f32Units a * f32Units b = withSign (f32Sign a != f32Sign b) (f32Mag a * f32Mag b) :=
    withSign_mul _ _ _ _
  have hthreshold : (2 ^ 25 - 1) * 2 ^ 401 = (2 ^ 25 - 1) * 2 ^ 252 * 2 ^ 149 := by
    rw [Nat.mul_assoc, ← Nat.pow_add]
  have hq : 0 < 2 ^ 149 := by positivity
  simp only [f32Mul_of_finite nan ha hb, hexact, natAbs_withSign, hthreshold]
  refine ⟨f32Sign_f32Round _ _ _, fun h => ?_, fun h => ?_⟩
  · rw [f32Round_of_overflow _ hq h]
    exact f32IsInf_f32Inf _
  · obtain ⟨hfin, hnear, heven⟩ := f32Round_nearestEven (f32Sign a != f32Sign b) hq h
    rw [Nat.cast_pow, Nat.cast_ofNat] at hnear heven
    exact ⟨hfin, fun c hc => ⟨hnear c hc, heven c hc⟩⟩

/-- A divisor's sign may be moved to the dividend. -/
theorem natAbs_mul_withSign_sub (x : Int) (s t : Bool) (n d : Nat) :
    (x * withSign t d - withSign s n).natAbs = (x * d - withSign (s != t) n).natAbs := by
  cases s <;> cases t <;> simp <;> omega

/-- Settles O42: the quotient of the magnitudes is rounded once; its sign is the product of the signs. -/
theorem f32DivRoundsToNearestEven : Obligations.F32DivRoundsToNearestEven := by
  intro nan a b ha hb hb0
  have hmag : f32Mag b ≠ 0 := mt (f32Units_eq_zero_iff b).mpr hb0
  have hq : 0 < f32Mag b := Nat.pos_of_ne_zero hmag
  have hdividend : f32Units a * 2 ^ 149 = withSign (f32Sign a) (f32Mag a * 2 ^ 149) := by
    rw [← withSign_mul_natCast, Nat.cast_pow, Nat.cast_ofNat, f32Units_eq]
  simp only [f32Div_of_finite nan ha hb hmag, hdividend, f32Units_eq b, natAbs_withSign, natAbs_mul_withSign_sub]
  refine ⟨f32Sign_f32Round _ _ _, fun h => ?_, fun h => ?_⟩
  · rw [f32Round_of_overflow _ hq h]
    exact f32IsInf_f32Inf _
  · obtain ⟨hfin, hnear, heven⟩ := f32Round_nearestEven (f32Sign a != f32Sign b) hq h
    exact ⟨hfin, fun c hc => ⟨hnear c hc, heven c hc⟩⟩

end Sys2Proof.Machine
end

section
/-! SUPPORT. The four F32 operations on NaNs, infinities and zero divisors (R17). -/

namespace Sys2Proof.Machine

/-! ### A NaN operand -/

theorem f32_of_isNaN (nan : Sample) {a b : Sample} (h : f32IsNaN a = true ∨ f32IsNaN b = true) :
    f32Add nan a b = nan ∧ f32Sub nan a b = nan ∧ f32Mul nan a b = nan ∧ f32Div nan a b = nan := by
  rcases h with h | h <;> simp [f32Add, f32Sub, f32Mul, f32Div, f32IsNaN_f32Neg, h]

/-! ### Sums -/

theorem f32Add_of_isInf_isInf (nan : Sample) {a b : Sample} (ha : f32IsInf a = true) (hb : f32IsInf b = true) :
    f32Add nan a b = if f32Sign a = f32Sign b then a else nan := by
  simp [f32Add, not_isNaN_of_isInf, ha, hb]

theorem f32Add_of_isInf_finite (nan : Sample) {a b : Sample} (ha : f32IsInf a = true) (hb : f32Exp b ≠ 255) :
    f32Add nan a b = a := by
  simp [f32Add, not_isNaN_of_isInf, not_isNaN_of_finite, not_isInf_of_finite, ha, hb]

theorem f32Add_of_finite_isInf (nan : Sample) {a b : Sample} (ha : f32Exp a ≠ 255) (hb : f32IsInf b = true) :
    f32Add nan a b = b := by
  simp [f32Add, not_isNaN_of_isInf, not_isNaN_of_finite, not_isInf_of_finite, ha, hb]

theorem f32Sub_of_isInf_isInf (nan : Sample) {a b : Sample} (ha : f32IsInf a = true) (hb : f32IsInf b = true) :
    f32Sub nan a b = if f32Sign a = f32Sign b then nan else a := by
  rw [f32Sub, f32Add_of_isInf_isInf nan ha (by rwa [f32IsInf_f32Neg]), f32Sign_f32Neg]
  cases f32Sign a <;> cases f32Sign b <;> rfl

theorem f32Sub_of_isInf_finite (nan : Sample) {a b : Sample} (ha : f32IsInf a = true) (hb : f32Exp b ≠ 255) :
    f32Sub nan a b = a :=
  f32Add_of_isInf_finite nan ha (by rwa [f32Exp_f32Neg])

theorem f32Sub_of_finite_isInf (nan : Sample) {a b : Sample} (ha : f32Exp a ≠ 255) (hb : f32IsInf b = true) :
    f32Sub nan a b = f32Neg b :=
  f32Add_of_finite_isInf nan ha (by rwa [f32IsInf_f32Neg])

/-! ### Products -/

theorem f32Mag_ne_zero_of_isInf {a : Sample} (h : f32IsInf a = true) : f32Mag a ≠ 0 := by
  rw [f32Mag_eq, (f32IsInf_iff a).mp h, ← lowMag_zero]
  exact lowMag_strictMono.injective.ne (by decide)

/-- An infinity times a value that is no NaN. -/
theorem f32Mul_of_isInf_left (nan : Sample) {a b : Sample} (ha : f32IsInf a = true) (hb : f32IsNaN b = false) :
    f32Mul nan a b = if f32Mag b = 0 then nan else f32Inf (f32Sign a != f32Sign b) := by
  simp [f32Mul, not_isNaN_of_isInf, ha, hb]

theorem f32Mul_of_finite_isInf (nan : Sample) {a b : Sample} (ha : f32Exp a ≠ 255) (hb : f32IsInf b = true) :
    f32Mul nan a b = if f32Mag a = 0 then nan else f32Inf (f32Sign a != f32Sign b) := by
  simp [f32Mul, not_isNaN_of_isInf, not_isNaN_of_finite, not_isInf_of_finite, ha, hb]

/-! ### Quotients -/

theorem f32Div_of_isInf_isInf (nan : Sample) {a b : Sample} (ha : f32IsInf a = true) (hb : f32IsInf b = true) :
    f32Div nan a b = nan := by
  simp [f32Div, not_isNaN_of_isInf, ha, hb]

theorem f32Div_of_isInf_finite (nan : Sample) {a b : Sample} (ha : f32IsInf a = true) (hb : f32Exp b ≠ 255) :
    f32Div nan a b = f32Inf (f32Sign a != f32Sign b) := by
  simp [f32Div, not_isNaN_of_isInf, not_isNaN_of_finite, not_isInf_of_finite, ha, hb]

theorem f32Div_of_finite_isInf (nan : Sample) {a b : Sample} (ha : f32Exp a ≠ 255) (hb : f32IsInf b = true) :
    f32Div nan a b = f32Pack (f32Sign a != f32Sign b) 0 := by
  simp [f32Div, not_isNaN_of_isInf, not_isNaN_of_finite, not_isInf_of_finite, ha, hb]

theorem f32Div_by_zero (nan : Sample) {a b : Sample} (ha : f32Exp a ≠ 255) (hb : f32Exp b ≠ 255)
    (hb0 : f32Mag b = 0) :
    f32Div nan a b = if f32Mag a = 0 then nan else f32Inf (f32Sign a != f32Sign b) := by
  simp [f32Div, not_isNaN_of_finite, not_isInf_of_finite, ha, hb, hb0]

/-- Settles O60: one case for each class of operands. -/
theorem f32SpecialOperands : Obligations.F32SpecialOperands := by
  intro nan a b
  simp only [f32Units_eq_zero_iff, ← f32Inf_bne, ← f32Pack_bne_zero]
  refine ⟨f32_of_isNaN nan, fun ha hb => ?_, fun ha hb => ?_, fun ha hb => ?_, fun ha hb => ?_⟩
  · refine ⟨f32Add_of_isInf_isInf nan ha hb, f32Sub_of_isInf_isInf nan ha hb, ?_, f32Div_of_isInf_isInf nan ha hb⟩
    rw [f32Mul_of_isInf_left nan ha (not_isNaN_of_isInf hb), if_neg (f32Mag_ne_zero_of_isInf hb)]
  · exact ⟨f32Add_of_isInf_finite nan ha hb, f32Sub_of_isInf_finite nan ha hb,
      f32Mul_of_isInf_left nan ha (not_isNaN_of_finite hb), f32Div_of_isInf_finite nan ha hb⟩
  · exact ⟨f32Add_of_finite_isInf nan ha hb, f32Sub_of_finite_isInf nan ha hb, f32Mul_of_finite_isInf nan ha hb,
      f32Div_of_finite_isInf nan ha hb⟩
  · exact f32Div_by_zero nan ha hb

end Sys2Proof.Machine
end

section
/-! SUPPORT. Which launches the checks of acceptance let through: the rows of R230's checks against the bytes of RS and
WS (R63, R64, R68, R70, R75, R76, R233, R234). -/

namespace Sys2Proof.Machine

/-! ### Rows and their bytes (R61 to R64) -/

theorem srcAddr_eq_row_add (fmt : Fmt) (ld : Latch) (x y : Int) :
    srcAddr fmt ld x y = srcAddr fmt ld 0 y + x * fmt.ps := by simp [srcAddr]

theorem dstAddr_eq_row_add (fmt : Fmt) (ld : Latch) (x y : Int) :
    dstAddr fmt ld x y = dstAddr fmt ld 0 y + x * fmt.ps := by simp [dstAddr]

theorem mem_srcRows {ld : Latch} {r : Int} : r ∈ srcRows ld ↔ ∃ y < ld.rows, srcAddr ld.fmt ld 0 y = r := by
  simp [srcRows]

theorem mem_dstRows {ld : Latch} {r : Int} : r ∈ dstRows ld ↔ ∃ y < ld.rows, dstAddr ld.fmt ld 0 y = r := by
  simp [dstRows]

/-- The bytes of `cols` samples of `ps` bytes each, one after the other, are the bytes of one row. -/
theorem exists_sample_byte_iff {ps : Nat} (hps : 0 < ps) (cols : Nat) (r a : Int) :
    (∃ x k : Nat, x < cols ∧ k < ps ∧ a = r + (x : Int) * ps + k) ↔ r ≤ a ∧ a < r + (cols * ps : Nat) := by
  constructor
  · rintro ⟨x, k, hx, hk, rfl⟩
    have hrow : (x + 1) * ps ≤ cols * ps := Nat.mul_le_mul_right ps hx
    have hbyte : x * ps + k < cols * ps := by rw [Nat.add_mul] at hrow; omega
    rw [← Int.natCast_mul]
    omega
  · rintro ⟨hle, hlt⟩
    obtain ⟨n, rfl⟩ := Int.le.dest hle
    have hn : n < cols * ps := by omega
    have hdiv : ((n / ps * ps + n % ps : Nat) : Int) = n := by rw [Nat.div_add_mod']
    rw [Int.natCast_add, Int.natCast_mul] at hdiv
    exact ⟨n / ps, n % ps, (Nat.div_lt_iff_lt_mul hps).mpr hn, Nat.mod_lt n hps, by omega⟩

/-- The bytes of a buffer whose sample (x, y) stands x samples after the start of row y are those of its rows. -/
theorem exists_buffer_byte_iff (ld : Latch) (addr : Int → Int → Int)
    (haddr : ∀ x y, addr x y = addr 0 y + x * ld.fmt.ps) (a : Int) :
    (∃ x y k : Nat, x < ld.cols ∧ y < ld.rows ∧ k < ld.fmt.ps ∧ a = addr x y + k) ↔
      ∃ y : Nat, y < ld.rows ∧ addr 0 y ≤ a ∧ a < addr 0 y + ld.rowBytes := by
  have hrow (y : Nat) := exists_sample_byte_iff (Fmt.ps_pos ld.fmt) ld.cols (addr 0 y) a
  constructor
  · rintro ⟨x, y, k, hx, hy, hk, ha⟩
    exact ⟨y, hy, (hrow y).mp ⟨x, k, hx, hk, haddr x y ▸ ha⟩⟩
  · rintro ⟨y, hy, hin⟩
    obtain ⟨x, k, hx, hk, ha⟩ := (hrow y).mpr hin
    exact ⟨x, y, k, hx, hy, hk, haddr x y ▸ ha⟩

/-- A byte of RS lies in a source row (R63). -/
theorem inRS_iff (ld : Latch) (a : Int) : InRS ld a ↔ ∃ r ∈ srcRows ld, r ≤ a ∧ a < r + ld.rowBytes := by
  simp only [mem_srcRows, exists_exists_and_eq_and]
  exact exists_buffer_byte_iff ld _ (srcAddr_eq_row_add ld.fmt ld) a

/-- A byte of WS lies in a destination row (R64). -/
theorem inWS_iff (ld : Latch) (a : Int) : InWS ld a ↔ ∃ r ∈ dstRows ld, r ≤ a ∧ a < r + ld.rowBytes := by
  simp only [mem_dstRows, exists_exists_and_eq_and]
  exact exists_buffer_byte_iff ld _ (dstAddr_eq_row_add ld.fmt ld) a

/-- A byte of either buffer lies in one of its rows. -/
theorem inRS_or_inWS_iff (ld : Latch) (a : Int) :
    InRS ld a ∨ InWS ld a ↔ ∃ r ∈ srcRows ld ++ dstRows ld, r ≤ a ∧ a < r + ld.rowBytes := by
  simp only [inRS_iff, inWS_iff, List.mem_append, or_and_right, exists_or]

/-! ### The checks (R230, R233, R234) -/

/-- The configuration check passes exactly for an accepted mode: every format is supported (R233). -/
theorem configError_eq_false_iff (p : Params) (m : Mode) (fmt : Fmt) :
    configError p m fmt = false ↔ Accepted p m := by
  have hsup : supported m fmt = true := by cases fmt <;> rfl
  cases hpol : p.sentinelPolicy <;> simp [configError, Accepted, hsup, hpol]

theorem geometryError_eq_false_iff (ld : Latch) : geometryError ld = false ↔ ValidGeometry ld := by
  simp only [geometryError, Bool.or_eq_false_iff, decide_eq_false_iff_not, not_le, not_lt]
  exact ⟨fun ⟨⟨⟨hw, hh⟩, hsrc⟩, hdst⟩ => ⟨hw, hh, hsrc, hdst⟩, fun ⟨hw, hh, hsrc, hdst⟩ => ⟨⟨⟨hw, hh⟩, hsrc⟩, hdst⟩⟩

theorem ValidGeometry.cols_pos {ld : Latch} (h : ValidGeometry ld) : 0 < ld.cols := by
  have := h.width_pos
  simp only [Latch.cols]; omega

theorem ValidGeometry.rows_pos {ld : Latch} (h : ValidGeometry ld) : 0 < ld.rows := by
  have := h.height_pos
  simp only [Latch.rows]; omega

theorem ValidGeometry.rowBytes_pos {ld : Latch} (h : ValidGeometry ld) : 0 < ld.rowBytes :=
  Nat.mul_pos h.cols_pos (Fmt.ps_pos ld.fmt)

theorem rowMisaligned_eq_false_iff (ld : Latch) :
    rowMisaligned ld = false ↔ ∀ y : Nat, y < ld.rows → srcAddr ld.fmt ld 0 y % 16 = 0 := by
  simp [rowMisaligned, mem_srcRows]

/-- Two rows of equal length overlap when they share a byte, the higher of their starts (R75). -/
theorem buffersOverlap_eq_false_iff (ld : Latch) :
    buffersOverlap ld = false ↔ ∀ a, ¬(InRS ld a ∧ InWS ld a) := by
  simp only [buffersOverlap, List.any_eq_false, inRS_iff, inWS_iff]
  constructor
  · rintro h a ⟨⟨r, hr, har, har'⟩, q, hq, haq, haq'⟩
    exact h r hr (by simpa using ⟨q, hq, by omega, by omega⟩)
  · intro h r hr hany
    obtain ⟨q, hq, hrq, hqr⟩ : ∃ q ∈ dstRows ld, r < q + ld.rowBytes ∧ q < r + ld.rowBytes := by simpa using hany
    exact h (max r q) ⟨⟨r, hr, by omega, by omega⟩, q, hq, by omega, by omega⟩

/-- A row that is not empty lies in the memory space when its bytes do (R76). -/
theorem rangeError_eq_false_iff {ld : Latch} (hpos : 0 < ld.rowBytes) :
    rangeError ld = false ↔ ∀ a, InRS ld a ∨ InWS ld a → 0 ≤ a ∧ a < (memorySize : Int) := by
  simp only [rangeError, List.any_eq_false, Bool.not_eq_true', Bool.not_eq_false, inSpace_iff, inRS_or_inWS_iff]
  constructor
  · rintro h a ⟨r, hr, hle, hlt⟩
    have := h r hr
    omega
  · intro h r hr
    have hfirst := h r ⟨r, hr, by omega, by omega⟩
    have hlast := h (r + ld.rowBytes - 1) ⟨r, hr, by omega, by omega⟩
    omega

/-- A row that is not empty meets a region when they share a byte, the higher of their starts (R70). -/
theorem touchesDevice_eq_false_iff (p : Params) {ld : Latch} (hpos : 0 < ld.rowBytes) :
    touchesDevice p ld = false ↔ ∀ a, InRS ld a ∨ InWS ld a → ∀ r ∈ p.deviceRegions,
      ¬((r.base : Int) ≤ a ∧ a < (r.base : Int) + r.size) := by
  simp only [touchesDevice, List.any_eq_false, inRS_or_inWS_iff]
  constructor
  · rintro h a ⟨q, hq, hle, hlt⟩ r hr ⟨hbase, hsize⟩
    exact h q hq (List.any_eq_true.mpr ⟨r, hr, decide_eq_true ⟨by omega, by omega, by omega⟩⟩)
  · intro h q hq hany
    obtain ⟨r, hr, hmeet⟩ := List.any_eq_true.mp hany
    obtain ⟨hqr, hrq, hsize⟩ := of_decide_eq_true hmeet
    exact h (max q r.base) ⟨q, hq, by omega, by omega⟩ r hr ⟨by omega, by omega⟩

theorem launchFault_eq_none_iff (p : Params) (ld : Latch) :
    launchFault p ld = none ↔ (ld.align = true → rowMisaligned ld = false) ∧ buffersOverlap ld = false ∧
      rangeError ld = false ∧ touchesDevice p ld = false := by
  unfold launchFault
  split_ifs <;> simp_all

/-- The checks by rows let through exactly the launches whose bytes the spec's conditions hold of (R230). -/
theorem validLaunch_iff (p : Params) (ld : Latch) :
    ValidLaunch p ld ↔ geometryError ld = false ∧ launchFault p ld = none := by
  rw [geometryError_eq_false_iff, launchFault_eq_none_iff, rowMisaligned_eq_false_iff, buffersOverlap_eq_false_iff]
  constructor
  · intro h
    have hpos := h.geometry.rowBytes_pos
    exact ⟨h.geometry, h.aligned, h.disjoint, (rangeError_eq_false_iff hpos).mpr h.in_memory,
      (touchesDevice_eq_false_iff p hpos).mpr h.ordinary⟩
  · rintro ⟨hgeo, halign, hdisj, hrange, hdevice⟩
    have hpos := hgeo.rowBytes_pos
    exact ⟨hgeo, halign, hdisj, (rangeError_eq_false_iff hpos).mp hrange,
      (touchesDevice_eq_false_iff p hpos).mp hdevice⟩

/-- The bytes reset draws anew are those of WS (R64, R281). -/
theorem mem_writeSet {ld : Latch} {n : Nat} (h : n ∈ writeSet ld) : ∃ a : Int, InWS ld a ∧ n = a.toNat := by
  simp only [writeSet, List.mem_flatMap, List.mem_map, List.bind_eq_flatMap, List.pure_def, List.mem_singleton,
    List.mem_range] at h
  obtain ⟨r, hr, _, ⟨k, hk, rfl⟩, rfl⟩ := h
  exact ⟨r + k, (inWS_iff ld _).mpr ⟨r, hr, by omega, by omega⟩, rfl⟩

end Sys2Proof.Machine
end

section
/-! SUPPORT. The invariant: it holds at reset, and each way a step answers keeps it (R28, R41, R42, R44). -/

namespace Sys2Proof.Machine

/-! ### Memory (R44) -/

/-- Memory is canonical and inside its space: the part of `Inv` about memory. -/
structure CanonicalMemory (m : Memory) : Prop where
  wf : m.wf = true
  space : ∀ c ∈ m, c.1 < memorySize

theorem Inv.canonical {s : State} (h : Inv s) : CanonicalMemory s.mem := ⟨h.mem_wf, h.mem_space⟩

theorem CanonicalMemory.of_write {m : Memory} (h : CanonicalMemory m) {a : Nat} (ha : a < memorySize) (b : Byte) :
    CanonicalMemory (m.write a b) := by
  refine ⟨Memory.write_wf m a b h.wf, fun c hc => ?_⟩
  obtain hold | rfl := Memory.mem_write m a b c hc
  · exact h.space c hold
  · exact ha

theorem UopEffect.canonical {s t : State} (h : UopEffect s t) (hs : CanonicalMemory s.mem) : CanonicalMemory t.mem :=
  ⟨h.keep.wf hs.wf, h.keep.space hs.space⟩

theorem WalkKeep.canonical {s t : State} (h : WalkKeep s t) (hs : CanonicalMemory s.mem) : CanonicalMemory t.mem :=
  ⟨h.wf hs.wf, h.space hs.space⟩

theorem CanonicalMemory.of_scramble {s : State} (h : CanonicalMemory s.mem) {as : List Nat}
    (has : ∀ a ∈ as, a < memorySize) : CanonicalMemory (scramble s as).mem := by
  obtain ⟨-, hwf, hmem⟩ := scramble_keep as s
  exact ⟨hwf h.wf, fun c hc => (hmem c hc).elim (h.space c) (has c.1)⟩

/-- The write set of a valid launch lies in the memory space (R76). -/
theorem ValidLaunch.writeSet_lt {p : Params} {ld : Latch} (h : ValidLaunch p ld) :
    ∀ a ∈ writeSet ld, a < memorySize := by
  intro n hn
  obtain ⟨a, ha, rfl⟩ := mem_writeSet hn
  have := h.in_memory a (.inr ha)
  omega

/-! ### States of the invariant -/

theorem inv_of_idle {t : State} (hphase : t.phase = .idle) (hlatch : t.latch = Latch.cleared)
    (hcursor : t.cursor = Cursor.origin) (hmem : CanonicalMemory t.mem) (hfree : t.hostResponse ≠ .stalled) :
    Inv t where
  mem_wf := hmem.wf
  mem_space := hmem.space
  idle_clear _ := ⟨hlatch, hcursor⟩
  busy_valid hb := by simp [hphase] at hb
  busy_reserved hb := by simp [hphase] at hb
  busy_cursor hb := by simp [hphase] at hb
  host_stalled := by simp [hphase, hfree]

/-- Nothing of the engine but memory, and no launch that it holds, differs. -/
theorem Inv.of_same_launch {s t : State} (h : Inv s) (hparams : t.params = s.params) (hphase : t.phase = s.phase)
    (hlatch : t.latch = s.latch) (hcursor : t.cursor = s.cursor) (hmem : CanonicalMemory t.mem)
    (hstalled : t.hostResponse = .stalled ↔ t.phase = .busy ∧ t.issuer = .host) : Inv t where
  mem_wf := hmem.wf
  mem_space := hmem.space
  idle_clear := by rw [hphase, hlatch, hcursor]; exact h.idle_clear
  busy_valid := by rw [hphase, hparams, hlatch]; exact h.busy_valid
  busy_reserved := by rw [hphase, hlatch]; exact h.busy_reserved
  busy_cursor := by rw [hphase, hlatch, hcursor]; exact h.busy_cursor
  host_stalled := hstalled

theorem Inv.not_stalled_of_idle {s : State} (h : Inv s) (hp : s.phase = .idle) : s.hostResponse ≠ .stalled := by
  simp [h.host_stalled, hp]

/-- An answer that completes keeps the invariant, since no master whose launch runs is answered. -/
theorem Inv.of_respond {s : State} (h : Inv s) {m : Master} {r : Response} (hr : r ≠ .stalled)
    (hm : m = .host → ¬(s.phase = .busy ∧ s.issuer = .host)) : Inv (s.respond m r) := by
  refine h.of_same_launch (by simp) (by simp) (by simp) (by simp) (by simpa using h.canonical) ?_
  cases m with
  | host => simpa [hr] using hm rfl
  | others => simpa using h.host_stalled

theorem inv_endLaunch {s : State} (r : ResultCode) (hmem : CanonicalMemory s.mem)
    (hstalled : s.hostResponse = .stalled → s.issuer = .host) : Inv (endLaunch r s) := by
  refine inv_of_idle (by simp) (by simp) (by simp) (by simpa using hmem) ?_
  rw [endLaunch_hostResponse]
  split
  · decide
  · exact mt hstalled ‹_›

/-- Settles O57: an idle engine, a free host and an empty memory. -/
theorem invariantHoldsAtReset : Obligations.InvariantHoldsAtReset :=
  inv_of_idle rfl rfl rfl ⟨rfl, fun _ hc => absurd hc List.not_mem_nil⟩ (by decide)

/-! ### The walk (R208) -/

theorem WalkKeep.launch_eq {s t : State} (h : WalkKeep s t) :
    t.phase = s.phase ∧ t.latch = s.latch ∧ t.issuer = s.issuer ∧ t.hostResponse = s.hostResponse := by
  rw [h.frame]
  exact ⟨rfl, rfl, rfl, rfl⟩

/-- A running launch ends, or stands still at one of its units, which lies in the grid. -/
theorem Inv.of_runUnits {us : List WorkUnit} {s t : State} (h : Inv s) (hbusy : s.phase = .busy)
    (hus : ∀ u ∈ us, u ∈ planeUnits s.latch) (hrun : runUnits us s = .next t) : Inv t := by
  obtain ⟨m, hwalk, hend⟩ := runUnits_cases hrun
  obtain ⟨hphase, hlatch, hissuer, hresponse⟩ := hwalk.launch_eq
  have hmem := hwalk.canonical h.canonical
  have hstalled : m.hostResponse = .stalled ↔ m.phase = .busy ∧ m.issuer = .host := by
    rw [hphase, hissuer, hresponse]
    exact h.host_stalled
  obtain rfl | ⟨u, hu, -, -, rfl⟩ := hend
  · exact inv_endLaunch .ok hmem fun hs => (hstalled.mp hs).2
  · obtain ⟨hy, hx, -⟩ := mem_planeUnits (hus u hu)
    constructor
    case mem_wf => exact hmem.wf
    case mem_space => exact hmem.space
    case idle_clear => simp [hphase, hbusy]
    case busy_valid => simpa [hwalk.params_eq, hlatch] using fun _ => h.busy_valid hbusy
    case busy_reserved => simpa [hlatch] using fun _ => h.busy_reserved hbusy
    case busy_cursor => simpa [hlatch] using fun _ => ⟨hx, hy⟩
    case host_stalled => exact hstalled

/-! ### Commands (R26, R230) -/

/-- A command that passes the checks starts a launch of the invariant at the grid's first position. -/
theorem Inv.of_acceptCommand {s : State} (h : Inv s) (hidle : s.phase = .idle) {m : Mode} {fmt : Fmt} {al : Bool}
    (hmode : Accepted s.params m) (hvalid : ValidLaunch s.params (latchOf m fmt al s.regs)) :
    Inv (acceptCommand m fmt al s) where
  mem_wf := by simpa using h.mem_wf
  mem_space := by simpa using h.mem_space
  idle_clear := by simp
  busy_valid _ := by simpa using ⟨hvalid, hmode⟩
  busy_reserved _ := by simp [latchOf]
  busy_cursor _ := by simpa using ⟨hvalid.geometry.cols_pos, hvalid.geometry.rows_pos⟩
  host_stalled := by simp [h.not_stalled_of_idle hidle]

/-- A launch that a check refuses has ended again. -/
theorem Inv.endLaunch_acceptCommand {s : State} (h : Inv s) (hidle : s.phase = .idle) (m : Mode) (fmt : Fmt)
    (al : Bool) (r : ResultCode) : Inv (endLaunch r (acceptCommand m fmt al s)) :=
  inv_endLaunch r (by simpa using h.canonical) (by simp [h.not_stalled_of_idle hidle])

theorem Inv.of_filterPlane {m : Mode} {fmt : Fmt} {al : Bool} {s t : State} (h : Inv s)
    (hrun : filterPlane m fmt al s = .next t) : Inv t := by
  obtain ⟨-, rfl⟩ | ⟨hidle, -, rfl⟩ | ⟨hidle, -, -, rfl⟩ | ⟨hidle, hconfig, hgeo, hfault, hwalk⟩ :=
    filterPlane_cases hrun
  · exact h
  · exact h.endLaunch_acceptCommand hidle m fmt al .errMode
  · exact h.endLaunch_acceptCommand hidle m fmt al .errGeometry
  · have hmode := (configError_eq_false_iff s.params m fmt).mp hconfig
    have hvalid := (validLaunch_iff s.params _).mpr ⟨hgeo, hfault⟩
    exact (h.of_acceptCommand hidle hmode hvalid).of_runUnits (by simp) (by simp) hwalk

theorem Inv.of_uopEffect {s t : State} (h : Inv s) (heff : UopEffect s t) : Inv t := by
  have hmem := heff.canonical h.canonical
  rw [heff.frame]
  exact h.of_same_launch rfl rfl rfl rfl hmem h.host_stalled

theorem Inv.of_exec {i : Instr} {s t : State} (h : Inv s) (hexec : exec i s = .next t) : Inv t := by
  obtain ⟨m, fmt, al, rfl⟩ | huop := filter_or_exec_eq_execUop i s
  · rw [exec_filter] at hexec
    exact h.of_filterPlane hexec
  · rw [huop] at hexec
    exact h.of_uopEffect (execUop_effect hexec)

theorem Inv.of_writeCommand {m : Master} {w : Word} {s t : State} (h : Inv s)
    (hm : m = .host → ¬(s.phase = .busy ∧ s.issuer = .host)) (hrun : writeCommand m w s = .next t) : Inv t := by
  obtain ⟨-, rfl⟩ | ⟨hidle, i, -, hexec⟩ | ⟨hidle, r, -, rfl⟩ := writeCommand_cases hrun
  · exact h.of_respond (by decide) hm
  · have hissued : Inv { s with issuer := m } :=
      inv_of_idle hidle (h.idle_clear hidle).1 (h.idle_clear hidle).2 h.canonical (h.not_stalled_of_idle hidle)
    exact hissued.of_exec hexec
  · exact inv_endLaunch .errMode h.canonical fun hs => absurd hs (h.not_stalled_of_idle hidle)

/-! ### Accesses (R22, R60, R74, R281) -/

/-- Reset abandons a launch inside its write set, and no CMD write is held back after it (R281). -/
theorem Inv.of_resetUnit {s : State} (h : Inv s) : Inv (resetUnit s) := by
  obtain ⟨mem, draws, hostResponse, othersResponse, heq, hidle, hbusy⟩ := resetUnit_eq s
  rw [heq]
  cases hp : s.phase with
  | idle =>
    obtain ⟨rfl, -, rfl, -⟩ := hidle hp
    exact inv_of_idle rfl rfl rfl h.canonical (h.not_stalled_of_idle hp)
  | busy =>
    obtain ⟨rfl, hresponse⟩ := hbusy hp
    refine inv_of_idle rfl rfl rfl (h.canonical.of_scramble (h.busy_valid hp).1.writeSet_lt) ?_
    cases hissuer : s.issuer with
    | host => simp [hresponse, hissuer]
    | others => simpa [hresponse, hissuer, hp] using h.host_stalled

theorem Inv.of_access {m : Master} {a : Access} {s t : State} (h : Inv s)
    (hm : m = .host → ¬(s.phase = .busy ∧ s.issuer = .host)) (hacc : access m a s = .next t) : Inv t := by
  obtain ⟨r, hr, rfl⟩ | ⟨n, w, -, rfl⟩ | ⟨addr, b, -, -, rfl⟩ | ⟨b, -, rfl⟩ | ⟨w, hcmd⟩ | ⟨-, rfl⟩ := access_cases hacc
  · exact h.of_respond hr hm
  · have hwritten : Inv { s with regs := s.regs.write n w } :=
      h.of_same_launch rfl rfl rfl rfl h.canonical h.host_stalled
    exact hwritten.of_respond (by decide) hm
  · have hwritten : Inv { s with mem := s.mem.write addr.toNat b } :=
      h.of_same_launch rfl rfl rfl rfl (h.canonical.of_write addr.isLt b) h.host_stalled
    exact hwritten.of_respond (by decide) hm
  · have hdrawn : Inv { s with draws := s.draws + 1 } :=
      h.of_same_launch rfl rfl rfl rfl h.canonical h.host_stalled
    exact hdrawn.of_respond (by simp) hm
  · exact h.of_writeCommand hm hcmd
  · exact h.of_resetUnit

/-! ### Steps -/

theorem Inv.of_takeTurn {s : State} (h : Inv s) : Inv s.takeTurn :=
  h.of_same_launch rfl rfl rfl rfl h.canonical h.host_stalled

/-- The host acts only while no launch of its own runs (R28). -/
theorem not_stalled_of_due_host {s : State} {a : Access} (h : s.due = some (.host, a)) :
    ¬(s.phase = .busy ∧ s.issuer = .host) := by
  obtain ⟨b, rest, -, hdue, -⟩ | ⟨-, ⟨b, rest, hfree, -, -, -⟩ | ⟨-, hdue, -⟩⟩ := due_cases s
  · simp [hdue] at h
  · exact hfree
  · simp [hdue] at h

/-- Settles O58: each of the four ways a step answers keeps the invariant. -/
theorem everyStepKeepsTheInvariant : Obligations.EveryStepKeepsTheInvariant := by
  intro s t h hstep
  obtain ⟨u, i, -, -, hexec⟩ | ⟨m, a, -, hdue, hacc⟩ | ⟨-, -, hbusy, hwalk⟩ | ⟨-, -, -, rfl⟩ := step_cases hstep
  · have htaken : Inv { s with uopWord := none } := h.of_same_launch rfl rfl rfl rfl h.canonical h.host_stalled
    exact htaken.of_exec hexec
  · have hfree : m = .host → ¬(s.phase = .busy ∧ s.issuer = .host) := by
      rintro rfl
      exact not_stalled_of_due_host hdue
    exact h.of_takeTurn.of_access hfree hacc
  · exact h.of_runUnits hbusy (fun u hu => mem_unitsFrom hu) hwalk
  · exact h.of_takeTurn

end Sys2Proof.Machine
end

section
/-! SUPPORT. Where an access of an aligned word in the register block goes, and what it reads and writes (R22, R26 to
R36). -/

namespace Sys2Proof.Machine

/-! ### Offsets of the block (R22, R35) -/

theorem touchesRegBlock_offset (p : Params) {o : Nat} (ho : o < 0x100) :
    touchesRegBlock p (p.regBase + o) 4 = true := by
  rw [touchesRegBlock_iff, regBlockSize]
  omega

theorem badRegAccess_offset (p : Params) {o : Nat} (ho : o % 4 = 0) : badRegAccess p (p.regBase + o) 4 = false := by
  rw [Bool.eq_false_iff, ne_eq, badRegAccess_iff]
  omega

theorem RegName.offset_lt_block (n : RegName) : n.offset < 0x100 := n.offset_lt.trans (by decide)

/-- An aligned 32-bit write of a register reaches that register. -/
theorem access_regWrite_offset (m : Master) (n : RegName) (w : Word) (s : State) :
    access m (.regWrite (s.params.regBase + n.offset) 4 w) s = writeRegister m n w s := by
  simp [access, regWriteAccess, touchesRegBlock_offset _ n.offset_lt_block, badRegAccess_offset _ n.offset_mod,
    RegName.ofOffset_offset]

/-- An aligned 32-bit read of a register answers its content. -/
theorem access_regRead_offset (m : Master) (n : RegName) (s : State) :
    access m (.regRead (s.params.regBase + n.offset) 4) s = .next (s.respond m (.data (s.readReg n))) := by
  simp [access, regReadAccess, touchesRegBlock_offset _ n.offset_lt_block, badRegAccess_offset _ n.offset_mod,
    RegName.ofOffset_offset]

/-! ### Descriptor registers (R36) -/

@[simp] theorem respond_readReg (s : State) (m : Master) (r : Response) (q : RegName) :
    (s.respond m r).readReg q = s.readReg q := by
  cases m <;> cases q <;> rfl

theorem writeRegister_descriptor (m : Master) {n : RegName} (w : Word) (s : State) (hcmd : n ≠ .cmd)
    (hstatus : n ≠ .status) :
    writeRegister m n w s = .next ({ s with regs := s.regs.write n w }.respond m .done) := by
  cases n with
  | cmd => exact absurd rfl hcmd
  | status => exact absurd rfl hstatus
  | _ => rfl

/-- Settles O10. -/
theorem descriptorWriteChangesItsRegister : Obligations.DescriptorWriteChangesItsRegister := by
  intro s m n w hcmd hstatus
  refine ⟨{ s with regs := s.regs.write n w }.respond m .done, ?_, by rw [respond_regs], fun q => ?_⟩
  · rw [access_regWrite_offset, writeRegister_descriptor m w s hcmd hstatus]
  · rw [respond_readReg, readReg_write s n q w hstatus]

/-! ### CMD (R26, R27) -/

theorem access_writeCommand (m : Master) (w : Word) (s : State) :
    access m (.regWrite s.params.regBase 4 w) s = writeCommand m w s :=
  access_regWrite_offset m .cmd w s

theorem writeCommand_busy (m : Master) (w : Word) {s : State} (h : s.phase = .busy) :
    writeCommand m w s = .next (s.respond m .done) := by
  simp only [writeCommand, h]

theorem writeCommand_decoded (m : Master) {w : Word} {i : Instr} {s : State} (h : s.phase = .idle)
    (hi : decodeCommand w = .ok i) : writeCommand m w s = exec i { s with issuer := m } := by
  simp only [writeCommand, h, hi]

theorem filterPlane_busy (m : Mode) (fmt : Fmt) (al : Bool) {s : State} (h : s.phase = .busy) :
    filterPlane m fmt al s = .next s := by
  simp only [filterPlane, h]

/-- Settles O11. -/
theorem commandWhileBusyIsNotAccepted : Obligations.CommandWhileBusyIsNotAccepted := by
  refine ⟨fun s m w hbusy => ?_, fun s m fmt al hbusy => ?_⟩
  · rw [access_writeCommand, writeCommand_busy m w hbusy]
  · rw [exec_filter, filterPlane_busy m fmt al hbusy]

/-! ### STATUS (R30) -/

theorem getLsbD_statusWord_busy (s : State) : (statusWord s).getLsbD 31 = decide (s.phase = .busy) := by
  simp only [statusWord, BitVec.getLsbD_append]
  cases s.phase <;> rfl

theorem statusWord_reserved (s : State) : (statusWord s).extractLsb' 2 29 = 0#29 := by
  have hfields : ∀ (busy : BitVec 1) (code : BitVec 2), (busy ++ 0#29 ++ code).extractLsb' 2 29 = 0#29 := by decide
  exact hfields _ _

theorem statusWord_result (s : State) : (statusWord s).extractLsb' 0 2 = s.result.code := by
  have hfields : ∀ (busy : BitVec 1) (code : BitVec 2), (busy ++ 0#29 ++ code).extractLsb' 0 2 = code := by decide
  exact hfields _ _

/-- Settles O12. -/
theorem registerReadsAnswerTheirContent : Obligations.RegisterReadsAnswerTheirContent := by
  refine ⟨fun s m n => access_regRead_offset m n s, fun s => ?_, fun s m w => access_regWrite_offset m .status w s⟩
  refine ⟨getLsbD_statusWord_busy s, statusWord_reserved s, ?_⟩
  rw [State.readReg, statusWord_result]
  cases s.result <;> rfl

/-! ### Reserved offsets and misfit accesses (R34, R35) -/

/-- Settles O13: no register stands at such an offset. -/
theorem reservedOffsetsReadZero : Obligations.ReservedOffsetsReadZero := by
  intro s m o w hlo hhi hmod
  constructor
  · simp [access, regReadAccess, touchesRegBlock_offset _ hhi, badRegAccess_offset _ hmod,
      RegName.ofOffset_eq_none hlo]
  · simp [access, regWriteAccess, touchesRegBlock_offset _ hhi, badRegAccess_offset _ hmod,
      RegName.ofOffset_eq_none hlo]

/-- Settles O14. -/
theorem misfitRegisterAccessFaults : Obligations.MisfitRegisterAccessFaults := by
  intro s m addr bytes w hend hstart hmisfit
  have htouches : touchesRegBlock s.params addr bytes = true := (touchesRegBlock_iff _ _ _).mpr ⟨hend, hstart⟩
  have hbad : badRegAccess s.params addr bytes = true := (badRegAccess_iff _ _ _).mpr hmisfit
  constructor
  · simp [access, regReadAccess, htouches, hbad]
  · simp [access, regWriteAccess, htouches, hbad]

/-! ### Reset values (R45) -/

/-- Settles O16. -/
theorem resetStateIsClear : Obligations.ResetStateIsClear :=
  ⟨fun n => by cases n <;> rfl, rfl, rfl⟩

end Sys2Proof.Machine
end

section
/-! SUPPORT. Whose turn a step takes, and where an accepted launch stands when a master is due (R20, R26, R28, R42,
R284). -/

namespace Sys2Proof.Machine

/-! ### The turn due -/

theorem step_of_uopWord {s : State} {u : UWord} {i : Instr} (hu : s.uopWord = some u) (hi : decodeUop u = .ok i) :
    step s = exec i { s with uopWord := none } := by
  simp only [step, turn, hu, runUopWord, hi]

theorem step_of_due {s : State} {m : Master} {a : Access} (hu : s.uopWord = none) (hd : s.due = some (m, a)) :
    step s = access m a s.takeTurn := by
  simp only [step, turn, hu, hd]

theorem step_of_busy {s : State} (hu : s.uopWord = none) (hd : s.due = none) (hp : s.phase = .busy) :
    step s = resumeLaunch s := by
  simp only [step, turn, hu, hd, hp]

theorem step_of_idle {s : State} (hu : s.uopWord = none) (hd : s.due = none) (hp : s.phase = .idle) :
    step s = .next s.takeTurn := by
  simp only [step, turn, hu, hd, hp]

/-- Another master's access at the head of its list comes first. -/
theorem due_of_others {s : State} {a : Access} {rest : List (Option Access)} (h : s.others = some a :: rest) :
    s.due = some (.others, a) ∧ s.takeTurn = { s with others := rest } := by
  simp [State.due, State.takeTurn, h]

/-- The host's access at the head of its list comes when no other master acts and it is not stalled. -/
theorem due_of_host {s : State} {a : Access} {rest : List (Option Access)} (hother : NoOtherDue s)
    (hfree : ¬(s.phase = .busy ∧ s.issuer = .host)) (h : s.host = some a :: rest) :
    s.due = some (.host, a) ∧ s.takeTurn = { s with host := rest, others := s.others.tail } := by
  obtain ⟨b, tail, ho, -⟩ | ⟨-, ⟨b, tail, -, hh, hd, ht⟩ | ⟨hstalled | hpass, -⟩⟩ := due_cases s
  · exact absurd (by rw [ho]; rfl) (hother b)
  · obtain ⟨⟨⟩, rfl⟩ := List.cons_eq_cons.mp (h.symm.trans hh)
    exact ⟨hd, ht⟩
  · exact absurd hstalled hfree
  · exact absurd (by rw [h]; rfl) (hpass a)

/-- With no access due, the turn passes on both lists; the host's waits while it is stalled. -/
theorem NoAccessDue.due_eq_none {s : State} (h : NoAccessDue s) :
    s.due = none ∧ s.takeTurn = { s with
      host := if s.phase = .busy ∧ s.issuer = .host then s.host else s.host.tail
      others := s.others.tail } := by
  obtain ⟨a, rest, ho, -⟩ | ⟨-, ⟨a, rest, hfree, hh, -⟩ | ⟨-, hd, ht⟩⟩ := due_cases s
  · exact absurd (by rw [ho]; rfl) (h.no_other a)
  · exact h.no_host.elim (absurd · hfree) fun hpass => absurd (by rw [hh]; rfl) (hpass a)
  · exact ⟨hd, ht⟩

theorem OtherTurn.step_eq {s : State} {a : Access} {rest : List (Option Access)} (h : OtherTurn a rest s) :
    step s = access .others a { s with others := rest } := by
  obtain ⟨hdue, hturn⟩ := due_of_others h.due
  rw [step_of_due h.no_uop hdue, hturn]

theorem HostTurn.step_eq {s : State} {a : Access} {rest : List (Option Access)} (h : HostTurn a rest s) :
    step s = access .host a { s with host := rest, others := s.others.tail } := by
  obtain ⟨hdue, hturn⟩ := due_of_host h.no_other h.not_stalled h.due
  rw [step_of_due h.no_uop hdue, hturn]

/-- Settles O8. -/
theorem stepTakesTheTurnDue : Obligations.StepTakesTheTurnDue := by
  refine ⟨fun _ _ _ h => h.step_eq, fun _ _ _ h => h.step_eq, fun s h hbusy => ?_, fun s h hidle => ?_⟩
  · exact step_of_busy h.no_uop h.due_eq_none.1 hbusy
  · obtain ⟨hdue, hturn⟩ := h.due_eq_none
    rw [step_of_idle h.no_uop hdue hidle, hturn]
    simp [hidle]

/-- Settles O7. -/
theorem stepRunsTheDecodedInstruction : Obligations.StepRunsTheDecodedInstruction := by
  refine ⟨fun s u i hu hi => step_of_uopWord hu hi, fun s w rest i hidle h hi => ?_, fun s w rest i hidle h hi => ?_⟩
  · rw [h.step_eq]
    exact (access_writeCommand .host w _).trans (writeCommand_decoded .host hidle hi)
  · rw [h.step_eq]
    exact (access_writeCommand .others w _).trans (writeCommand_decoded .others hidle hi)

/-! ### The first unit of an accepted launch (R42, R208) -/

/-- The walk of a plane begins with the scalar unit at (0, 0), the first row being a border row. -/
theorem planeUnits_eq_cons {ld : Latch} (hr : 0 < ld.rows) (hc : 0 < ld.cols) :
    ∃ rest, planeUnits ld = scalarUnit 0 0 :: rest := by
  obtain ⟨rows, hrows⟩ := Nat.exists_eq_add_one.mpr hr
  obtain ⟨cols, hcols⟩ := Nat.exists_eq_add_one.mpr hc
  simp [planeUnits, hrows, hcols, rowUnits, scalarRow, List.range_succ_eq_map]

/-- A launch whose first turn another access takes stands still before its first unit (log 5). -/
theorem runUnits_planeUnits_of_due {ld : Latch} {s : State} {d : Master × Access} (hgeo : ValidGeometry ld)
    (hdue : s.due = some d) : runUnits (planeUnits ld) s = .next { s with cursor := Cursor.origin } := by
  obtain ⟨rest, hunits⟩ := planeUnits_eq_cons hgeo.rows_pos hgeo.cols_pos
  rw [hunits, runUnits, hdue]
  rfl

/-- A valid command of an idle engine walks its plane. -/
theorem filterPlane_of_valid {s : State} {m : Mode} {fmt : Fmt} {al : Bool} (hidle : s.phase = .idle)
    (hmode : Accepted s.params m) (hvalid : ValidLaunch s.params (latchOf m fmt al s.regs)) :
    filterPlane m fmt al s = runUnits (planeUnits (latchOf m fmt al s.regs)) (acceptCommand m fmt al s) := by
  obtain ⟨hgeo, hfault⟩ := (validLaunch_iff _ _).mp hvalid
  simp [filterPlane, hidle, startLaunch, (configError_eq_false_iff _ _ fmt).mpr hmode, hgeo, hfault]

theorem acceptCommand_due {s : State} {m : Mode} {fmt : Fmt} {al : Bool} {a : Access} {rest : List (Option Access)}
    (h : s.others = some a :: rest ∨ (s.issuer = .others ∧ NoOtherDue s ∧ s.host = some a :: rest)) :
    ∃ d, (acceptCommand m fmt al s).due = some d := by
  obtain hothers | ⟨hissuer, hother, hhost⟩ := h
  · exact ⟨_, (due_of_others (by rw [acceptCommand_others, hothers])).1⟩
  · have hother' : NoOtherDue (acceptCommand m fmt al s) := by simpa [NoOtherDue] using hother
    exact ⟨_, (due_of_host hother' (by simp [hissuer]) (by rw [acceptCommand_host, hhost])).1⟩

/-- An accepted command has put the cursor at its first position already. -/
theorem acceptCommand_with_cursor_origin (m : Mode) (fmt : Fmt) (al : Bool) (s : State) :
    { acceptCommand m fmt al s with cursor := Cursor.origin } = acceptCommand m fmt al s := by
  unfold acceptCommand
  cases s.issuer <;> rfl

/-- Settles O22: the walk stands still before its first unit, so the accepted state is what is left. -/
theorem acceptedLaunchLatchesItsDescriptor : Obligations.AcceptedLaunchLatchesItsDescriptor := by
  intro s m fmt al a rest hidle hmode hvalid hnext
  obtain ⟨d, hdue⟩ := acceptCommand_due (m := m) (fmt := fmt) (al := al) hnext
  rw [exec_filter, filterPlane_of_valid hidle hmode hvalid, runUnits_planeUnits_of_due hvalid.geometry hdue,
    acceptCommand_with_cursor_origin]
  rfl

end Sys2Proof.Machine
end

section
/-! SUPPORT. What the buffers of a launch keep from other masters (R60, R74), and the faults of an undefined launch (R68,
R70, R75, R76, R230). -/

namespace Sys2Proof.Machine

/-! ### Accesses to memory during a launch (R74) -/

theorem inReadSet_iff (ld : Latch) (a : Int) : inReadSet ld a = true ↔ InRS ld a := by
  simp [inReadSet, inRows, inRS_iff]

theorem inWriteSet_iff (ld : Latch) (a : Int) : inWriteSet ld a = true ↔ InWS ld a := by
  simp [inWriteSet, inRows, inWS_iff]

theorem inLaunchBuffers_iff (s : State) (a : Addr) :
    inLaunchBuffers s a = true ↔ InRS s.latch a.toNat ∨ InWS s.latch a.toNat := by
  rw [inLaunchBuffers, Bool.or_eq_true, inReadSet_iff, inWriteSet_iff]

/-- A byte is written unless a launch runs that has it in a buffer. -/
theorem memWriteAccess_of_free (m : Master) (a : Addr) (b : Byte) {s : State}
    (h : s.phase = .busy → inLaunchBuffers s a = false) :
    memWriteAccess m a b s = .next ({ s with mem := s.mem.write a.toNat b }.respond m .done) := by
  cases hp : s.phase with
  | idle => simp only [memWriteAccess, hp]
  | busy => simp [memWriteAccess, hp, h hp]

/-- A byte is read as memory holds it unless a launch runs that writes it. -/
theorem memReadAccess_of_free (m : Master) (a : Addr) {s : State}
    (h : s.phase = .busy → inWriteSet s.latch a.toNat = false) :
    memReadAccess m a s = .next (s.respond m (.byte (s.mem.read a.toNat))) := by
  cases hp : s.phase with
  | idle => simp only [memReadAccess, hp]
  | busy => simp [memReadAccess, hp, h hp]

/-- Settles O15: the check by rows is the one by bytes, and a byte written is the one byte that differs. -/
theorem buffersBelongToTheLaunch : Obligations.BuffersBelongToTheLaunch := by
  intro s m a b
  refine ⟨fun hbusy hin => ?_, fun hbusy hin => ?_, fun hout => ?_, fun hout => ?_⟩
  · have hin := (inLaunchBuffers_iff s a).mpr hin
    simp [access, memWriteAccess, hbusy, hin]
  · have hin := (inWriteSet_iff s.latch a.toNat).mpr hin
    exact ⟨_, by simp only [access, memReadAccess, hbusy, hin, if_true]; rfl⟩
  · have hfree : s.phase = .busy → inLaunchBuffers s a = false := fun hbusy => by
      rw [Bool.eq_false_iff, ne_eq, inLaunchBuffers_iff, not_or]
      exact hout hbusy
    exact ⟨_, memWriteAccess_of_free m a b hfree, fun c => Memory.read_write s.mem a.toNat c b⟩
  · have hfree : s.phase = .busy → inWriteSet s.latch a.toNat = false := fun hbusy => by
      rw [Bool.eq_false_iff, ne_eq, inWriteSet_iff]
      exact hout hbusy
    exact memReadAccess_of_free m a hfree

/-! ### Undefined launches (R230) -/

/-- Settles O21. -/
theorem checksAcceptExactlyValidLaunches : Obligations.ChecksAcceptExactlyValidLaunches :=
  fun p ld => (validLaunch_iff p ld).symm

/-- Bases are not negative and the strides of a valid geometry are positive, so no row starts below 0. -/
theorem ValidGeometry.nonneg {ld : Latch} (h : ValidGeometry ld) {a : Int} (ha : InRS ld a ∨ InWS ld a) : 0 ≤ a := by
  have hrow : 0 ≤ ld.w * (ld.fmt.ps : Int) := Int.mul_nonneg h.width_pos.le (by omega)
  obtain ⟨x, y, k, -, -, -, rfl⟩ | ⟨x, y, k, -, -, -, rfl⟩ := ha
  · have hy : 0 ≤ (y : Int) * ld.srcStride.toInt := Int.mul_nonneg (by omega) (hrow.trans h.src_stride)
    have hx : 0 ≤ (x : Int) * (ld.fmt.ps : Int) := by positivity
    simp only [srcAddr]
    omega
  · have hy : 0 ≤ (y : Int) * ld.dstStride.toInt := Int.mul_nonneg (by omega) (hrow.trans h.dst_stride)
    have hx : 0 ≤ (x : Int) * (ld.fmt.ps : Int) := by positivity
    simp only [dstAddr]
    omega

/-- The range check of a valid geometry fails exactly when a byte lies beyond the end of the memory space. -/
theorem rangeError_iff {ld : Latch} (hgeo : ValidGeometry ld) :
    rangeError ld = true ↔ ∃ a, (InRS ld a ∨ InWS ld a) ∧ (2 : Int) ^ 64 - 1 < a := by
  rw [← Bool.not_eq_false, rangeError_eq_false_iff hgeo.rowBytes_pos, memorySize]
  push Not
  constructor
  · rintro ⟨a, ha, hbeyond⟩
    have := hbeyond (hgeo.nonneg ha)
    exact ⟨a, ha, by omega⟩
  · rintro ⟨a, ha, hbeyond⟩
    exact ⟨a, ha, fun _ => by omega⟩

theorem filterPlane_of_launchFault {s : State} {m : Mode} {fmt : Fmt} {al : Bool} {f : Fault} (hidle : s.phase = .idle)
    (hmode : Accepted s.params m) (hgeo : ValidGeometry (latchOf m fmt al s.regs))
    (hfault : launchFault s.params (latchOf m fmt al s.regs) = some f) : filterPlane m fmt al s = .fault f := by
  simp [filterPlane, hidle, startLaunch, (configError_eq_false_iff _ _ fmt).mpr hmode,
    (geometryError_eq_false_iff _).mpr hgeo, hfault]

/-- Settles O20: each check by rows fails exactly when its condition on bytes holds. -/
theorem undefinedLaunchesFault : Obligations.UndefinedLaunchesFault := by
  intro s m fmt al hidle hmode hgeo ld misaligned overlapping outside inDevice
  have hmis : (ld.align && rowMisaligned ld) = true ↔ misaligned := by
    rw [Bool.and_eq_true, ← Bool.not_eq_false (rowMisaligned ld), rowMisaligned_eq_false_iff]
    push Not
    rfl
  have hover : buffersOverlap ld = true ↔ overlapping := by
    rw [← Bool.not_eq_false, buffersOverlap_eq_false_iff]
    push Not
    rfl
  have hrange : rangeError ld = true ↔ outside := rangeError_iff hgeo
  have hdevice : touchesDevice s.params ld = true ↔ inDevice := by
    rw [← Bool.not_eq_false, touchesDevice_eq_false_iff _ hgeo.rowBytes_pos]
    push Not
    rfl
  simp only [exec_filter]
  refine ⟨fun h1 => ?_, fun h1 h2 => ?_, fun h1 h2 h3 => ?_, fun h1 h2 h3 h4 => ?_⟩ <;>
    refine filterPlane_of_launchFault hidle hmode hgeo ?_
  · exact if_pos (hmis.mpr h1)
  · exact (if_neg (mt hmis.mp h1)).trans (if_pos (hover.mpr h2))
  · exact (if_neg (mt hmis.mp h1)).trans ((if_neg (mt hover.mp h2)).trans (if_pos (hrange.mpr h3)))
  · exact (if_neg (mt hmis.mp h1)).trans
      ((if_neg (mt hover.mp h2)).trans ((if_neg (mt hrange.mp h3)).trans (if_pos (hdevice.mpr h4))))

end Sys2Proof.Machine
end

section
/-! SUPPORT. The loads and the store as instructions: their words, their addresses and their results (R121 to R123). -/

namespace Sys2Proof.Machine

/-! ### Words (R95, R97) -/

/-- The OP field of a micro-op is that of the fields its word is built from. -/
theorem hasOp_of_encode {i : Instr} {x : UopFields} {op : BitVec 6} (h : encode i = .microOp (uopWordOf x))
    (hop : x.op = op) : HasOp i op :=
  ⟨uopWordOf x, h, (congrArg UopFields.op (uopFields_uopWordOf x)).trans hop⟩

/-! ### Loads -/

theorem onlyVreg_setVreg (d : VReg) (s : State) (x : Vec) : OnlyVreg d s (s.setVreg d x) :=
  ⟨rfl, fun _ hr => setVreg_vreg_ne s x hr⟩

theorem loadTo_of_inSpace (d : VReg) {a : Int} {n : Nat} (s : State) (h : inSpace a n = true) :
    loadTo d a n s = .next (s.setVreg d (s.mem.readBytes a.toNat n)) := by
  rw [loadTo, if_pos h]

theorem loadTo_of_not_inSpace (d : VReg) {a : Int} {n : Nat} (s : State) (h : ¬inSpace a n = true) :
    loadTo d a n s = .fault .addrRange := by
  rw [loadTo, if_neg h]

/-- What a vector load from memory answers. -/
theorem loadTo_vector (fmt : Fmt) (d : VReg) {a : Int} (s : State) (h : inSpace a vecBytes = true) :
    ∃ t, loadTo d a vecBytes s = .next t ∧ OnlyVreg d s t ∧
      ∀ i, i < fmt.lanes → lane fmt (t.vreg d) i = loadSample fmt s.mem (a.toNat + i * fmt.ps) := by
  refine ⟨_, loadTo_of_inSpace d s h, onlyVreg_setVreg d s _, fun i hi => ?_⟩
  rw [setVreg_vreg_self, lane_readBytes_vector fmt _ _ i hi]

/-- What a scalar load from memory answers. -/
theorem loadTo_scalar (fmt : Fmt) (d : VReg) {a : Int} (s : State) (h : inSpace a fmt.ps = true) :
    ∃ t, loadTo d a fmt.ps s = .next t ∧ OnlyVreg d s t ∧
      ∀ i, i < fmt.lanes → lane fmt (t.vreg d) i = if i = 0 then loadSample fmt s.mem a.toNat else 0 := by
  refine ⟨_, loadTo_of_inSpace d s h, onlyVreg_setVreg d s _, fun i hi => ?_⟩
  rw [setVreg_vreg_self, lane_readBytes_scalar fmt _ _ i hi]

/-- Settles O51: the vector and the scalar form, each in and outside memory. -/
theorem vloaduLoadsSamples : Obligations.VloaduLoadsSamples := by
  intro fmt d nb s x y cx cy a b
  have hvec : inSpace a vecBytes = true ↔ 0 ≤ a ∧ a + 16 ≤ 2 ^ 64 := inSpace_iff a vecBytes
  have hsc : inSpace b fmt.ps = true ↔ 0 ≤ b ∧ b + fmt.ps ≤ 2 ^ 64 := inSpace_iff b fmt.ps
  refine ⟨hasOp_of_encode rfl rfl, hasOp_of_encode rfl rfl, fun hin => ?_, fun hout => ?_, fun hin => ?_, fun hout => ?_⟩
  · exact loadTo_vector fmt d s (hvec.mpr hin)
  · exact loadTo_of_not_inSpace d s (mt hvec.mp hout)
  · exact loadTo_scalar fmt d s (hsc.mpr hin)
  · exact loadTo_of_not_inSpace d s (mt hsc.mp hout)

/-- At a multiple of 16 vloada is the vector vloadu (R122). -/
theorem execVloada_of_aligned {fmt : Fmt} (d : VReg) {nb : Nbi} {s : State}
    (h : loadAddr fmt s.latch s.cursor nb false % 16 = 0) : execVloada fmt d nb s = execVloadu fmt d nb false s := by
  rw [execVloada, if_neg (not_not_intro h)]
  rfl

/-- Settles O52. -/
theorem vloadaLoadsAlignedVectors : Obligations.VloadaLoadsAlignedVectors := by
  intro fmt d nb s x y a
  have hvec : inSpace a vecBytes = true ↔ 0 ≤ a ∧ a + 16 ≤ 2 ^ 64 := inSpace_iff a vecBytes
  have heq (hal : a % 16 = 0) : exec (.vloada fmt d nb) s = exec (.vloadu fmt d nb false) s :=
    execVloada_of_aligned d hal
  refine ⟨hasOp_of_encode rfl rfl, fun hal => if_pos hal, fun hal hin => ?_, fun hal hout => ?_⟩
  · obtain ⟨t, hload, hframe, hlanes⟩ := loadTo_vector fmt d s (hvec.mpr hin)
    exact ⟨t, (heq hal).trans hload, hframe, hload, hlanes⟩
  · exact (heq hal).trans (loadTo_of_not_inSpace d s (mt hvec.mp hout))

/-! ### The store -/

/-- What a store to memory answers. -/
theorem storeTo_of_inSpace {a : Int} {n : Nat} (x : Vec) (s : State) (h : inSpace a n = true) :
    ∃ t, storeTo a n x s = .next t ∧ t = { s with mem := t.mem } ∧
      (∀ k, k < n → t.mem.read (a.toNat + k) = x.extractLsb' (8 * k) 8) ∧
      ∀ b : Nat, b < a.toNat ∨ a.toNat + n ≤ b → t.mem.read b = s.mem.read b := by
  refine ⟨_, if_pos h, rfl, fun k hk => ?_, fun b hb => ?_⟩
  · rw [Memory.read_writeBytes, if_pos (by omega), Nat.add_sub_cancel_left]
    rfl
  · rw [Memory.read_writeBytes, if_neg (by omega)]

/-- Settles O53. -/
theorem vstoreuStoresSamples : Obligations.VstoreuStoresSamples := by
  intro fmt r sc s a n
  have hspace : inSpace a n = true ↔ 0 ≤ a ∧ a + n ≤ 2 ^ 64 := inSpace_iff a n
  refine ⟨hasOp_of_encode rfl rfl, fun hin => ?_, fun hout => if_neg (mt hspace.mp hout)⟩
  exact storeTo_of_inSpace (s.vreg r) s (hspace.mpr hin)

end Sys2Proof.Machine
end

section
/-! SUPPORT. Where the units of a plane stand: their loads and stores lie in the launch's buffers, every pixel has its
unit, and the walk goes in raster order (R63, R64, R201, R206, R208). -/

namespace Sys2Proof.Machine

/-! ### Bytes of a row (R63, R64) -/

/-- How many samples a unit of the walk reads in each load and writes (R206). -/
def WorkUnit.width (fmt : Fmt) (u : WorkUnit) : Nat := if u.vector then fmt.lanes else 1

theorem accessBytes_eq_width (fmt : Fmt) (u : WorkUnit) : accessBytes fmt (!u.vector) = u.width fmt * fmt.ps := by
  cases hv : u.vector with
  | false => simp [accessBytes, WorkUnit.width, hv]
  | true => simp [accessBytes, WorkUnit.width, hv, Fmt.lanes_mul_ps, vecBytes]

/-- The bytes of `n` samples that stand in columns of the grid lie in the row. -/
theorem sample_bytes_in_row {cols n ps k : Nat} {x : Int} (hx : 0 ≤ x) (hxn : x + n ≤ cols) (hk : k < n * ps) :
    0 ≤ x * (ps : Int) + k ∧ x * (ps : Int) + k < (cols * ps : Nat) := by
  have hend : (x + n) * (ps : Int) ≤ cols * (ps : Int) := Int.mul_le_mul_of_nonneg_right hxn (by omega)
  have hstart : 0 ≤ x * (ps : Int) := Int.mul_nonneg hx (by omega)
  have hk' : (k : Int) < n * (ps : Int) := by exact_mod_cast hk
  rw [Int.add_mul] at hend
  push_cast
  omega

theorem inRS_of_columns {ld : Latch} {x y : Int} {n k : Nat} (hx : 0 ≤ x) (hxn : x + n ≤ ld.cols) (hy : 0 ≤ y)
    (hyr : y < ld.rows) (hk : k < n * ld.fmt.ps) : InRS ld (srcAddr ld.fmt ld x y + k) := by
  obtain ⟨row, rfl⟩ := Int.eq_ofNat_of_zero_le hy
  obtain ⟨hlo, hhi⟩ := sample_bytes_in_row hx hxn hk
  rw [inRS_iff, srcAddr_eq_row_add]
  exact ⟨_, mem_srcRows.mpr ⟨row, by omega, rfl⟩, by omega, by rw [Latch.rowBytes]; omega⟩

theorem inWS_of_columns {ld : Latch} {x y : Int} {n k : Nat} (hx : 0 ≤ x) (hxn : x + n ≤ ld.cols) (hy : 0 ≤ y)
    (hyr : y < ld.rows) (hk : k < n * ld.fmt.ps) : InWS ld (dstAddr ld.fmt ld x y + k) := by
  obtain ⟨row, rfl⟩ := Int.eq_ofNat_of_zero_le hy
  obtain ⟨hlo, hhi⟩ := sample_bytes_in_row hx hxn hk
  rw [inWS_iff, dstAddr_eq_row_add]
  exact ⟨_, mem_dstRows.mpr ⟨row, by omega, rfl⟩, by omega, by rw [Latch.rowBytes]; omega⟩

/-! ### Loads and stores of a unit (R201, R206) -/

/-- A neighbour stands at most one column and one row away (R98). -/
theorem nbi_offset_bounds (nb : Nbi) :
    -1 ≤ nb.offset.1 ∧ nb.offset.1 ≤ 1 ∧ -1 ≤ nb.offset.2 ∧ nb.offset.2 ≤ 1 := by
  revert nb; decide

theorem clampTo_bounds {n : Int} (hn : 0 < n) (u : Int) : 0 ≤ clampTo n u ∧ clampTo n u < n := by
  simp only [clampTo]; omega

/-- The cursor while a unit runs (R207). -/
def WorkUnit.cursor (u : WorkUnit) : Cursor := { y := u.y, x := u.x }

/-- A scalar load reads the clamped position; a vector unit stands far enough from the border not to need it. -/
theorem unit_load_in_readSet {ld : Latch} {u : WorkUnit} (hgeo : ValidGeometry ld) (hu : u ∈ planeUnits ld) (nb : Nbi)
    {k : Nat} (hk : k < accessBytes ld.fmt (!u.vector)) :
    InRS ld (loadAddr ld.fmt ld u.cursor nb (!u.vector) + k) := by
  obtain ⟨hrow, hcol, hinner⟩ := mem_planeUnits hu
  rw [accessBytes_eq_width] at hk
  cases hv : u.vector with
  | false =>
    obtain ⟨hx, hx'⟩ := clampTo_bounds hgeo.width_pos (u.x + nb.offset.1)
    obtain ⟨hy, hy'⟩ := clampTo_bounds hgeo.height_pos (u.y + nb.offset.2)
    simp only [WorkUnit.width, hv] at hk
    exact inRS_of_columns hx (by change clampTo ld.w _ + 1 ≤ _; simp only [Latch.cols, WorkUnit.cursor]; omega) hy
      (by simp only [Latch.rows, WorkUnit.cursor]; omega) hk
  | true =>
    obtain ⟨h1, h2, h3, h4⟩ := hinner hv
    obtain ⟨hdx, hdx', hdy, hdy'⟩ := nbi_offset_bounds nb
    simp only [WorkUnit.width, hv] at hk
    exact inRS_of_columns (by simp only [WorkUnit.cursor]; omega) (by simp only [WorkUnit.cursor, if_true]; omega)
      (by simp only [WorkUnit.cursor]; omega) (by simp only [WorkUnit.cursor]; omega) hk

theorem unit_width_in_grid {ld : Latch} {u : WorkUnit} (hu : u ∈ planeUnits ld) : u.x + u.width ld.fmt ≤ ld.cols := by
  obtain ⟨-, hcol, hinner⟩ := mem_planeUnits hu
  cases hv : u.vector with
  | false => simp only [WorkUnit.width, hv]; exact hcol
  | true =>
    have := hinner hv
    simp only [WorkUnit.width, hv, if_true]
    omega

theorem unit_store_in_writeSet {ld : Latch} {u : WorkUnit} (hu : u ∈ planeUnits ld) {k : Nat}
    (hk : k < accessBytes ld.fmt (!u.vector)) : InWS ld (storeAddr ld.fmt ld u.cursor + k) := by
  have hrow := (mem_planeUnits hu).1
  have hcols := unit_width_in_grid hu
  rw [accessBytes_eq_width] at hk
  exact inWS_of_columns (by omega) (by simp only [WorkUnit.cursor]; omega) (by omega)
    (by simp only [WorkUnit.cursor]; omega) hk

/-- Settles O32. -/
theorem unitsStayInTheirBuffers : Obligations.UnitsStayInTheirBuffers :=
  fun _ _ hgeo hu => ⟨fun nb _ hk => unit_load_in_readSet hgeo hu nb hk, fun _ hk => unit_store_in_writeSet hu hk⟩

/-! ### Every pixel has its unit (R206) -/

/-- The columns of an interior row: the first, whole vectors, the rest of the interior one by one, and the last. -/
theorem interiorRow_covers {l cols : Nat} (y : Nat) (hl : 0 < l) {x : Nat} (hx : x < cols) :
    ∃ u ∈ interiorRow l cols y, u.y = y ∧ u.x ≤ x ∧ x < u.x + (if u.vector then l else 1) := by
  have hdiv : (cols - 2) / l * l + (cols - 2) % l = cols - 2 := Nat.div_add_mod' _ _
  have hpos : (x - 1) / l * l + (x - 1) % l = x - 1 := Nat.div_add_mod' _ _
  have hmod := Nat.mod_lt (x - 1) hl
  simp only [interiorRow, List.mem_cons, List.mem_append, List.mem_map, List.mem_range, List.not_mem_nil, or_false]
  by_cases hfirst : x = 0
  · exact ⟨scalarUnit y 0, .inl rfl, rfl, by simp [scalarUnit], by simp [scalarUnit, hfirst]⟩
  by_cases hvec : x < 1 + (cols - 2) / l * l
  · have hk : (x - 1) / l < (cols - 2) / l := (Nat.div_lt_iff_lt_mul hl).mpr (by omega)
    exact ⟨vectorUnit y (1 + (x - 1) / l * l), .inr (.inl (.inl ⟨_, hk, rfl⟩)), rfl, by simp only [vectorUnit]; omega,
      by simp only [vectorUnit, if_true]; omega⟩
  by_cases hlast : x = cols - 1
  · exact ⟨scalarUnit y (cols - 1), .inr (.inr rfl), rfl, by simp [scalarUnit, hlast], by simp [scalarUnit, hlast]⟩
  · exact ⟨scalarUnit y (1 + (cols - 2) / l * l + (x - (1 + (cols - 2) / l * l))),
      .inr (.inl (.inr ⟨_, by omega, rfl⟩)), rfl, by simp only [scalarUnit]; omega,
      by simp only [scalarUnit, Bool.false_eq_true, if_false]; omega⟩

theorem planeUnits_cover {ld : Latch} {x y : Nat} (hx : x < ld.cols) (hy : y < ld.rows) :
    ∃ u ∈ planeUnits ld, Covers ld u x y := by
  have hrow : ∃ u ∈ rowUnits ld.fmt.lanes ld.cols ld.rows y, Covers ld u x y := by
    unfold rowUnits
    split
    · exact ⟨scalarUnit y x, List.mem_map_of_mem (List.mem_range.mpr hx), rfl, le_rfl, by simp [scalarUnit]⟩
    · exact interiorRow_covers y (Fmt.lanes_pos ld.fmt) hx
  obtain ⟨u, hu, hcov⟩ := hrow
  exact ⟨u, List.mem_flatMap.mpr ⟨y, List.mem_range.mpr hy, hu⟩, hcov⟩

/-! ### The walk's order (R208) -/

theorem interiorRow_pairwise {l cols : Nat} (y : Nat) (hl : 0 < l) (hcols : 3 ≤ cols) :
    (interiorRow l cols y).Pairwise WalksBefore := by
  have hdiv : (cols - 2) / l * l + (cols - 2) % l = cols - 2 := Nat.div_add_mod' _ _
  have hstep {i j : Nat} (h : i < j) : i * l + l ≤ j * l := by
    rw [← Nat.succ_mul]
    exact Nat.mul_le_mul_right l h
  rw [interiorRow, List.pairwise_cons, List.pairwise_append, List.pairwise_append, List.pairwise_map, List.pairwise_map]
  simp only [List.mem_append, List.mem_map, List.mem_range, List.mem_singleton]
  refine ⟨?first, ⟨?vectors, ?scalars, ?between⟩, List.pairwise_singleton _ _, ?last⟩
  case vectors => exact List.pairwise_lt_range.imp fun h => .inr ⟨rfl, by have := hstep h; simp only [vectorUnit]; omega⟩
  case scalars => exact List.pairwise_lt_range.imp fun h => .inr ⟨rfl, by simp only [scalarUnit]; omega⟩
  case first =>
    rintro _ ((⟨k, -, rfl⟩ | ⟨j, -, rfl⟩) | rfl)
    · exact .inr ⟨rfl, by simp only [scalarUnit, vectorUnit]; omega⟩
    · exact .inr ⟨rfl, by simp only [scalarUnit]; omega⟩
    · exact .inr ⟨rfl, by simp only [scalarUnit]; omega⟩
  case between =>
    rintro _ ⟨k, hk, rfl⟩ _ ⟨j, -, rfl⟩
    have := hstep hk
    exact .inr ⟨rfl, by simp only [scalarUnit, vectorUnit]; omega⟩
  case last =>
    rintro _ (⟨k, hk, rfl⟩ | ⟨j, hj, rfl⟩) _ rfl
    · have := hstep hk
      exact .inr ⟨rfl, by simp only [scalarUnit, vectorUnit]; omega⟩
    · exact .inr ⟨rfl, by simp only [scalarUnit]; omega⟩

theorem rowUnits_pairwise {l : Nat} (cols rows y : Nat) (hl : 0 < l) :
    (rowUnits l cols rows y).Pairwise WalksBefore := by
  unfold rowUnits
  split
  · exact List.pairwise_map.mpr (List.pairwise_lt_range.imp fun h => .inr ⟨rfl, h⟩)
  · rename_i hinner
    simp only [scalarRow, Bool.or_eq_true, decide_eq_true_eq, not_or, not_lt] at hinner
    exact interiorRow_pairwise y hl hinner.2

/-- The walk goes row by row and by increasing column, no unit twice (R208). -/
theorem planeUnits_pairwise (ld : Latch) : (planeUnits ld).Pairwise WalksBefore := by
  have hl := Fmt.lanes_pos ld.fmt
  refine List.pairwise_flatMap.mpr ⟨fun y _ => rowUnits_pairwise ld.cols ld.rows y hl, ?_⟩
  refine List.pairwise_lt_range.imp fun hlt u hu w hw => .inl ?_
  rwa [(mem_rowUnits hl hu).1, (mem_rowUnits hl hw).1]

theorem notBefore_iff (cur : Cursor) (u : WorkUnit) :
    notBefore cur u = true ↔ cur.y < u.y ∨ (cur.y = u.y ∧ cur.x ≤ u.x) := by
  simp [notBefore]

/-- When the walk has done the units `us`, the units from the next one on are those it has not (R42, R208). -/
theorem unitsFrom_eq {ld : Latch} {us vs : List WorkUnit} {u : WorkUnit} (h : planeUnits ld = us ++ u :: vs) :
    unitsFrom ld u.cursor = u :: vs := by
  have hpair := planeUnits_pairwise ld
  rw [h, List.pairwise_append, List.pairwise_cons] at hpair
  obtain ⟨-, ⟨hafter, -⟩, hbefore⟩ := hpair
  have hdone : us.filter (notBefore u.cursor) = [] := List.filter_eq_nil_iff.mpr fun w hw => by
    have := hbefore w hw u List.mem_cons_self
    simp only [WalksBefore] at this
    simp only [notBefore_iff, WorkUnit.cursor]
    omega
  have hleft : (u :: vs).filter (notBefore u.cursor) = u :: vs := List.filter_eq_self.mpr fun w hw => by
    have : w = u ∨ WalksBefore u w := (List.mem_cons.mp hw).imp_right (hafter w)
    simp only [notBefore_iff, WorkUnit.cursor]
    obtain rfl | hw := this
    · omega
    · simp only [WalksBefore] at hw
      omega
  rw [unitsFrom, h, List.filter_append, hdone, hleft, List.nil_append]

end Sys2Proof.Machine
end

section
/-! SUPPORT. What a unit of the walk does, as a function of the source bytes and the draws alone: its loads, its
micro-program and its store (R176, R207). -/

namespace Sys2Proof.Machine

/-! ### What units change -/

/-- What the units of a launch hand on: memory and the draw counter. -/
structure Progress where
  mem : Memory
  draws : Nat

def State.progress (s : State) : Progress := { mem := s.mem, draws := s.draws }

/-- The state that differs by what units change: the cursor, the vector registers, memory and draws. -/
def State.worked (s : State) (cur : Cursor) (v : Vector Vec 32) (w : Progress) : State :=
  { s with cursor := cur, v := v, mem := w.mem, draws := w.draws }

@[simp] theorem worked_mem (s : State) (cur : Cursor) (v : Vector Vec 32) (w : Progress) :
    (s.worked cur v w).mem = w.mem := rfl
@[simp] theorem worked_vreg (s : State) (cur : Cursor) (v : Vector Vec 32) (w : Progress) (r : VReg) :
    (s.worked cur v w).vreg r = v[r] := rfl
@[simp] theorem worked_worked (s : State) (cur cur' : Cursor) (v v' : Vector Vec 32) (w w' : Progress) :
    (s.worked cur v w).worked cur' v' w' = s.worked cur' v' w' := rfl

/-! ### Registers on which two states agree -/

/-- Two states agree on some registers and on the draws; what a micro-op makes of those is then the same in both. -/
structure AgreeOn (known : List VReg) (s t : State) : Prop where
  draws : t.draws = s.draws
  vreg : ∀ r ∈ known, t.vreg r = s.vreg r

theorem AgreeOn.setVreg {known : List VReg} {s t : State} (h : AgreeOn known s t) (d : VReg) {x y : Vec} (hxy : y = x) :
    AgreeOn (d :: known) (s.setVreg d x) (t.setVreg d y) where
  draws := h.draws
  vreg r hr := by
    rw [setVreg_vreg, setVreg_vreg, hxy]
    split
    · rfl
    · exact h.vreg r ((List.mem_cons.mp hr).resolve_left ‹_›)

theorem AgreeOn.afterDraws {known : List VReg} {s t : State} (h : AgreeOn known s t) (fmt : Fmt) :
    AgreeOn known (s.afterDraws fmt) (t.afterDraws fmt) where
  draws := by rw [afterDraws_draws, afterDraws_draws, h.draws]
  vreg r hr := by rw [afterDraws_vreg, afterDraws_vreg, h.vreg r hr]

theorem AgreeOn.nanAt {known : List VReg} {s t : State} (h : AgreeOn known s t) (i : Nat) : t.nanAt i = s.nanAt i := by
  funext k
  rw [State.nanAt, State.nanAt, h.draws]

theorem AgreeOn.ringLanes {known : List VReg} {s t : State} (h : AgreeOn known s t)
    (hring : ∀ r : VReg, 1 ≤ r.val → r.val ≤ 8 → r ∈ known) (fmt : Fmt) (i : Nat) :
    ringLanes fmt t i = ringLanes fmt s i := by
  have hv (r : VReg) (h1 : 1 ≤ r.val) (h8 : r.val ≤ 8) : t.vreg r = s.vreg r := h.vreg r (hring r h1 h8)
  simp only [Machine.ringLanes, hv 1 (by decide) (by decide), hv 2 (by decide) (by decide),
    hv 3 (by decide) (by decide), hv 4 (by decide) (by decide), hv 5 (by decide) (by decide),
    hv 6 (by decide) (by decide), hv 7 (by decide) (by decide), hv 8 (by decide) (by decide)]

theorem AgreeOn.lanes2 {known : List VReg} {s t : State} (h : AgreeOn known s t) {a b : VReg} (ha : a ∈ known)
    (hb : b ∈ known) (fmt : Fmt) (f : Sample → Sample → Sample) : lanes2 fmt f t a b = lanes2 fmt f s a b := by
  simp only [Machine.lanes2, h.vreg a ha, h.vreg b hb]

theorem AgreeOn.lanes3 {known : List VReg} {s t : State} (h : AgreeOn known s t) {a b c : VReg} (ha : a ∈ known)
    (hb : b ∈ known) (hc : c ∈ known) (fmt : Fmt) (f : Sample → Sample → Sample → Sample) :
    lanes3 fmt f t a b c = lanes3 fmt f s a b c := by
  simp only [Machine.lanes3, h.vreg a ha, h.vreg b hb, h.vreg c hc]

/-! ### Micro-programs (R176) -/

/-- What computing changes: vector registers, and draws for F32 alone (R17). -/
structure Computed (fmt : Fmt) (s t : State) : Prop where
  frame : t = { s with v := t.v, draws := t.draws }
  draws : fmt ≠ .f32 → t.draws = s.draws

theorem Computed.refl (fmt : Fmt) (s : State) : Computed fmt s s := ⟨rfl, fun _ => rfl⟩

theorem Computed.trans {fmt : Fmt} {s t u : State} (h₁ : Computed fmt s t) (h₂ : Computed fmt t u) :
    Computed fmt s u where
  frame := by
    have hframe := h₁.frame
    rw [h₂.frame, hframe]
  draws hfmt := (h₂.draws hfmt).trans (h₁.draws hfmt)

theorem computed_setVreg (fmt : Fmt) (s : State) (d : VReg) (x : Vec) : Computed fmt s (s.setVreg d x) :=
  ⟨rfl, fun _ => rfl⟩

theorem computed_afterDraws (fmt : Fmt) (s : State) : Computed fmt s (s.afterDraws fmt) := by
  cases fmt <;> exact ⟨rfl, by simp⟩

/-- The registers known after an instruction of a micro-program that reads known registers only: those it writes too.
Of the micro-ops only those of R176's programs count. -/
def knownAfter (fmt : Fmt) (known : List VReg) (i : Instr) : Option (List VReg) :=
  match i with
  | .vsortp f d e a b => if f = fmt ∧ d ≠ e ∧ a ∈ known ∧ b ∈ known then some (e :: d :: known) else none
  | .vclip f d a b c => if f = fmt ∧ a ∈ known ∧ b ∈ known ∧ c ∈ known then some (d :: known) else none
  | .kmedavg f d a b => if f = fmt ∧ a ∈ known ∧ b ∈ known then some (d :: known) else none
  | .kmean8 f d => if f = fmt ∧ ∀ r : VReg, 1 ≤ r.val → r.val ≤ 8 → r ∈ known then some (d :: known) else none
  | .kmean9 f d => if f = fmt ∧ 0 ∈ known ∧ ∀ r : VReg, 1 ≤ r.val → r.val ≤ 8 → r ∈ known then some (d :: known) else none
  | _ => none

/-- Two runs go on together: both answer, each changes what computing changes, and the results agree. -/
def ComputeTogether (fmt : Fmt) (known : List VReg) (s t : State) (o p : Outcome State) : Prop :=
  ∃ s' t', o = .next s' ∧ p = .next t' ∧ Computed fmt s s' ∧ Computed fmt t t' ∧ AgreeOn known s' t'

theorem AgreeOn.together {known : List VReg} {s t : State} (h : AgreeOn known s t) (fmt : Fmt) :
    ComputeTogether fmt known s t (.next s) (.next t) :=
  ⟨s, t, rfl, rfl, .refl fmt s, .refl fmt t, h⟩

theorem ComputeTogether.setVreg {fmt : Fmt} {known : List VReg} {s t s' t' : State}
    (h : ComputeTogether fmt known s t (.next s') (.next t')) (d : VReg) {x y : Vec} (hxy : y = x) :
    ComputeTogether fmt (d :: known) s t (.next (s'.setVreg d x)) (.next (t'.setVreg d y)) := by
  obtain ⟨_, _, ⟨⟩, ⟨⟩, hs, ht, hag⟩ := h
  exact ⟨_, _, rfl, rfl, hs.trans (computed_setVreg fmt s' d x), ht.trans (computed_setVreg fmt t' d y),
    hag.setVreg d hxy⟩

theorem ComputeTogether.afterDraws {fmt : Fmt} {known : List VReg} {s t s' t' : State}
    (h : ComputeTogether fmt known s t (.next s') (.next t')) :
    ComputeTogether fmt known s t (.next (s'.afterDraws fmt)) (.next (t'.afterDraws fmt)) := by
  obtain ⟨_, _, ⟨⟩, ⟨⟩, hs, ht, hag⟩ := h
  exact ⟨_, _, rfl, rfl, hs.trans (computed_afterDraws fmt s'), ht.trans (computed_afterDraws fmt t'),
    hag.afterDraws fmt⟩

/-- An instruction that reads known registers only answers in both states, and alike. -/
theorem execUop_together {fmt : Fmt} {known after : List VReg} {i : Instr} {s t : State}
    (hi : knownAfter fmt known i = some after) (h : AgreeOn known s t) :
    ComputeTogether fmt after s t (execUop i s) (execUop i t) := by
  have hstart := h.together fmt
  cases i with
  | vsortp f d e a b =>
    obtain ⟨⟨rfl, hde, ha, hb⟩, ⟨⟩⟩ := Option.ite_none_right_eq_some.mp hi
    simp only [execUop, execVsortp, if_neg hde]
    exact (hstart.setVreg d (h.lanes2 ha hb f _)).setVreg e (h.lanes2 ha hb f _)
  | vclip f d a b c =>
    obtain ⟨⟨rfl, ha, hb, hc⟩, ⟨⟩⟩ := Option.ite_none_right_eq_some.mp hi
    exact hstart.setVreg d (h.lanes3 ha hb hc f _)
  | kmedavg f d a b =>
    obtain ⟨⟨rfl, ha, hb⟩, ⟨⟩⟩ := Option.ite_none_right_eq_some.mp hi
    exact (hstart.setVreg d (by simp only [h.nanAt, h.vreg a ha, h.vreg b hb])).afterDraws
  | kmean8 f d =>
    obtain ⟨⟨rfl, hring⟩, ⟨⟩⟩ := Option.ite_none_right_eq_some.mp hi
    exact (hstart.setVreg d (by simp only [h.nanAt, h.ringLanes hring])).afterDraws
  | kmean9 f d =>
    obtain ⟨⟨rfl, h0, hring⟩, ⟨⟩⟩ := Option.ite_none_right_eq_some.mp hi
    exact (hstart.setVreg d (by simp only [h.nanAt, h.ringLanes hring, h.vreg 0 h0])).afterDraws
  | _ => cases hi

theorem runUops_together {fmt : Fmt} {is : List Instr} {known after : List VReg} {s t : State}
    (his : is.foldlM (knownAfter fmt) known = some after) (h : AgreeOn known s t) :
    ComputeTogether fmt after s t (runUops is s) (runUops is t) := by
  induction is generalizing known s t with
  | nil =>
    cases his
    exact h.together fmt
  | cons i rest ih =>
    rw [List.foldlM_cons] at his
    obtain ⟨mid, hmid, hrest⟩ := Option.bind_eq_some_iff.mp his
    obtain ⟨s₁, t₁, hs, ht, hcs, hct, hag⟩ := execUop_together hmid h
    obtain ⟨s₂, t₂, hs₂, ht₂, hcs₂, hct₂, hag₂⟩ := ih hrest hag
    exact ⟨s₂, t₂, (runUops_cons_of_next hs).trans hs₂, (runUops_cons_of_next ht).trans ht₂, hcs.trans hcs₂,
      hct.trans hct₂, hag₂⟩

/-- V[n], the register of neighbour n (R207). -/
def neighbourReg (nb : Nbi) : VReg := nb.castLE (by omega)

/-- V[0..8]: what the nine loads of a unit write. -/
def neighbourRegs : List VReg := (List.finRange 9).map neighbourReg

/-- Every micro-program reads only V[0..8] and what it has written itself, and writes its result register. -/
theorem microProgram_known (m : Mode) (fmt : Fmt) :
    ∃ after, (microProgram m fmt).foldlM (knownAfter fmt) neighbourRegs = some after ∧ resultReg m ∈ after := by
  have hany : ((microProgram m fmt).foldlM (knownAfter fmt) neighbourRegs).any (resultReg m ∈ ·) = true := by
    cases m <;> cases fmt <;> decide
  simpa [Option.any_eq_true] using hany

/-- The state in which a micro-program finds its operands, everything else being as at reset. -/
def kernelInput (x : Nbi → Vec) (draws : Nat) : State :=
  { State.reset with v := Vector.ofFn fun r => if h : r.val < 9 then x ⟨r.val, h⟩ else 0, draws := draws }

/-- The result vector of a mode's micro-program on nine neighbour vectors, and the draw counter after it. -/
def kernelOutput (m : Mode) (fmt : Fmt) (x : Nbi → Vec) (draws : Nat) : Vec × Nat :=
  match runUops (microProgram m fmt) (kernelInput x draws) with
  | .next t => (t.vreg (resultReg m), t.draws)
  | .fault _ => (0, draws)
  | .refused _ => (0, draws)

theorem kernelInput_agree {x : Nbi → Vec} {s : State} (hx : ∀ nb, s.vreg (neighbourReg nb) = x nb) :
    AgreeOn neighbourRegs (kernelInput x s.draws) s where
  draws := rfl
  vreg r hr := by
    obtain ⟨nb, -, rfl⟩ := List.mem_map.mp hr
    rw [hx]
    simp [kernelInput, State.vreg, neighbourReg]

/-- A micro-program answers, and what it makes of V[0..8] and the draws does not depend on the rest of the state. -/
theorem runUops_microProgram (m : Mode) (fmt : Fmt) {x : Nbi → Vec} {s : State}
    (hx : ∀ nb, s.vreg (neighbourReg nb) = x nb) :
    ∃ v, runUops (microProgram m fmt) s =
        .next (s.worked s.cursor v { mem := s.mem, draws := (kernelOutput m fmt x s.draws).2 }) ∧
      v[resultReg m] = (kernelOutput m fmt x s.draws).1 := by
  obtain ⟨after, hafter, hres⟩ := microProgram_known m fmt
  obtain ⟨t₀, t, ht₀, ht, -, hcomputed, hag⟩ := runUops_together hafter (kernelInput_agree hx)
  have hout : kernelOutput m fmt x s.draws = (t.vreg (resultReg m), t.draws) := by
    simp only [kernelOutput, ht₀, hag.vreg _ hres, hag.draws]
  refine ⟨t.v, ?_, by rw [hout]; rfl⟩
  rw [ht, hout, hcomputed.frame]
  rfl

/-- No integer micro-program draws (R17). -/
theorem kernelOutput_draws (m : Mode) {fmt : Fmt} (x : Nbi → Vec) (draws : Nat) (hfmt : fmt ≠ .f32) :
    (kernelOutput m fmt x draws).2 = draws := by
  obtain ⟨after, hafter, -⟩ := microProgram_known m fmt
  obtain ⟨t, -, ht, -, hcomputed, -, -⟩ :=
    runUops_together hafter (⟨rfl, fun _ _ => rfl⟩ : AgreeOn neighbourRegs (kernelInput x draws) (kernelInput x draws))
  simp only [kernelOutput, ht]
  exact hcomputed.draws hfmt

/-! ### Loads of a unit (R207) -/

/-- The vector that a unit loads for a neighbour. -/
def unitVector (ld : Latch) (u : WorkUnit) (mem : Memory) (nb : Nbi) : Vec :=
  mem.readBytes (loadAddr ld.fmt ld u.cursor nb (!u.vector)).toNat (accessBytes ld.fmt (!u.vector))

/-- An access lies in the memory space when its bytes do. -/
theorem inSpace_of_bytes {a : Int} {n : Nat} (hn : 0 < n) (h : ∀ k < n, 0 ≤ a + (k : Int) ∧ a + k < (memorySize : Int)) :
    inSpace a n = true := by
  have hfirst := h 0 hn
  have hlast := h (n - 1) (by omega)
  rw [inSpace_iff]
  omega

theorem accessBytes_pos (fmt : Fmt) (sc : Bool) : 0 < accessBytes fmt sc := by
  cases fmt <;> cases sc <;> decide

theorem unit_load_inSpace {p : Params} {ld : Latch} {u : WorkUnit} (hvalid : ValidLaunch p ld) (hu : u ∈ planeUnits ld)
    (nb : Nbi) : inSpace (loadAddr ld.fmt ld u.cursor nb (!u.vector)) (accessBytes ld.fmt (!u.vector)) = true :=
  inSpace_of_bytes (accessBytes_pos _ _) fun _ hk =>
    hvalid.in_memory _ (.inl (unit_load_in_readSet hvalid.geometry hu nb hk))

theorem unit_store_inSpace {p : Params} {ld : Latch} {u : WorkUnit} (hvalid : ValidLaunch p ld) (hu : u ∈ planeUnits ld) :
    inSpace (storeAddr ld.fmt ld u.cursor) (accessBytes ld.fmt (!u.vector)) = true :=
  inSpace_of_bytes (accessBytes_pos _ _) fun _ hk => hvalid.in_memory _ (.inr (unit_store_in_writeSet hu hk))

/-- Vector units stand a whole number of vectors after column 1 (R206). -/
theorem vector_unit_column {ld : Latch} {u : WorkUnit} (hu : u ∈ planeUnits ld) (hv : u.vector = true) :
    ∃ k, u.x = 1 + k * ld.fmt.lanes := by
  obtain ⟨y, -, hrow⟩ := List.mem_flatMap.mp hu
  unfold rowUnits at hrow
  split at hrow
  · obtain ⟨x, -, rfl⟩ := List.mem_map.mp hrow
    cases hv
  · obtain ⟨-, ⟨hsc, -⟩ | ⟨k, -, -, hx⟩ | ⟨_, -, hsc, -⟩ | ⟨hsc, -⟩⟩ := mem_interiorRow hrow
    · simp [hsc] at hv
    · exact ⟨k, hx⟩
    · simp [hsc] at hv
    · simp [hsc] at hv

theorem usesAligned_offset {tier : Tier} {align : Bool} {nb : Nbi} (h : usesAligned tier align nb = true) :
    align = true ∧ nb.offset.1 = -1 := by
  revert h
  cases tier <;> cases align <;> revert nb <;> decide

/-- Where a unit uses vloada its address is a multiple of 16: the row's start is, and the west column of a vector unit
stands a whole number of vectors after it (R68, R122). -/
theorem unit_load_aligned {p : Params} {ld : Latch} {u : WorkUnit} (hvalid : ValidLaunch p ld) (hu : u ∈ planeUnits ld)
    (hv : u.vector = true) {tier : Tier} {nb : Nbi} (h : usesAligned tier ld.align nb = true) :
    loadAddr ld.fmt ld u.cursor nb false % 16 = 0 := by
  obtain ⟨halign, hwest⟩ := usesAligned_offset h
  obtain ⟨k, hx⟩ := vector_unit_column hu hv
  obtain ⟨hrow, -, hinner⟩ := mem_planeUnits hu
  obtain ⟨-, -, hy, hy'⟩ := hinner hv
  obtain ⟨-, -, hdy, hdy'⟩ := nbi_offset_bounds nb
  obtain ⟨row, hr⟩ := Int.eq_ofNat_of_zero_le (a := u.y + nb.offset.2) (by omega)
  have hcol : ((u.x : Int) + nb.offset.1) * (ld.fmt.ps : Int) = k * 16 := by
    have hps : (ld.fmt.lanes : Int) * ld.fmt.ps = 16 := by exact_mod_cast Fmt.lanes_mul_ps ld.fmt
    rw [hwest, hx, ← hps]
    push_cast
    ring
  have hstart := hvalid.aligned halign row (by omega)
  simp only [loadAddr, WorkUnit.cursor, Bool.false_eq_true, if_false, hr, srcAddr_eq_row_add _ _ (_ + _), hcol]
  omega

/-- A load of a unit of a valid launch puts its vector in the neighbour's register, whichever the tier (R207). -/
theorem execUop_unitLoad {s : State} {u : WorkUnit} (hvalid : ValidLaunch s.params s.latch)
    (hu : u ∈ planeUnits s.latch) (hcur : s.cursor = u.cursor) (tier : Tier) (nb : Nbi) :
    execUop (unitLoad tier s.latch u.vector nb) s =
      .next (s.setVreg (neighbourReg nb) (unitVector s.latch u s.mem nb)) := by
  have hin := unit_load_inSpace hvalid hu nb
  have hload : execVloadu s.latch.fmt (neighbourReg nb) nb (!u.vector) s =
      .next (s.setVreg (neighbourReg nb) (unitVector s.latch u s.mem nb)) := by
    rw [execVloadu, hcur, loadTo_of_inSpace _ _ hin]
    rfl
  unfold unitLoad
  split
  · rename_i hvec
    obtain ⟨hv, huses⟩ := Bool.and_eq_true_iff.mp hvec
    rw [hv] at hload
    exact (execVloada_of_aligned _ (hcur ▸ unit_load_aligned hvalid hu hv huses)).trans hload
  · exact hload

/-- The loads of a unit put each neighbour's vector in its register. -/
theorem runUops_unitLoads {s : State} {u : WorkUnit} (hvalid : ValidLaunch s.params s.latch)
    (hu : u ∈ planeUnits s.latch) (hcur : s.cursor = u.cursor) (tier : Tier) (nbs : List Nbi) :
    ∃ v, runUops (nbs.map (unitLoad tier s.latch u.vector)) s = .next (s.worked s.cursor v s.progress) ∧
      ∀ nb, nb ∈ nbs ∨ s.vreg (neighbourReg nb) = unitVector s.latch u s.mem nb →
        v[neighbourReg nb] = unitVector s.latch u s.mem nb := by
  induction nbs generalizing s with
  | nil => exact ⟨s.v, rfl, fun nb h => h.resolve_left List.not_mem_nil⟩
  | cons n rest ih =>
    obtain ⟨v, hrun, hv⟩ := ih (s := s.setVreg (neighbourReg n) (unitVector s.latch u s.mem n)) hvalid hu hcur
    refine ⟨v, (runUops_cons_of_next (execUop_unitLoad hvalid hu hcur tier n)).trans hrun, fun nb h => hv nb ?_⟩
    rw [List.mem_cons] at h
    by_cases hreg : neighbourReg nb = neighbourReg n
    · obtain rfl : nb = n := Fin.castLE_injective _ hreg
      exact .inr (setVreg_vreg_self _ _ _)
    · have hne : nb ≠ n := fun e => hreg (e ▸ rfl)
      rw [setVreg_vreg_ne s _ hreg]
      exact h.imp_left fun hmem => hmem.resolve_left hne

/-! ### One unit (R207) -/

/-- A unit's work: the micro-program's result on the nine neighbour vectors is stored at the unit's place. -/
def unitStep (ld : Latch) (w : Progress) (u : WorkUnit) : Progress :=
  let out := kernelOutput (kernelMode ld.mode) ld.fmt (unitVector ld u w.mem) w.draws
  { mem := w.mem.writeBytes (storeAddr ld.fmt ld u.cursor).toNat (accessBytes ld.fmt (!u.vector)) out.1
    draws := out.2 }

/-- The store of a unit of a valid launch. -/
theorem execUop_unitStore {s : State} {u : WorkUnit} (hvalid : ValidLaunch s.params s.latch)
    (hu : u ∈ planeUnits s.latch) (hcur : s.cursor = u.cursor) (r : VReg) :
    execUop (.vstoreu s.latch.fmt r (!u.vector)) s = .next (s.worked s.cursor s.v
      { mem := s.mem.writeBytes (storeAddr s.latch.fmt s.latch u.cursor).toNat
          (accessBytes s.latch.fmt (!u.vector)) (s.vreg r)
        draws := s.draws }) := by
  rw [execUop, execVstoreu, hcur, storeTo, if_pos (unit_store_inSpace hvalid hu), ← hcur]
  rfl

/-- A unit of a valid launch completes, and does `unitStep`. -/
theorem runUnit_eq {s : State} {u : WorkUnit} (hvalid : ValidLaunch s.params s.latch) (hu : u ∈ planeUnits s.latch) :
    ∃ v, runUnit u s = .next (s.worked u.cursor v (unitStep s.latch s.progress u)) := by
  obtain ⟨v, hloads, hv⟩ :=
    runUops_unitLoads (s := s.worked u.cursor s.v s.progress) hvalid hu rfl s.params.tier (List.finRange 9)
  obtain ⟨v', hprog, hres⟩ := runUops_microProgram (kernelMode s.latch.mode) s.latch.fmt
    (s := s.worked u.cursor v s.progress) fun nb => hv nb (.inl (List.mem_finRange nb))
  have hstore (w : Progress) :=
    execUop_unitStore (s := s.worked u.cursor v' w) hvalid hu rfl (resultReg (kernelMode s.latch.mode))
  refine ⟨v', ?_⟩
  rw [runUnit, unitProgram, List.append_assoc]
  refine (runUops_append_of_next hloads).trans ((runUops_append_of_next hprog).trans ?_)
  refine (runUops_cons_of_next (hstore _)).trans ?_
  simp only [worked_vreg, hres]
  rfl

end Sys2Proof.Machine
end

section
/-! SUPPORT. The walk over units as a fold of what each unit does, and a whole launch as that fold: what it writes, what
it leaves, and what it depends on (R63, R64, R68, R205, R208, R209, R231). -/

namespace Sys2Proof.Machine

/-! ### The walk (R208, R209) -/

/-- What the units of a list do, one after the other. -/
def unitSteps (ld : Latch) (us : List WorkUnit) (w : Progress) : Progress := us.foldl (unitStep ld) w

theorem unitSteps_append (ld : Latch) (us vs : List WorkUnit) (w : Progress) :
    unitSteps ld (us ++ vs) w = unitSteps ld vs (unitSteps ld us w) := List.foldl_append

/-- No access is due in any of the next `n` turns. -/
def FreeTurns (n : Nat) (s : State) : Prop := ∀ k < n, (State.takeTurn^[k] s).due = none

/-- Turns go by alike whatever the units do. -/
theorem takeTurn_iterate_worked (n : Nat) (s : State) (cur : Cursor) (v : Vector Vec 32) (w : Progress) :
    State.takeTurn^[n] (s.worked cur v w) = (State.takeTurn^[n] s).worked cur v w :=
  (show Function.Commute State.takeTurn fun s => s.worked cur v w from fun _ => rfl).iterate_left n s

theorem FreeTurns.tail {n : Nat} {s : State} (h : FreeTurns (n + 1) s) (cur : Cursor) (v : Vector Vec 32)
    (w : Progress) : FreeTurns n (s.takeTurn.worked cur v w) := fun k hk => by
  rw [takeTurn_iterate_worked]
  exact h (k + 1) (by omega)

/-- While no access is due the units of a valid launch complete one after the other, and do `unitSteps`. -/
theorem runUnits_append_of_freeTurns {us : List WorkUnit} (vs : List WorkUnit) {s : State}
    (hvalid : ValidLaunch s.params s.latch) (hus : ∀ u ∈ us, u ∈ planeUnits s.latch) (hfree : FreeTurns us.length s) :
    ∃ cur v, runUnits (us ++ vs) s =
      runUnits vs ((State.takeTurn^[us.length] s).worked cur v (unitSteps s.latch us s.progress)) := by
  induction us generalizing s with
  | nil => exact ⟨s.cursor, s.v, rfl⟩
  | cons u rest ih =>
    obtain ⟨v, hunit⟩ := runUnit_eq (s := s.takeTurn) hvalid (hus u List.mem_cons_self)
    obtain ⟨cur, v', hrest⟩ := ih (s := s.takeTurn.worked u.cursor v (unitStep s.latch s.progress u)) hvalid
      (fun w hw => hus w (List.mem_cons_of_mem u hw)) (hfree.tail _ _ _)
    refine ⟨cur, v', ?_⟩
    have hdue : s.due = none := hfree 0 (Nat.succ_pos _)
    rw [List.cons_append, runUnits, hdue, hunit]
    refine hrest.trans ?_
    rw [takeTurn_iterate_worked, worked_worked]
    rfl

/-! ### Undisturbed launches (R28) -/

/-- Nobody acts while an undisturbed launch runs: its host waits, or has nothing to do. -/
theorem Undisturbed.turn_eq {s : State} (h : Undisturbed s) (hbusy : s.phase = .busy) :
    s.due = none ∧ s.takeTurn = s := by
  obtain ⟨hothers, hhost⟩ := h
  cases s
  simp only at hothers hbusy hhost
  subst hothers hbusy
  obtain rfl | rfl := hhost
  · simp [State.due, State.takeTurn, State.hostStalled]
  · simp [State.due, State.takeTurn, State.hostStalled]

theorem Undisturbed.freeTurns {s : State} (h : Undisturbed s) (hbusy : s.phase = .busy) (n : Nat) : FreeTurns n s :=
  fun k _ => by
    rw [Function.iterate_fixed (h.turn_eq hbusy).2]
    exact (h.turn_eq hbusy).1

/-- The walk of an undisturbed launch over units still to do ends it with OK (R209). -/
theorem runUnits_of_undisturbed {us : List WorkUnit} {s : State} (hvalid : ValidLaunch s.params s.latch)
    (hus : ∀ u ∈ us, u ∈ planeUnits s.latch) (h : Undisturbed s) (hbusy : s.phase = .busy) :
    ∃ cur v, runUnits us s = .next (endLaunch .ok (s.worked cur v (unitSteps s.latch us s.progress))) := by
  obtain ⟨cur, v, hrun⟩ := runUnits_append_of_freeTurns [] hvalid hus (h.freeTurns hbusy _)
  rw [List.append_nil, Function.iterate_fixed (h.turn_eq hbusy).2] at hrun
  exact ⟨cur, v, hrun⟩

/-! ### A whole launch (R230, R231) -/

/-- What a launch makes of memory and draws: the work of all its units. -/
def planeWork (ld : Latch) (w : Progress) : Progress := unitSteps ld (planeUnits ld) w

theorem Undisturbed.acceptCommand {s : State} (h : Undisturbed s) (m : Mode) (fmt : Fmt) (al : Bool) :
    Undisturbed (acceptCommand m fmt al s) :=
  ⟨by simpa using h.no_others, by simpa using h.host_waits⟩

theorem endLaunch_acceptCommand (r : ResultCode) (m : Mode) (fmt : Fmt) (al : Bool) (s : State) (cur : Cursor)
    (v : Vector Vec 32) (w : Progress) :
    endLaunch r ((acceptCommand m fmt al s).worked cur v w) = launchEnd m fmt al r v w.mem w.draws s := by
  unfold endLaunch launchEnd acceptCommand State.worked
  cases s.issuer <;> rfl

@[simp] theorem launchEnd_result (m : Mode) (fmt : Fmt) (al : Bool) (r : ResultCode) (v : Vector Vec 32) (mem : Memory)
    (draws : Nat) (s : State) : (launchEnd m fmt al r v mem draws s).result = r := by
  rw [launchEnd, respond_result]

@[simp] theorem launchEnd_mem (m : Mode) (fmt : Fmt) (al : Bool) (r : ResultCode) (v : Vector Vec 32) (mem : Memory)
    (draws : Nat) (s : State) : (launchEnd m fmt al r v mem draws s).mem = mem := by
  rw [launchEnd, respond_mem]

/-- An undisturbed valid launch ends with OK, having done the work of its units. -/
theorem exec_filter_of_undisturbed {s : State} {m : Mode} {fmt : Fmt} {al : Bool} (hidle : s.phase = .idle)
    (h : Undisturbed s) (hmode : Accepted s.params m) (hvalid : ValidLaunch s.params (latchOf m fmt al s.regs)) :
    ∃ v, exec (Instr.filter m fmt al) s = .next (launchEnd m fmt al .ok v
      (planeWork (latchOf m fmt al s.regs) s.progress).mem (planeWork (latchOf m fmt al s.regs) s.progress).draws s) := by
  have hlatch := acceptCommand_latch m fmt al s
  have hprogress : (acceptCommand m fmt al s).progress = s.progress := by simp [State.progress]
  obtain ⟨cur, v, hrun⟩ := runUnits_of_undisturbed (s := acceptCommand m fmt al s)
    (us := planeUnits (latchOf m fmt al s.regs)) (by simpa using hvalid) (by simp) (h.acceptCommand m fmt al) (by simp)
  rw [exec_filter, filterPlane_of_valid hidle hmode hvalid, hrun, endLaunch_acceptCommand, hlatch, hprogress]
  exact ⟨v, rfl⟩

/-! ### What a launch leaves as it was (R64, R17) -/

theorem unitStep_read_of_not_inWS {ld : Latch} {u : WorkUnit} (hgeo : ValidGeometry ld) (hu : u ∈ planeUnits ld)
    (w : Progress) {a : Nat} (ha : ¬InWS ld a) : (unitStep ld w u).mem.read a = w.mem.read a := by
  refine (Memory.read_writeBytes _ _ _ _ _).trans (if_neg fun ⟨hle, hlt⟩ => ha ?_)
  have hfirst := hgeo.nonneg (.inr (unit_store_in_writeSet hu (accessBytes_pos _ _)))
  have hbyte := unit_store_in_writeSet (k := a - (storeAddr ld.fmt ld u.cursor).toNat) hu (by omega)
  rwa [show storeAddr ld.fmt ld u.cursor + ((a - (storeAddr ld.fmt ld u.cursor).toNat : Nat) : Int) = a by omega] at hbyte

theorem unitSteps_read_of_not_inWS {ld : Latch} {us : List WorkUnit} (hgeo : ValidGeometry ld)
    (hus : ∀ u ∈ us, u ∈ planeUnits ld) (w : Progress) {a : Nat} (ha : ¬InWS ld a) :
    (unitSteps ld us w).mem.read a = w.mem.read a := by
  induction us generalizing w with
  | nil => rfl
  | cons u rest ih =>
    exact (ih (fun w hw => hus w (List.mem_cons_of_mem u hw)) (unitStep ld w u)).trans
      (unitStep_read_of_not_inWS hgeo (hus u List.mem_cons_self) w ha)

theorem unitSteps_draws {ld : Latch} (hfmt : ld.fmt ≠ .f32) (us : List WorkUnit) (w : Progress) :
    (unitSteps ld us w).draws = w.draws := by
  induction us generalizing w with
  | nil => rfl
  | cons u rest ih => exact (ih (unitStep ld w u)).trans (kernelOutput_draws _ _ _ hfmt)

/-- Settles O23. -/
theorem validLaunchEndsWithOk : Obligations.ValidLaunchEndsWithOk := by
  intro s m fmt al hidle h hmode hvalid
  obtain ⟨v, hexec⟩ := exec_filter_of_undisturbed hidle h hmode hvalid
  exact ⟨v, _, _, hexec, fun hfmt => unitSteps_draws hfmt _ _,
    fun a ha => unitSteps_read_of_not_inWS hvalid.geometry (fun _ hu => hu) _ ha⟩

/-! ### The alignment assertion (R68) -/

/-- Settles O28: the work of a launch does not read ALIGN, and without it the launch is valid all the more. -/
theorem alignHintIsNotObservable : Obligations.AlignHintIsNotObservable := by
  intro s m fmt hidle h hmode hvalid
  have hunhinted : ValidLaunch s.params (latchOf m fmt false s.regs) :=
    { geometry := { hvalid.geometry with }, aligned := fun hal => Bool.noConfusion hal, disjoint := hvalid.disjoint,
      in_memory := hvalid.in_memory, ordinary := hvalid.ordinary }
  have hwork : planeWork (latchOf m fmt false s.regs) = planeWork (latchOf m fmt true s.regs) := rfl
  obtain ⟨v, hexec⟩ := exec_filter_of_undisturbed hidle h hmode hvalid
  obtain ⟨v', hexec'⟩ := exec_filter_of_undisturbed hidle h hmode hunhinted
  refine ⟨_, _, hexec, hexec', ?_, ?_⟩
  · rw [launchEnd_mem, launchEnd_mem, hwork]
  · rw [launchEnd_result, launchEnd_result]

/-! ### The read set (R63, R205) -/

/-- Two launches have come to the same draws, and agree on the bytes of a set. -/
structure ProgressAgree (known : Nat → Prop) (w w' : Progress) : Prop where
  draws : w'.draws = w.draws
  read : ∀ a, known a → w'.mem.read a = w.mem.read a

/-- The bytes that a unit stores. -/
def UnitStores (ld : Latch) (u : WorkUnit) (a : Nat) : Prop :=
  (storeAddr ld.fmt ld u.cursor).toNat ≤ a ∧ a < (storeAddr ld.fmt ld u.cursor).toNat + accessBytes ld.fmt (!u.vector)

theorem unitVector_congr {ld : Latch} {u : WorkUnit} (hgeo : ValidGeometry ld) (hu : u ∈ planeUnits ld)
    {mem mem' : Memory} (h : ∀ a : Nat, InRS ld a → mem'.read a = mem.read a) :
    unitVector ld u mem' = unitVector ld u mem := by
  funext nb
  refine Memory.readBytes_congr _ _ _ _ fun k hk => h _ ?_
  have hbyte := unit_load_in_readSet hgeo hu nb hk
  have hfirst := hgeo.nonneg (.inl (unit_load_in_readSet hgeo hu nb (accessBytes_pos _ _)))
  rwa [show (((loadAddr ld.fmt ld u.cursor nb (!u.vector)).toNat + k : Nat) : Int) =
    loadAddr ld.fmt ld u.cursor nb (!u.vector) + k by omega]

/-- Launches that agree on RS agree after a unit on the bytes that it stores too. -/
theorem ProgressAgree.unitStep {ld : Latch} {u : WorkUnit} {known : Nat → Prop} {w w' : Progress}
    (h : ProgressAgree known w w') (hgeo : ValidGeometry ld) (hu : u ∈ planeUnits ld)
    (hknown : ∀ a : Nat, InRS ld a → known a) :
    ProgressAgree (fun a => known a ∨ UnitStores ld u a) (unitStep ld w u) (unitStep ld w' u) := by
  have hvector := unitVector_congr hgeo hu fun a ha => h.read a (hknown a ha)
  constructor
  · simp only [Machine.unitStep, hvector, h.draws]
  · intro a ha
    simp only [Machine.unitStep, hvector, h.draws, Memory.read_writeBytes]
    split
    · rfl
    · exact h.read a (ha.resolve_right ‹_›)

theorem ProgressAgree.unitSteps {ld : Latch} {us : List WorkUnit} {known : Nat → Prop} {w w' : Progress}
    (h : ProgressAgree known w w') (hgeo : ValidGeometry ld) (hus : ∀ u ∈ us, u ∈ planeUnits ld)
    (hknown : ∀ a : Nat, InRS ld a → known a) :
    ProgressAgree (fun a => known a ∨ ∃ u ∈ us, UnitStores ld u a) (unitSteps ld us w) (unitSteps ld us w') := by
  induction us generalizing known w w' with
  | nil => exact ⟨h.draws, fun a ha => h.read a (by simpa using ha)⟩
  | cons u rest ih =>
    have hrest := ih (h.unitStep hgeo (hus u List.mem_cons_self) hknown)
      (fun v hv => hus v (List.mem_cons_of_mem u hv)) fun a ha => .inl (hknown a ha)
    exact ⟨hrest.draws, fun a ha => hrest.read a (by simpa [or_assoc] using ha)⟩

/-- Every byte of WS is stored by the unit of its pixel (R64, R206). -/
theorem inWS_stored {ld : Latch} (hgeo : ValidGeometry ld) {a : Nat} (ha : InWS ld a) :
    ∃ u ∈ planeUnits ld, UnitStores ld u a := by
  obtain ⟨x, y, k, hx, hy, hk, heq⟩ := ha
  obtain ⟨u, hu, rfl, hux, hxu⟩ := planeUnits_cover hx hy
  have hfirst := hgeo.nonneg (.inr (unit_store_in_writeSet hu (accessBytes_pos _ _)))
  obtain ⟨j, rfl⟩ := Nat.exists_eq_add_of_le hux
  have hlast : (j + 1) * ld.fmt.ps ≤ u.width ld.fmt * ld.fmt.ps :=
    Nat.mul_le_mul_right _ (by simp only [WorkUnit.width]; omega)
  have hstore : storeAddr ld.fmt ld u.cursor + (j * ld.fmt.ps + k : Nat) = a := by
    rw [heq]
    simp only [storeAddr, dstAddr, WorkUnit.cursor]
    push_cast
    ring
  rw [Nat.succ_mul] at hlast
  refine ⟨u, hu, ?_⟩
  rw [UnitStores, accessBytes_eq_width]
  omega

/-- Settles O26: launches that agree on RS agree on the bytes of every unit, and so on WS. -/
theorem outputDependsOnTheReadSetAlone : Obligations.OutputDependsOnTheReadSetAlone := by
  intro s m fmt al v mem hidle h hmode hvalid hread
  obtain ⟨v₁, hexec⟩ := exec_filter_of_undisturbed hidle h hmode hvalid
  obtain ⟨v₂, hexec'⟩ := exec_filter_of_undisturbed (s := { s with v := v, mem := mem }) hidle
    ⟨h.no_others, h.host_waits⟩ hmode hvalid
  have hagree : ProgressAgree (fun a => InRS (latchOf m fmt al s.regs) a) s.progress ⟨mem, s.draws⟩ := ⟨rfl, hread⟩
  have hplane := hagree.unitSteps (us := planeUnits _) hvalid.geometry (fun _ hu => hu) fun _ ha => ha
  refine ⟨_, _, hexec, hexec', fun a ha => ?_⟩
  rw [launchEnd_mem, launchEnd_mem]
  exact hplane.read a (.inr (inWS_stored hvalid.geometry ha))

end Sys2Proof.Machine
end

section
/-! SUPPORT. A launch that stands still between two units while a master reads STATUS, and goes on after it (R22, R28, R30,
R42, R72, R205, R284). -/

namespace Sys2Proof.Machine

/-! ### One access in a later turn -/

theorem takeTurn_iterate_frame (n : Nat) (s : State) :
    ∃ host others, State.takeTurn^[n] s = { s with host := host, others := others } := by
  induction n generalizing s with
  | zero => exact ⟨s.host, s.others, rfl⟩
  | succ n ih =>
    rw [Function.iterate_succ_apply]
    exact ih s.takeTurn

/-- No access is due for `n` turns, then one is, and then none until the launch ends. -/
structure InterruptedAfter (n : Nat) (a : Access) (s : State) : Prop where
  free : FreeTurns n s
  due : ∃ m, (State.takeTurn^[n] s).due = some (m, a)
  undisturbed : Undisturbed (State.takeTurn^[n] s).takeTurn

theorem InterruptedAfter.succ {n : Nat} {a : Access} {s : State} (hdue : s.due = none)
    (h : InterruptedAfter n a s.takeTurn) : InterruptedAfter (n + 1) a s where
  free k hk := by
    cases k with
    | zero => exact hdue
    | succ k => exact h.free k (by omega)
  due := h.due
  undisturbed := h.undisturbed

/-- Another master's turns come while the host waits or has nothing to do. -/
theorem interruptedAfter_of_others {n : Nat} {a : Access} {s : State} (huop : s.uopWord = none)
    (hbusy : s.phase = .busy) (hwaits : s.issuer = .host ∨ s.host = [])
    (h : s.others = List.replicate n none ++ [some a]) : InterruptedAfter n a s := by
  induction n generalizing s with
  | zero =>
    obtain ⟨hdue, hturn⟩ := due_of_others h
    refine ⟨fun k hk => absurd hk (Nat.not_lt_zero k), ⟨_, hdue⟩, ?_⟩
    rw [Function.iterate_zero_apply, hturn]
    exact ⟨rfl, hwaits⟩
  | succ n ih =>
    have hquiet : NoAccessDue s :=
      ⟨huop, by simp [NoOtherDue, h, List.replicate_succ], hwaits.imp (⟨hbusy, ·⟩) fun he => by simp [he]⟩
    obtain ⟨hdue, hturn⟩ := hquiet.due_eq_none
    refine .succ hdue (ih huop hbusy ?_ (by simp [h, List.replicate_succ]))
    rw [hturn]
    exact hwaits.imp_right fun he => by simp [he]

/-- The host's turns come while another master's launch runs and no other master acts (R284). -/
theorem interruptedAfter_of_host {n : Nat} {a : Access} {s : State} (huop : s.uopWord = none)
    (hissuer : s.issuer = .others) (hothers : s.others = []) (h : s.host = List.replicate n none ++ [some a]) :
    InterruptedAfter n a s := by
  induction n generalizing s with
  | zero =>
    obtain ⟨hdue, hturn⟩ := due_of_host (by simp [NoOtherDue, hothers]) (by simp [hissuer]) h
    refine ⟨fun k hk => absurd hk (Nat.not_lt_zero k), ⟨_, hdue⟩, ?_⟩
    rw [Function.iterate_zero_apply, hturn]
    exact ⟨by simp [hothers], .inr rfl⟩
  | succ n ih =>
    have hquiet : NoAccessDue s :=
      ⟨huop, by simp [NoOtherDue, hothers], .inr (by simp [h, List.replicate_succ])⟩
    obtain ⟨hdue, hturn⟩ := hquiet.due_eq_none
    refine .succ hdue (ih huop hissuer (by simp [hothers]) ?_)
    rw [hturn]
    simp [hissuer, h, List.replicate_succ]

/-! ### Standing still and going on (R42, R208) -/

/-- When an access is due after the units `us`, the launch stands still with its cursor at the next unit. -/
theorem runUnits_of_interrupted {us vs : List WorkUnit} {u : WorkUnit} {a : Access} {s : State}
    (hvalid : ValidLaunch s.params s.latch) (hus : ∀ u ∈ us, u ∈ planeUnits s.latch)
    (h : InterruptedAfter us.length a s) :
    ∃ v, runUnits (us ++ u :: vs) s =
      .next ((State.takeTurn^[us.length] s).worked u.cursor v (unitSteps s.latch us s.progress)) := by
  obtain ⟨cur, v, hrun⟩ := runUnits_append_of_freeTurns (u :: vs) hvalid hus h.free
  obtain ⟨m, hdue⟩ := h.due
  refine ⟨v, hrun.trans ?_⟩
  have hdue' : ((State.takeTurn^[us.length] s).worked cur v (unitSteps s.latch us s.progress)).due = some (m, a) := hdue
  rw [runUnits, hdue']
  rfl

/-- A read of STATUS changes nothing but the answer and the turns. -/
theorem step_statusRead {s : State} {m : Master} (huop : s.uopWord = none)
    (hdue : s.due = some (m, .regRead (s.params.regBase + 4) 4)) :
    ∃ r, step s = .next (s.takeTurn.respond m r) :=
  ⟨_, (step_of_due huop hdue).trans (access_regRead_offset m .status s.takeTurn)⟩

/-- An undisturbed launch that stands at the unit `u` does the units that are left, and ends with OK (R209). -/
theorem step_resumes {us vs : List WorkUnit} {u : WorkUnit} {s : State} (hplane : planeUnits s.latch = us ++ u :: vs)
    (hvalid : ValidLaunch s.params s.latch) (huop : s.uopWord = none) (hbusy : s.phase = .busy) (h : Undisturbed s)
    (hcur : s.cursor = u.cursor) :
    ∃ cur v, step s = .next (endLaunch .ok (s.worked cur v (unitSteps s.latch (u :: vs) s.progress))) := by
  rw [step_of_busy huop (h.turn_eq hbusy).1 hbusy, resumeLaunch, hcur, unitsFrom_eq hplane]
  exact runUnits_of_undisturbed hvalid (by simp +contextual [hplane]) h hbusy

/-- A launch that stands at the unit `u` while a master reads STATUS, and then goes on, does the units that are left. -/
theorem step_statusRead_resumes {us vs : List WorkUnit} {u : WorkUnit} {m : Master} {s : State}
    (hplane : planeUnits s.latch = us ++ u :: vs) (hvalid : ValidLaunch s.params s.latch) (huop : s.uopWord = none)
    (hbusy : s.phase = .busy) (hcur : s.cursor = u.cursor)
    (hdue : s.due = some (m, .regRead (s.params.regBase + 4) 4)) (h : Undisturbed s.takeTurn) :
    ∃ t t', step s = .next t ∧ t.phase = .busy ∧ step t = .next t' ∧ t'.phase = .idle ∧ t'.result = .ok ∧
      t'.mem = (unitSteps s.latch (u :: vs) s.progress).mem := by
  obtain ⟨r, hread⟩ := step_statusRead huop hdue
  have hprogress : (s.takeTurn.respond m r).progress = s.progress := by simp [State.progress]
  obtain ⟨cur, v, hend⟩ := step_resumes (s := s.takeTurn.respond m r) (us := us) (vs := vs) (u := u)
    (by simpa using hplane) (by simpa using hvalid) (by simpa using huop) (by simpa using hbusy)
    ⟨by simpa using h.no_others, by simpa using h.host_waits⟩ (by simpa using hcur)
  refine ⟨_, _, hread, by simpa using hbusy, hend, by simp, by simp, ?_⟩
  simp [hprogress]

/-- The launch stands still for a read of STATUS, goes on, and ends with OK and a given memory. -/
def EndsAfterStatusRead (o : Outcome State) (mem : Memory) : Prop :=
  ∃ t t₁ t₂, o = .next t ∧ t.phase = .busy ∧ step t = .next t₁ ∧ t₁.phase = .busy ∧ step t₁ = .next t₂ ∧
    t₂.phase = .idle ∧ t₂.result = .ok ∧ t₂.mem = mem

/-- A launch interrupted after the units `us` by a read of STATUS does the work of all units in three parts: up to the
access, the access itself, and from there on. -/
theorem runUnits_statusRead {us vs : List WorkUnit} {u : WorkUnit} {s : State}
    (hplane : planeUnits s.latch = us ++ u :: vs) (hvalid : ValidLaunch s.params s.latch) (huop : s.uopWord = none)
    (hbusy : s.phase = .busy) (h : InterruptedAfter us.length (.regRead (s.params.regBase + 4) 4) s) :
    EndsAfterStatusRead (runUnits (planeUnits s.latch) s) (planeWork s.latch s.progress).mem := by
  obtain ⟨v, hstand⟩ := runUnits_of_interrupted (u := u) (vs := vs) hvalid (by simp +contextual [hplane]) h
  obtain ⟨m, hdue⟩ := h.due
  have hquiet := h.undisturbed
  obtain ⟨host, others, hframe⟩ := takeTurn_iterate_frame us.length s
  rw [hframe] at hstand hdue hquiet
  obtain ⟨t₁, t₂, hread, hbusy₁, hend, hidle, hok, hmem⟩ :=
    step_statusRead_resumes (s := State.worked { s with host := host, others := others } u.cursor v
      (unitSteps s.latch us s.progress)) (vs := vs) hplane hvalid huop hbusy rfl hdue ⟨hquiet.no_others, hquiet.host_waits⟩
  rw [← hplane] at hstand
  refine ⟨_, t₁, t₂, hstand, hbusy, hread, hbusy₁, hend, hidle, hok, hmem.trans ?_⟩
  rw [planeWork, hplane, unitSteps_append]
  rfl

/-- A command whose launch a read of STATUS interrupts. -/
theorem exec_filter_statusRead {s : State} {m : Mode} {fmt : Fmt} {al : Bool} {n : Nat} (hidle : s.phase = .idle)
    (huop : s.uopWord = none) (hmode : Accepted s.params m) (hvalid : ValidLaunch s.params (latchOf m fmt al s.regs))
    (hn : n < (planeUnits (latchOf m fmt al s.regs)).length)
    (h : InterruptedAfter n (.regRead (s.params.regBase + 4) 4) (acceptCommand m fmt al s)) :
    EndsAfterStatusRead (exec (Instr.filter m fmt al) s) (planeWork (latchOf m fmt al s.regs) s.progress).mem := by
  have hsplit := List.take_append_drop n (planeUnits (latchOf m fmt al s.regs))
  rw [List.drop_eq_getElem_cons hn] at hsplit
  have hlatch := acceptCommand_latch m fmt al s
  have hprogress : (acceptCommand m fmt al s).progress = s.progress := by simp [State.progress]
  have hwalk := runUnits_statusRead (s := acceptCommand m fmt al s) (by rw [hlatch, hsplit])
    (by simpa using hvalid) (by simpa using huop) (by simp) (by simpa [List.length_take_of_le hn.le] using h)
  rwa [hlatch, hprogress, ← filterPlane_of_valid hidle hmode hvalid, ← exec_filter] at hwalk

/-- Settles O29: interrupted or not, the launch leaves the memory of the whole plane's work. -/
theorem interruptedLaunchWritesTheSamePlane : Obligations.InterruptedLaunchWritesTheSamePlane := by
  intro s s' m fmt al n hidle h huop hmode hvalid hn turns hs'
  obtain ⟨v, hexec⟩ := exec_filter_of_undisturbed hidle h hmode hvalid
  have hinterrupted : InterruptedAfter n (.regRead (s'.params.regBase + 4) 4) (acceptCommand m fmt al s') := by
    obtain rfl | ⟨hissuer, rfl⟩ := hs'
    · exact interruptedAfter_of_others (by simpa using huop) (by simp) (by simpa using h.host_waits) (by simp [turns])
    · exact interruptedAfter_of_host (by simpa using huop) (by simpa using hissuer) (by simpa using h.no_others)
        (by simp [turns])
  have hends : EndsAfterStatusRead (exec (Instr.filter m fmt al) s')
      (planeWork (latchOf m fmt al s.regs) s.progress).mem := by
    obtain rfl | ⟨-, rfl⟩ := hs' <;> exact exec_filter_statusRead hidle huop hmode hvalid hn hinterrupted
  obtain ⟨t, t₁, t₂, hrun, hbusy, hread, hbusy₁, hend, hidle₂, hok, hmem⟩ := hends
  exact ⟨_, t, t₁, t₂, hexec, hrun, hbusy, hread, hbusy₁, hend, hidle₂, hok, by rw [hmem, launchEnd_mem]⟩

end Sys2Proof.Machine
end

section
/-! SUPPORT. Command words by their fields: the mask of R94, which words decode, and what an illegal one does (R90 to
R94). -/

namespace Sys2Proof

/-! ### The fields of a command word (R90, R91) -/

/-- A command word is rebuilt from its fields: R90 leaves out no bit. -/
theorem commandWord_eq_fields (w : Word) :
    w.extractLsb' 13 19 ++ BitVec.ofBool (commandAlign w) ++ w.extractLsb' 10 2 ++ commandFmt w ++ commandMode w =
      w := by
  apply BitVec.eq_of_getLsbD_eq
  intro i hi
  simp only [commandAlign, commandFmt, commandMode, BitVec.getLsbD_append, BitVec.getLsbD_extractLsb',
    BitVec.getLsbD_ofBool]
  split_ifs <;>
  · rw [decide_eq_true (by omega), Bool.true_and]
    congr 1
    omega

theorem commandReserved_parts (w : Word) :
    (commandReserved w).extractLsb' 2 19 = w.extractLsb' 13 19 ∧
      (commandReserved w).extractLsb' 0 2 = w.extractLsb' 10 2 :=
  ⟨BitVec.extractLsb'_append_eq_left, BitVec.extractLsb'_append_eq_right⟩

theorem commandReserved_eq_zero_iff (w : Word) :
    commandReserved w = 0#21 ↔ w.extractLsb' 10 2 = 0#2 ∧ w.extractLsb' 13 19 = 0#19 := by
  obtain ⟨hhigh, hlow⟩ := commandReserved_parts w
  refine ⟨fun h => ⟨?_, ?_⟩, fun ⟨hl, hh⟩ => ?_⟩
  · rw [← hlow, h]; rfl
  · rw [← hhigh, h]; rfl
  · rw [commandReserved, hl, hh]; rfl

/-- A command word is determined by its fields. -/
theorem command_ext {w w' : Word} (hres : commandReserved w = commandReserved w')
    (halign : commandAlign w = commandAlign w') (hfmt : commandFmt w = commandFmt w')
    (hmode : commandMode w = commandMode w') : w = w' := by
  obtain ⟨hhigh, hlow⟩ := commandReserved_parts w
  obtain ⟨hhigh', hlow'⟩ := commandReserved_parts w'
  rw [← commandWord_eq_fields w, ← commandWord_eq_fields w', ← hhigh, ← hlow, ← hhigh', ← hlow', hres, halign, hfmt,
    hmode]

/-! ### The mask of R94 -/

theorem commandMode_mask (w : Word) : commandMode (w &&& 0xFFFFECFF#32) = commandMode w := by
  rw [commandMode, BitVec.extractLsb'_and]
  exact BitVec.and_allOnes

theorem commandFmt_mask (w : Word) : commandFmt (w &&& 0xFFFFECFF#32) = 0#2 := by
  rw [commandFmt, BitVec.extractLsb'_and]
  exact BitVec.and_zero

theorem commandAlign_mask (w : Word) : commandAlign (w &&& 0xFFFFECFF#32) = false := by
  rw [commandAlign, BitVec.getLsbD_and]
  exact Bool.and_false _

theorem commandReserved_mask (w : Word) : commandReserved (w &&& 0xFFFFECFF#32) = commandReserved w := by
  rw [commandReserved, BitVec.extractLsb'_and, BitVec.extractLsb'_and]
  exact congrArg₂ (· ++ ·) BitVec.and_allOnes BitVec.and_allOnes

/-- The match word of a MODE byte has that byte and no other bit. -/
theorem command_fields_setWidth (b : BitVec 8) :
    commandReserved (b.setWidth 32) = 0#21 ∧ commandAlign (b.setWidth 32) = false ∧ commandFmt (b.setWidth 32) = 0#2 ∧
      commandMode (b.setWidth 32) = b := by
  revert b; decide

/-- Masking keeps MODE and the reserved bits: a masked word is a MODE byte exactly when it holds that byte and no
reserved bit is set. -/
theorem mask_eq_mode_iff (w : Word) (b : BitVec 8) :
    w &&& 0xFFFFECFF#32 = b.setWidth 32 ↔ commandReserved w = 0#21 ∧ commandMode w = b := by
  obtain ⟨hres, halign, hfmt, hmode⟩ := command_fields_setWidth b
  constructor
  · intro h
    rw [← commandReserved_mask, ← commandMode_mask, h]
    exact ⟨hres, hmode⟩
  · rintro ⟨hres', hmode'⟩
    apply command_ext
    · rw [commandReserved_mask, hres', hres]
    · rw [commandAlign_mask, halign]
    · rw [commandFmt_mask, hfmt]
    · rw [commandMode_mask, hmode', hmode]

/-! ### Command words that decode (R92, R93) -/

theorem Mode.ofBits_eq_none_iff (b : BitVec 8) :
    Mode.ofBits b = none ↔ b.toInt ∉ [-1, 0, 1, 2, 3, 4, 19, 20, 64] := by
  unfold Mode.ofBits
  split_ifs <;> simp_all

theorem Fmt.ofBits_eq_none_iff (b : BitVec 2) : Fmt.ofBits b = none ↔ b = 3#2 := by
  revert b; decide

theorem Fmt.toBits_ne_three (fmt : Fmt) : fmt.toBits ≠ 3#2 := by cases fmt <;> decide

theorem Instr.filter_wellFormed (m : Mode) (fmt : Fmt) (al : Bool) : (Instr.filter m fmt al).wellFormed = true := by
  cases m <;> rfl

/-- A command word is rejected exactly for its reserved bits, its format or its mode. -/
theorem decodeCommand_error_iff (w : Word) :
    (∃ r, decodeCommand w = .error r) ↔
      commandReserved w ≠ 0#21 ∨ Fmt.ofBits (commandFmt w) = none ∨ Mode.ofBits (commandMode w) = none := by
  unfold decodeCommand
  split
  case isTrue hres => simp [hres]
  case isFalse hres => split <;> simp_all

/-- A command word that decodes has the command's fields, so it is the command's word (R90 to R93). -/
theorem encode_of_decodeCommand {w : Word} {i : Instr} (h : decodeCommand w = .ok i) :
    encode i = .command w ∧ i.wellFormed = true := by
  unfold decodeCommand at h
  split at h
  case isTrue => cases h
  case isFalse hres =>
    split at h
    case h_1 => cases h
    case h_2 => cases h
    case h_3 fmt m hfmt hmode =>
      cases h
      rw [encode_filter, CodeWord.command.injEq]
      refine ⟨command_ext ?_ ?_ ?_ ?_, Instr.filter_wellFormed ..⟩
      · rw [commandReserved_encodeCommand, not_not.mp hres]
      · rw [commandAlign_encodeCommand]
      · rw [commandFmt_encodeCommand, (Fmt.ofBits_iff _ _).mp hfmt]
      · rw [commandMode_encodeCommand, (Mode.ofBits_iff _ _).mp hmode]

/-- A command word decodes to a command exactly when it is the command's word. -/
theorem decodeCommand_eq_ok_iff (w : Word) (m : Mode) (fmt : Fmt) (al : Bool) :
    decodeCommand w = .ok (Instr.filter m fmt al) ↔ w = encodeCommand m fmt al := by
  constructor
  · intro h
    obtain ⟨hword, -⟩ := encode_of_decodeCommand h
    rw [encode_filter, CodeWord.command.injEq] at hword
    exact hword.symm
  · rintro rfl
    exact decodeCommand_encodeCommand m fmt al

/-- R94: with FMT not 3, match and mask select the mode. -/
theorem decodeCommand_mode_iff (w : Word) (m : Mode) :
    (∃ fmt al, decodeCommand w = .ok (Instr.filter m fmt al)) ↔
      w &&& 0xFFFFECFF#32 = m.toBits.setWidth 32 ∧ commandFmt w ≠ 3#2 := by
  rw [mask_eq_mode_iff, ne_eq, ← Fmt.ofBits_eq_none_iff, ← ne_eq, Option.ne_none_iff_exists']
  simp only [decodeCommand_eq_ok_iff, Fmt.ofBits_iff]
  constructor
  · rintro ⟨fmt, al, rfl⟩
    exact ⟨⟨commandReserved_encodeCommand .., commandMode_encodeCommand ..⟩, fmt, commandFmt_encodeCommand ..⟩
  · rintro ⟨⟨hres, hmode⟩, fmt, hfmt⟩
    refine ⟨fmt, commandAlign w, command_ext ?_ ?_ ?_ ?_⟩
    · rw [hres, commandReserved_encodeCommand]
    · rw [commandAlign_encodeCommand]
    · rw [hfmt, commandFmt_encodeCommand]
    · rw [hmode, commandMode_encodeCommand]

/-- Settles O3. -/
theorem commandSelectedByMatchAndMask : Obligations.CommandSelectedByMatchAndMask := by
  refine ⟨decodeCommand_mode_iff, fun w hnone => ?_⟩
  cases h : decodeCommand w with
  | error r => exact ⟨r, rfl⟩
  | ok i =>
    obtain ⟨m, fmt, al, rfl⟩ := Machine.decodeCommand_ok h
    exact absurd ((decodeCommand_mode_iff w m).mp ⟨fmt, al, h⟩).1 (hnone m)

end Sys2Proof

namespace Sys2Proof.Machine

/-- An illegal word written to CMD of an idle engine ends its launch at once (R93, R231). -/
theorem writeCommand_illegal (m : Master) {w : Word} {r : Reject} {s : State} (hidle : s.phase = .idle)
    (hr : decodeCommand w = .error r) :
    writeCommand m w s = .next (endLaunch .errMode { s with issuer := m, regs := s.regs.write .cmd w }) := by
  simp only [writeCommand, rejectCommand, hidle, hr]

/-- Settles O4. -/
theorem illegalCommandEndsWithErrMode : Obligations.IllegalCommandEndsWithErrMode := by
  refine ⟨fun w => ?_, fun s m w r hidle hr => ?_⟩
  · rw [decodeCommand_error_iff, Mode.ofBits_eq_none_iff, Fmt.ofBits_eq_none_iff, ne_eq, commandReserved_eq_zero_iff]
    unfold commandMode commandFmt
    tauto
  · rw [access_writeCommand, writeCommand_illegal m hidle hr]
    simp only [endLaunch, Regs.write, hidle]

end Sys2Proof.Machine
end

section
/-! SUPPORT. The micro-op decoder inverted: an accepted word is its instruction's, a rejected one is reserved (R95 to
R99); and the two round trips. -/

namespace Sys2Proof.Machine

/-! ### Right answers of the decoder (R96, R99) -/

/-- What the decoder may answer for a word with fields `x`: an instruction whose word it is, the word not being
reserved, or a rejection, the word being reserved. -/
def UopAnswer (x : UopFields) : Except Reject Instr → Prop
  | .ok i => encode i = .microOp (uopWordOf x) ∧ i.wellFormed = true ∧ ¬ReservedUop x
  | .error _ => ReservedUop x

theorem uopAnswer_ifUnusedZero {x y : UopFields} {ok : Bool} {i : Instr} (hres : ReservedUop x ↔ ok = false)
    (heq : ok = true → x = y) (hword : encode i = .microOp (uopWordOf y)) (hwf : i.wellFormed = true) :
    UopAnswer x (ifUnusedZero ok i) := by
  cases ok with
  | false => exact hres.mpr rfl
  | true => exact ⟨heq rfl ▸ hword, hwf, by simp [hres]⟩

/-- The decoder's tests are conditionals: a right answer in both branches is a right answer. -/
theorem uopAnswer_ite {x : UopFields} {c : Prop} [Decidable c] {a b : Except Reject Instr} (ha : c → UopAnswer x a)
    (hb : ¬c → UopAnswer x b) : UopAnswer x (if c then a else b) := by
  split
  case isTrue h => exact ha h
  case isFalse h => exact hb h

/-! ### Field types -/

theorem nbi_toNat_le {b : BitVec 4} {nb : Nbi} (h : nbiOfBits b = some nb) : b.toNat ≤ 8 := by
  revert b nb; decide

theorem bit_eq_ofBool (b : BitVec 1) : BitVec.ofBool (b = 1#1) = b := by revert b; decide

/-! ### The rows of R97, by the fields they use -/

section FieldUse
variable {x : UopFields} {fmt : Fmt} {op : BitVec 6} {i : Instr}

theorem uopAnswer_onlyDAB (hres : x.res = 0#21) (hfmt : x.fmt = fmt.toBits) (hop : x.op = op)
    (hops : op ∈ [0x01#6, 0x02#6, 0x05#6, 0x10#6])
    (hword : encode i = .microOp (uopWordOf { blankFields op fmt with d := x.d, a := x.a, b := x.b }))
    (hwf : i.wellFormed = true) : UopAnswer x (ifUnusedZero (onlyDAB x) i) := by
  refine uopAnswer_ifUnusedZero ?_ (fun h => ?_) hword hwf
  · simp only [List.mem_cons, List.not_mem_nil, or_false] at hops
    rcases hops with rfl | rfl | rfl | rfl <;>
      simp [ReservedUop, onlyDAB, hop, hres, hfmt, Fmt.toBits_ne_three fmt] <;> tauto
  · cases x
    simp_all [onlyDAB, blankFields]

theorem uopAnswer_onlyDABC (hres : x.res = 0#21) (hfmt : x.fmt = fmt.toBits) (hop : x.op = op)
    (hops : op ∈ [0x04#6, 0x07#6])
    (hword : encode i = .microOp (uopWordOf { blankFields op fmt with d := x.d, a := x.a, b := x.b, c := x.c }))
    (hwf : i.wellFormed = true) : UopAnswer x (ifUnusedZero (onlyDABC x) i) := by
  refine uopAnswer_ifUnusedZero ?_ (fun h => ?_) hword hwf
  · simp only [List.mem_cons, List.not_mem_nil, or_false] at hops
    rcases hops with rfl | rfl <;>
      simp [ReservedUop, onlyDABC, hop, hres, hfmt, Fmt.toBits_ne_three fmt] <;> tauto
  · cases x
    simp_all [onlyDABC, blankFields]

theorem uopAnswer_onlyD (hres : x.res = 0#21) (hfmt : x.fmt = fmt.toBits) (hop : x.op = op)
    (hops : op ∈ [0x11#6, 0x12#6])
    (hword : encode i = .microOp (uopWordOf { blankFields op fmt with d := x.d }))
    (hwf : i.wellFormed = true) : UopAnswer x (ifUnusedZero (onlyD x) i) := by
  refine uopAnswer_ifUnusedZero ?_ (fun h => ?_) hword hwf
  · simp only [List.mem_cons, List.not_mem_nil, or_false] at hops
    rcases hops with rfl | rfl <;>
      simp [ReservedUop, onlyD, hop, hres, hfmt, Fmt.toBits_ne_three fmt] <;> tauto
  · cases x
    simp_all [onlyD, blankFields]

theorem uopAnswer_onlyDNbiSc (hres : x.res = 0#21) (hfmt : x.fmt = fmt.toBits) (hop : x.op = op)
    (hops : op = 0x08#6 ∨ (op = 0x09#6 ∧ x.sc = 0#1)) (hnbi : x.nbi.toNat ≤ 8)
    (hword : encode i = .microOp (uopWordOf { blankFields op fmt with d := x.d, nbi := x.nbi, sc := x.sc }))
    (hwf : i.wellFormed = true) : UopAnswer x (ifUnusedZero (onlyDNbiSc x) i) := by
  refine uopAnswer_ifUnusedZero ?_ (fun h => ?_) hword hwf
  · have hnbi := hnbi.not_gt
    rcases hops with rfl | ⟨rfl, hsc⟩ <;>
      simp [ReservedUop, onlyDNbiSc, *, Fmt.toBits_ne_three fmt] <;> tauto
  · cases x
    simp_all [onlyDNbiSc, blankFields]

theorem uopAnswer_vsortp (hres : x.res = 0#21) (hfmt : x.fmt = fmt.toBits) (hop : x.op = 0x03#6) (hde : x.d ≠ x.e) :
    UopAnswer x (ifUnusedZero (x.c = 0 && x.f = 0 && x.nbi = 0 && x.sc = 0)
      (.vsortp fmt x.d.toFin x.e.toFin x.a.toFin x.b.toFin)) := by
  refine uopAnswer_ifUnusedZero (y := { blankFields 0x03#6 fmt with d := x.d, e := x.e, a := x.a, b := x.b })
    ?_ (fun h => ?_) rfl ?_
  · simp [ReservedUop, hop, hde, hres, hfmt, Fmt.toBits_ne_three fmt]
    tauto
  · cases x
    simp_all [blankFields]
  · simpa [Instr.wellFormed, distinctDestinations, ← BitVec.toFin_inj] using hde

theorem uopAnswer_vseleq (hres : x.res = 0#21) (hfmt : x.fmt = fmt.toBits) (hop : x.op = 0x06#6) :
    UopAnswer x (ifUnusedZero (x.e = 0 && x.nbi = 0 && x.sc = 0)
      (.vseleq fmt x.d.toFin x.a.toFin x.b.toFin x.c.toFin x.f.toFin)) := by
  refine uopAnswer_ifUnusedZero
    (y := { blankFields 0x06#6 fmt with d := x.d, a := x.a, b := x.b, c := x.c, f := x.f }) ?_ (fun h => ?_) rfl rfl
  · simp [ReservedUop, hop, hres, hfmt, Fmt.toBits_ne_three fmt]
    tauto
  · cases x
    simp_all [blankFields]

theorem uopAnswer_vstoreu (hres : x.res = 0#21) (hfmt : x.fmt = fmt.toBits) (hop : x.op = 0x0A#6) :
    UopAnswer x (ifUnusedZero (onlyASc x) (.vstoreu fmt x.a.toFin (x.sc = 1#1))) := by
  refine uopAnswer_ifUnusedZero (y := { blankFields 0x0A#6 fmt with a := x.a, sc := x.sc }) ?_ (fun h => ?_) ?_ rfl
  · simp [ReservedUop, onlyASc, hop, hres, hfmt, Fmt.toBits_ne_three fmt]
    tauto
  · cases x
    simp_all [onlyASc, blankFields]
  · rw [encode, bit_eq_ofBool]
    rfl

theorem reservedUop_of_nbiOfBits_eq_none (hop : x.op = 0x08#6 ∨ x.op = 0x09#6) (h : nbiOfBits x.nbi = none) :
    ReservedUop x := by
  have hbig : 8 < x.nbi.toNat := by simpa [nbiOfBits, Nat.succ_le_iff] using h
  rcases hop with hop | hop <;> simp [ReservedUop, hop, hbig]

theorem uopAnswer_vloadu (hres : x.res = 0#21) (hfmt : x.fmt = fmt.toBits) (hop : x.op = 0x08#6) (nb : Nbi)
    (hnbi : nbiOfBits x.nbi = some nb) :
    UopAnswer x (ifUnusedZero (onlyDNbiSc x) (.vloadu fmt x.d.toFin nb (x.sc = 1#1))) := by
  refine uopAnswer_onlyDNbiSc hres hfmt hop (.inl rfl) (nbi_toNat_le hnbi) ?_ rfl
  rw [encode, bit_eq_ofBool, ← (nbiOfBits_iff _ _).mp hnbi]
  rfl

theorem uopAnswer_vloada (hres : x.res = 0#21) (hfmt : x.fmt = fmt.toBits) (hop : x.op = 0x09#6) (nb : Nbi)
    (hnbi : nbiOfBits x.nbi = some nb) :
    UopAnswer x (if x.sc = 1#1 then .error .scalarAlignedLoad
      else ifUnusedZero (onlyDNbiSc x) (.vloada fmt x.d.toFin nb)) := by
  refine uopAnswer_ite (fun hsc => ?_) fun hsc => ?_
  · simp [UopAnswer, ReservedUop, hop, hsc]
  · have hvector : x.sc = 0#1 := by bv_omega
    refine uopAnswer_onlyDNbiSc hres hfmt hop (.inr ⟨rfl, hvector⟩) (nbi_toNat_le hnbi) ?_ rfl
    rw [encode, hvector, ← (nbiOfBits_iff _ _).mp hnbi]
    rfl

/-- The decoder answers rightly for every row of R97 and for the OP fields of no row. -/
theorem decodeUopFields_answer (hres : x.res = 0#21) (hfmt : x.fmt = fmt.toBits) :
    UopAnswer x (decodeUopFields fmt x) := by
  unfold decodeUopFields
  refine uopAnswer_ite (fun h => uopAnswer_onlyDAB hres hfmt h (by decide) rfl rfl) fun h1 => ?_
  refine uopAnswer_ite (fun h => uopAnswer_onlyDAB hres hfmt h (by decide) rfl rfl) fun h2 => ?_
  refine uopAnswer_ite (fun h => uopAnswer_ite (fun hde => ?_) fun hde => uopAnswer_vsortp hres hfmt h hde) fun h3 => ?_
  · simp [UopAnswer, ReservedUop, h, hde]
  refine uopAnswer_ite (fun h => uopAnswer_onlyDABC hres hfmt h (by decide) rfl rfl) fun h4 => ?_
  refine uopAnswer_ite (fun h => uopAnswer_onlyDAB hres hfmt h (by decide) rfl rfl) fun h5 => ?_
  refine uopAnswer_ite (fun h => uopAnswer_vseleq hres hfmt h) fun h6 => ?_
  refine uopAnswer_ite (fun h => uopAnswer_onlyDABC hres hfmt h (by decide) rfl rfl) fun h7 => ?_
  refine uopAnswer_ite (fun h => ?_) fun h8 => ?_
  · cases hnbi : nbiOfBits x.nbi with
    | none => exact reservedUop_of_nbiOfBits_eq_none (.inl h) hnbi
    | some nb => exact uopAnswer_vloadu hres hfmt h nb hnbi
  refine uopAnswer_ite (fun h => ?_) fun h9 => ?_
  · cases hnbi : nbiOfBits x.nbi with
    | none => exact reservedUop_of_nbiOfBits_eq_none (.inr h) hnbi
    | some nb => exact uopAnswer_vloada hres hfmt h nb hnbi
  refine uopAnswer_ite (fun h => uopAnswer_vstoreu hres hfmt h) fun h10 => ?_
  refine uopAnswer_ite (fun h => uopAnswer_onlyDAB hres hfmt h (by decide) rfl rfl) fun h11 => ?_
  refine uopAnswer_ite (fun h => uopAnswer_onlyD hres hfmt h (by decide) rfl rfl) fun h12 => ?_
  refine uopAnswer_ite (fun h => uopAnswer_onlyD hres hfmt h (by decide) rfl rfl) fun h13 => ?_
  refine .inr (.inr (.inl ?_))
  simp_all [← BitVec.toNat_inj]

end FieldUse

/-! ### Whole words (R95, R99) -/

theorem decodeUop_of_fields {x : UopFields} {fmt : Fmt} (hres : x.res = 0#21) (hfmt : x.fmt = fmt.toBits) :
    decodeUop (uopWordOf x) = decodeUopFields fmt x := by
  simp only [decodeUop, uopFields_uopWordOf, hres, hfmt, Fmt.ofBits_toBits, ne_eq, not_true_eq_false, if_false]

/-- The decoder's answer for any word: its instruction, whose word it is, or a rejection of a reserved word. -/
theorem decodeUop_answer (u : UWord) : UopAnswer (uopFields u) (decodeUop u) := by
  unfold decodeUop
  refine uopAnswer_ite (fun hres => .inl hres) fun hres => ?_
  cases hfmt : Fmt.ofBits (uopFields u).fmt with
  | none => exact .inr (.inl ((Fmt.ofBits_eq_none_iff _).mp hfmt))
  | some fmt => exact decodeUopFields_answer (not_not.mp hres) ((Fmt.ofBits_iff _ _).mp hfmt)

theorem encode_of_decodeUop {u : UWord} {i : Instr} (h : decodeUop u = .ok i) :
    encode i = .microOp u ∧ i.wellFormed = true ∧ ¬ReservedUop (uopFields u) := by
  have hanswer := decodeUop_answer u
  rwa [h, UopAnswer, uopWordOf_uopFields] at hanswer

/-- R99: a micro-op word is rejected exactly when it is reserved. -/
theorem decodeUop_error_iff (u : UWord) : (∃ r, decodeUop u = .error r) ↔ ReservedUop (uopFields u) := by
  have hanswer := decodeUop_answer u
  cases h : decodeUop u with
  | ok i => simpa [h, UopAnswer] using (encode_of_decodeUop h).2.2
  | error r => simpa [h, UopAnswer] using hanswer

/-! ### The two round trips (R90 to R99) -/

/-- Settles O2. -/
theorem encodeOfDecodeIsIdentity : Obligations.EncodeOfDecodeIsIdentity := by
  intro w i h
  cases w with
  | command w => exact encode_of_decodeCommand h
  | microOp u =>
    obtain ⟨hword, hwf, -⟩ := encode_of_decodeUop h
    exact ⟨hword, hwf⟩

/-- Settles O1. -/
theorem decodeOfEncodeIsIdentity : Obligations.DecodeOfEncodeIsIdentity := by
  intro i hwf
  cases i with
  | filterUndef fmt al => exact decodeCommand_encodeCommand .undef fmt al
  | filterPass fmt al => exact decodeCommand_encodeCommand .pass fmt al
  | filterClamp1 fmt al => exact decodeCommand_encodeCommand .clamp1 fmt al
  | filterClamp2 fmt al => exact decodeCommand_encodeCommand .clamp2 fmt al
  | filterClamp3 fmt al => exact decodeCommand_encodeCommand .clamp3 fmt al
  | filterClamp4 fmt al => exact decodeCommand_encodeCommand .clamp4 fmt al
  | filterMean8 fmt al => exact decodeCommand_encodeCommand .mean8 fmt al
  | filterMean9 fmt al => exact decodeCommand_encodeCommand .mean9 fmt al
  | filterMedian8 fmt al => exact decodeCommand_encodeCommand .median8 fmt al
  | vmin | vmax | vclip | vabsdiff | vseleq | vblend | kmedavg | kmean8 | kmean9 =>
    exact (decodeUop_of_fields rfl rfl).trans rfl
  | vsortp fmt d e a b =>
    have hde : regBits d ≠ regBits e := fun h => by simp_all [Instr.wellFormed, distinctDestinations, regBits]
    exact (decodeUop_of_fields rfl rfl).trans (if_neg hde)
  | vloadu fmt d nb sc =>
    refine (decodeUop_of_fields rfl rfl).trans ?_
    cases sc <;> simp [decodeUopFields, blankFields, nbiOfBits_nbiBits, onlyDNbiSc, ifUnusedZero, regBits]
  | vloada fmt d nb =>
    refine (decodeUop_of_fields rfl rfl).trans ?_
    simp [decodeUopFields, blankFields, nbiOfBits_nbiBits, onlyDNbiSc, ifUnusedZero, regBits]
  | vstoreu fmt a sc =>
    refine (decodeUop_of_fields rfl rfl).trans ?_
    cases sc <;> rfl

/-- Settles O6, by evaluation of the decoder on each of the six words. -/
theorem writtenWordsDecode : Obligations.WrittenWordsDecode :=
  ⟨by decide, by decide, by decide, by decide, by decide, by decide⟩

end Sys2Proof.Machine
end

section
/-! SUPPORT. The words the sequencer issues, and a reserved word at the datapath (R99, R176, R207). -/

namespace Sys2Proof.Machine

/-- The instruction is one that the datapath can be given: a well-formed micro-op. -/
def Issuable (i : Instr) : Prop := i.wellFormed = true ∧ ∃ u, encode i = .microOp u

theorem Issuable.not_reserved {i : Instr} (h : Issuable i) :
    ∃ u, encode i = .microOp u ∧ ¬ReservedUop (uopFields u) := by
  obtain ⟨hwf, u, hword⟩ := h
  have hdecode : decodeUop u = .ok i := by simpa only [hword, decode] using decodeOfEncodeIsIdentity i hwf
  exact ⟨u, hword, (encode_of_decodeUop hdecode).2.2⟩

theorem unitLoad_issuable (tier : Tier) (ld : Latch) (vector : Bool) (nb : Nbi) :
    Issuable (unitLoad tier ld vector nb) := by
  unfold unitLoad
  split <;> exact ⟨rfl, _, rfl⟩

/-- A comparator orders two different sort registers, wherever it reads. -/
theorem sort_pair_issuable (fmt : Fmt) {j k : Fin 8} (h : j ≠ k) (a b : VReg) :
    Issuable (.vsortp fmt (sortReg j) (sortReg k) a b) := by
  refine ⟨?_, _, rfl⟩
  simp only [Instr.wellFormed, distinctDestinations, bne_iff_ne, ne_eq, sortReg, Fin.mk.injEq]
  omega

theorem comparators_distinct : ∀ ij ∈ sortLayer1 ++ sortLayers2to6, ij.1 ≠ ij.2 := by decide

theorem sortProgram_issuable (fmt : Fmt) : ∀ i ∈ sortProgram fmt, Issuable i := by
  simp only [sortProgram, List.forall_mem_append, List.forall_mem_map]
  exact ⟨fun ij h => sort_pair_issuable fmt (comparators_distinct ij (List.mem_append_left _ h)) _ _,
    fun ij h => sort_pair_issuable fmt (comparators_distinct ij (List.mem_append_right _ h)) _ _⟩

theorem microProgram_issuable (m : Mode) (fmt : Fmt) : ∀ i ∈ microProgram m fmt, Issuable i := by
  have hsort := sortProgram_issuable fmt
  cases m <;> simp only [microProgram, List.forall_mem_append, List.forall_mem_singleton]
  case undef | pass => exact List.forall_mem_nil _
  case mean8 | mean9 => exact ⟨rfl, _, rfl⟩
  all_goals exact ⟨hsort, rfl, _, rfl⟩

theorem unitProgram_issuable (tier : Tier) (ld : Latch) (vector : Bool) :
    ∀ i ∈ unitProgram tier ld vector, Issuable i := by
  simp only [unitProgram, List.forall_mem_append, List.forall_mem_map, List.forall_mem_singleton]
  exact ⟨⟨fun nb _ => unitLoad_issuable tier ld vector nb, microProgram_issuable _ _⟩, rfl, _, rfl⟩

/-! ### A reserved word at the datapath (R99) -/

theorem step_of_rejected_uopWord {s : State} {u : UWord} {r : Reject} (hu : s.uopWord = some u)
    (hr : decodeUop u = .error r) : step s = .fault .reservedUop := by
  simp only [step, turn, hu, runUopWord, hr]

/-- Settles O5. -/
theorem reservedMicroOpFaults : Obligations.ReservedMicroOpFaults := by
  refine ⟨decodeUop_error_iff, fun s u hu hreserved => ?_, fun tier ld vector i hi => ?_⟩
  · obtain ⟨r, hr⟩ := (decodeUop_error_iff u).mpr hreserved
    exact step_of_rejected_uopWord hu hr
  · exact (unitProgram_issuable tier ld vector i hi).not_reserved

end Sys2Proof.Machine
end

section
/-! SUPPORT. TIER is not observable: every operation of the machine commutes with a change of the tier, and the one place
that reads the tier, a unit's choice of loads, makes the same of it in a valid launch (R122, R135, R207). -/

namespace Sys2Proof.Machine

/-- The same machine of a given tier (R10). -/
def State.withTier (tier : Tier) (s : State) : State := { s with params := { s.params with tier := tier } }

/-- An outcome with a function applied to its next state. -/
def onNext (f : State → State) : Outcome State → Outcome State
  | .next t => .next (f t)
  | .fault r => .fault r
  | .refused r => .refused r

@[simp] theorem onNext_next (f : State → State) (t : State) : onNext f (.next t) = .next (f t) := rfl
@[simp] theorem onNext_fault (f : State → State) (r : Fault) : onNext f (.fault r) = .fault r := rfl
@[simp] theorem onNext_refused (f : State → State) (r : Refusal) : onNext f (.refused r) = .refused r := rfl

/-- An operation that does the same on a machine of any other tier. -/
def TierBlind (op : State → Outcome State) (s : State) : Prop :=
  ∀ tier, op (s.withTier tier) = onNext (State.withTier tier) (op s)

/-! ### What is read of the state -/

@[simp] theorem due_withTier (s : State) (tier : Tier) : (s.withTier tier).due = s.due := rfl
@[simp] theorem withTier_regBase (s : State) (tier : Tier) :
    (s.withTier tier).params.regBase = s.params.regBase := rfl
@[simp] theorem withTier_phase (s : State) (tier : Tier) : (s.withTier tier).phase = s.phase := rfl
@[simp] theorem withTier_latch (s : State) (tier : Tier) : (s.withTier tier).latch = s.latch := rfl
@[simp] theorem withTier_cursor (s : State) (tier : Tier) : (s.withTier tier).cursor = s.cursor := rfl
@[simp] theorem withTier_mem (s : State) (tier : Tier) : (s.withTier tier).mem = s.mem := rfl
@[simp] theorem withTier_draws (s : State) (tier : Tier) : (s.withTier tier).draws = s.draws := rfl
@[simp] theorem withTier_uopWord (s : State) (tier : Tier) : (s.withTier tier).uopWord = s.uopWord := rfl

@[simp] theorem touchesRegBlock_withTier (s : State) (tier : Tier) (addr bytes : Nat) :
    touchesRegBlock (s.withTier tier).params addr bytes = touchesRegBlock s.params addr bytes := rfl

@[simp] theorem badRegAccess_withTier (s : State) (tier : Tier) (addr bytes : Nat) :
    badRegAccess (s.withTier tier).params addr bytes = badRegAccess s.params addr bytes := rfl

/-! ### Updates of the state -/

@[simp] theorem respond_withTier (s : State) (tier : Tier) (m : Master) (r : Response) :
    (s.withTier tier).respond m r = (s.respond m r).withTier tier := by cases m <;> rfl

@[simp] theorem takeTurn_withTier (s : State) (tier : Tier) :
    (s.withTier tier).takeTurn = s.takeTurn.withTier tier := rfl

@[simp] theorem endLaunch_withTier (r : ResultCode) (s : State) (tier : Tier) :
    endLaunch r (s.withTier tier) = (endLaunch r s).withTier tier := by
  cases h : s.issuer <;> simp only [endLaunch, State.withTier, State.respond, h]

@[simp] theorem acceptCommand_withTier (m : Mode) (fmt : Fmt) (al : Bool) (s : State) (tier : Tier) :
    acceptCommand m fmt al (s.withTier tier) = (acceptCommand m fmt al s).withTier tier := by
  cases h : s.issuer <;> simp only [acceptCommand, State.withTier, State.respond, h]

@[simp] theorem rejectCommand_withTier (w : Word) (s : State) (tier : Tier) :
    rejectCommand w (s.withTier tier) = (rejectCommand w s).withTier tier := by
  simp only [rejectCommand, withTier_phase]
  cases s.phase with
  | idle => exact endLaunch_withTier .errMode { s with regs := s.regs.write .cmd w } tier
  | busy => rfl

theorem scramble_withTier (s : State) (tier : Tier) (as : List Nat) :
    scramble (s.withTier tier) as = (scramble s as).withTier tier := by
  induction as generalizing s with
  | nil => rfl
  | cons a rest ih => exact ih { s with mem := s.mem.write a (Config.freeByte s.draws), draws := s.draws + 1 }

@[simp] theorem abandonLaunch_withTier (s : State) (tier : Tier) :
    abandonLaunch (s.withTier tier) = (abandonLaunch s).withTier tier := by
  have hscramble := scramble_withTier s tier (writeSet s.latch)
  exact (congrArg (State.respond · s.issuer .aborted) hscramble).trans (respond_withTier ..)

@[simp] theorem resetUnit_withTier (s : State) (tier : Tier) :
    resetUnit (s.withTier tier) = (resetUnit s).withTier tier := by
  simp only [resetUnit, withTier_phase, abandonLaunch_withTier]
  cases s.phase <;> rfl

/-! ### Micro-ops -/

theorem loadTo_tierBlind (d : VReg) (a : Int) (n : Nat) (s : State) : TierBlind (loadTo d a n) s := by
  intro tier
  unfold loadTo
  split <;> rfl

theorem storeTo_tierBlind (a : Int) (n : Nat) (x : Vec) (s : State) : TierBlind (storeTo a n x) s := by
  intro tier
  unfold storeTo
  split <;> rfl

theorem execUop_tierBlind (i : Instr) (s : State) : TierBlind (execUop i) s := by
  intro tier
  cases i with
  | vsortp fmt d e a b =>
    by_cases hde : d = e
    · simp only [execUop, execVsortp, if_pos hde, onNext_fault]
    · simp only [execUop, execVsortp, if_neg hde, onNext_next]; rfl
  | vabsdiff fmt d a b => cases fmt <;> rfl
  | vloadu fmt d nb sc => exact loadTo_tierBlind d _ _ s tier
  | vloada fmt d nb =>
    have hload := loadTo_tierBlind d (loadAddr fmt s.latch s.cursor nb false) vecBytes s tier
    have haddr : loadAddr fmt (s.withTier tier).latch (s.withTier tier).cursor nb false =
      loadAddr fmt s.latch s.cursor nb false := rfl
    simp only [execUop, execVloada, haddr, hload]
    split <;> rfl
  | vstoreu fmt a sc => exact storeTo_tierBlind _ _ _ s tier
  | kmedavg fmt d a b => cases fmt <;> rfl
  | kmean8 fmt d => cases fmt <;> rfl
  | kmean9 fmt d => cases fmt <;> rfl
  | _ => rfl

theorem runUops_tierBlind (is : List Instr) (s : State) : TierBlind (runUops is) s := by
  intro tier
  induction is generalizing s with
  | nil => rfl
  | cons i rest ih =>
    simp only [runUops, execUop_tierBlind i s tier]
    cases execUop i s with
    | next t => exact ih t
    | fault f => rfl
    | refused r => rfl

/-! ### Units (R207) -/

/-- The loads of a unit of a valid launch do the same whichever tier chose them. -/
theorem runUops_unitLoads_tier {s : State} {u : WorkUnit} (hvalid : ValidLaunch s.params s.latch)
    (hu : u ∈ planeUnits s.latch) (hcur : s.cursor = u.cursor) (tier tier' : Tier) (nbs : List Nbi) :
    runUops (nbs.map (unitLoad tier s.latch u.vector)) s = runUops (nbs.map (unitLoad tier' s.latch u.vector)) s := by
  induction nbs generalizing s with
  | nil => rfl
  | cons nb rest ih =>
    refine (runUops_cons_of_next (execUop_unitLoad hvalid hu hcur tier nb)).trans ?_
    refine Eq.trans ?_ (runUops_cons_of_next (execUop_unitLoad hvalid hu hcur tier' nb)).symm
    exact ih (s := s.setVreg (neighbourReg nb) (unitVector s.latch u s.mem nb)) hvalid hu hcur

theorem runUnit_tierBlind {s : State} {u : WorkUnit} (hvalid : ValidLaunch s.params s.latch)
    (hu : u ∈ planeUnits s.latch) : TierBlind (runUnit u) s := by
  intro tier
  have hloads := runUops_unitLoads_tier (s := { s with cursor := u.cursor }) hvalid hu rfl tier s.params.tier
    (List.finRange 9)
  have hprogram : runUops (unitProgram tier s.latch u.vector) { s with cursor := u.cursor } = runUnit u s := by
    simp only [runUnit, unitProgram, List.append_assoc, runUops_append (List.map _ _)]
    exact hloads ▸ rfl
  exact (runUops_tierBlind _ _ tier).trans (congrArg _ hprogram)

/-- A unit keeps the launch it belongs to. -/
theorem runUnit_launch_eq {u : WorkUnit} {s t : State} (h : runUnit u s = .next t) :
    t.params = s.params ∧ t.latch = s.latch := by
  have hframe := (runUnit_keep h).frame
  exact ⟨by rw [hframe], by rw [hframe]⟩

theorem runUnits_tierBlind {us : List WorkUnit} {s : State} (hvalid : ValidLaunch s.params s.latch)
    (hus : ∀ u ∈ us, u ∈ planeUnits s.latch) : TierBlind (runUnits us) s := by
  intro tier
  induction us generalizing s with
  | nil => exact congrArg Host.Outcome.next (endLaunch_withTier .ok s tier)
  | cons u rest ih =>
    simp only [runUnits, due_withTier, takeTurn_withTier]
    cases s.due with
    | some a => rfl
    | none =>
      have hunit := runUnit_tierBlind (s := s.takeTurn) hvalid (hus u List.mem_cons_self) tier
      simp only [hunit]
      cases ht : runUnit u s.takeTurn with
      | next t =>
        obtain ⟨hparams, hlatch⟩ := runUnit_launch_eq ht
        refine ih ?_ ?_
        · rw [hparams, hlatch]; exact hvalid
        · rw [hlatch]; exact fun w hw => hus w (List.mem_cons_of_mem u hw)
      | fault f => rfl
      | refused r => rfl

theorem resumeLaunch_tierBlind {s : State} (hvalid : ValidLaunch s.params s.latch) : TierBlind resumeLaunch s := by
  intro tier
  simp only [resumeLaunch, withTier_latch, withTier_cursor]
  exact runUnits_tierBlind hvalid (fun _ hu => mem_unitsFrom hu) tier

/-! ### Commands (R230) -/

/-- The checks read no tier, and let only valid launches through to the walk. -/
theorem startLaunch_tierBlind (m : Mode) (fmt : Fmt) (s : State) : TierBlind (startLaunch m fmt) s := by
  intro tier
  have hconfig : configError (s.withTier tier).params m fmt = configError s.params m fmt := rfl
  have hfaults : launchFault (s.withTier tier).params s.latch = launchFault s.params s.latch := rfl
  simp only [startLaunch, withTier_latch, endLaunch_withTier, hconfig, hfaults]
  split
  · rfl
  split
  · rfl
  rename_i hgeo
  cases hfault : launchFault s.params s.latch with
  | some f => rfl
  | none =>
    have hvalid := (validLaunch_iff s.params s.latch).mpr ⟨by simpa using hgeo, hfault⟩
    exact runUnits_tierBlind hvalid (fun _ hu => hu) tier

theorem filterPlane_tierBlind (m : Mode) (fmt : Fmt) (al : Bool) (s : State) : TierBlind (filterPlane m fmt al) s := by
  intro tier
  simp only [filterPlane, withTier_phase, acceptCommand_withTier]
  cases s.phase with
  | busy => rfl
  | idle => exact startLaunch_tierBlind m fmt _ tier

theorem exec_tierBlind (i : Instr) (s : State) : TierBlind (exec i) s := by
  intro tier
  have hcommand (m : Mode) (fmt : Fmt) (al : Bool) : exec (Instr.filter m fmt al) (s.withTier tier) =
      onNext (State.withTier tier) (exec (Instr.filter m fmt al) s) := by
    rw [exec_filter, exec_filter, filterPlane_tierBlind m fmt al s tier]
  obtain ⟨m, fmt, al, rfl⟩ | huop := filter_or_exec_eq_execUop i s
  · exact hcommand m fmt al
  obtain ⟨m, fmt, al, rfl⟩ | huop' := filter_or_exec_eq_execUop i (s.withTier tier)
  · exact hcommand m fmt al
  · rw [huop', huop, execUop_tierBlind i s tier]

/-! ### Accesses (R22, R26 to R36, R60, R74) -/

theorem writeCommand_tierBlind (m : Master) (w : Word) (s : State) : TierBlind (writeCommand m w) s := by
  intro tier
  simp only [writeCommand, withTier_phase, respond_withTier]
  split
  · rfl
  split
  · exact exec_tierBlind _ { s with issuer := m } tier
  · exact congrArg Host.Outcome.next (rejectCommand_withTier w { s with issuer := m } tier)

/-- A register other than CMD takes the word whatever the tier. -/
theorem writeRegister_tierBlind (m : Master) (name : RegName) (w : Word) (s : State) :
    TierBlind (writeRegister m name w) s := by
  intro tier
  cases name with
  | cmd => exact writeCommand_tierBlind m w s tier
  | _ => cases m <;> rfl

theorem regWriteAccess_tierBlind (m : Master) (addr bytes : Nat) (w : Word) (s : State) :
    TierBlind (regWriteAccess m addr bytes w) s := by
  intro tier
  have hreg (name : RegName) := writeRegister_tierBlind m name w s tier
  simp only [regWriteAccess, respond_withTier, touchesRegBlock_withTier, badRegAccess_withTier,
    withTier_regBase, hreg]
  split
  · rfl
  split
  · rfl
  split <;> rfl

theorem regReadAccess_tierBlind (m : Master) (addr bytes : Nat) (s : State) :
    TierBlind (regReadAccess m addr bytes) s := by
  intro tier
  have hread (name : RegName) : (s.withTier tier).readReg name = s.readReg name := by cases name <;> rfl
  simp only [regReadAccess, respond_withTier, touchesRegBlock_withTier, badRegAccess_withTier,
    withTier_regBase, hread]
  split
  · rfl
  split
  · rfl
  split <;> rfl

theorem memWriteAccess_tierBlind (m : Master) (a : Addr) (b : Byte) (s : State) :
    TierBlind (memWriteAccess m a b) s := by
  intro tier
  have hbuffers : inLaunchBuffers (s.withTier tier) a = inLaunchBuffers s a := rfl
  have hwrite := respond_withTier { s with mem := s.mem.write a.toNat b } tier m .done
  simp only [memWriteAccess, withTier_phase, hbuffers]
  split
  · exact congrArg _ hwrite
  split
  · rfl
  · exact congrArg _ hwrite

theorem memReadAccess_tierBlind (m : Master) (a : Addr) (s : State) : TierBlind (memReadAccess m a) s := by
  intro tier
  have hdrawn := respond_withTier { s with draws := s.draws + 1 } tier m (.byte (Config.freeByte s.draws))
  simp only [memReadAccess, withTier_phase, withTier_latch, withTier_mem, withTier_draws, respond_withTier]
  split
  · rfl
  split
  · exact congrArg _ hdrawn
  · rfl

theorem access_tierBlind (m : Master) (a : Access) (s : State) : TierBlind (access m a) s := by
  intro tier
  cases a with
  | regWrite addr bytes w => exact regWriteAccess_tierBlind m addr bytes w s tier
  | regRead addr bytes => exact regReadAccess_tierBlind m addr bytes s tier
  | memWrite addr b => exact memWriteAccess_tierBlind m addr b s tier
  | memRead addr => exact memReadAccess_tierBlind m addr s tier
  | reset => exact congrArg Host.Outcome.next (resetUnit_withTier s tier)

/-! ### Steps -/

/-- A step does the same on a machine of any tier when the launch it may go on with is valid. -/
theorem step_tierBlind {s : State} (hvalid : s.phase = .busy → ValidLaunch s.params s.latch) : TierBlind step s := by
  intro tier
  have haccess (m : Master) (a : Access) := access_tierBlind m a s.takeTurn tier
  simp only [step, turn, runUopWord, withTier_uopWord, withTier_phase, due_withTier, takeTurn_withTier, haccess]
  split
  · split
    · exact exec_tierBlind _ { s with uopWord := none } tier
    · rfl
  split
  · rfl
  split
  · exact resumeLaunch_tierBlind (hvalid ‹_›) tier
  · rfl

/-- Settles O27: the next state, in which the parameters are the old ones, is that of the other tier's machine. -/
theorem tierIsNotObservable : Obligations.TierIsNotObservable := by
  intro s tier hinv
  have hstep : step (s.withTier tier) = onNext (State.withTier tier) (step s) :=
    step_tierBlind (fun hbusy => (hinv.busy_valid hbusy).1) tier
  refine ⟨fun t ht => ?_, fun f hf => ?_⟩
  · rw [ht, onNext_next, State.withTier, State.withTier, parametersNeverChange s t ht] at hstep
    exact hstep
  · rw [hf, onNext_fault] at hstep
    exact hstep

end Sys2Proof.Machine
end

section
/-! SUPPORT. The compute primitives of the SIMD unit: what each lane function says, and what its micro-op leaves (R120,
R124 to R130). -/

namespace Sys2Proof.Machine

/-! ### Lane functions (R124 to R130) -/

theorem minLane_eq (fmt : Fmt) (x y : Sample) :
    minLane fmt x y = if (if fmt = .f32 then f32Lt x y else decide (x.toNat < y.toNat)) then x else y := by
  cases fmt <;> simp [minLane, BitVec.lt_def]

theorem maxLane_eq (fmt : Fmt) (x y : Sample) :
    maxLane fmt x y = if (if fmt = .f32 then f32Gt x y else decide (y.toNat < x.toNat)) then x else y := by
  cases fmt <;> simp [maxLane, BitVec.lt_def]

theorem eqLane_eq (fmt : Fmt) (x y : Sample) :
    eqLane fmt x y = if fmt = .f32 then f32Eq x y else decide (x = y) := by
  cases fmt <;> rfl

theorem absDiffLane_toNat {fmt : Fmt} (hfmt : fmt ≠ .f32) (nan x y : Sample) :
    (absDiffLane fmt nan x y).toNat = ((x.toNat : Int) - y.toNat).natAbs := by
  have hdistance : (if y ≤ x then x - y else y - x).toNat = ((x.toNat : Int) - y.toNat).natAbs := by
    split
    case isTrue h =>
      rw [BitVec.toNat_sub_of_le h]
      have := BitVec.le_def.mp h
      omega
    case isFalse h =>
      have h := BitVec.not_le.mp h
      rw [BitVec.toNat_sub_of_le (BitVec.le_of_lt h)]
      have := BitVec.lt_def.mp h
      omega
  cases fmt with
  | u8 => exact hdistance
  | u16 => exact hdistance
  | f32 => exact absurd rfl hfmt

/-! ### Results that fit their lanes -/

theorem narrow_minLane {fmt : Fmt} {x y : Sample} (hx : narrow fmt x = x) (hy : narrow fmt y = y) :
    narrow fmt (minLane fmt x y) = minLane fmt x y := by
  rw [minLane_eq, apply_ite (narrow fmt), hx, hy]

theorem narrow_maxLane {fmt : Fmt} {x y : Sample} (hx : narrow fmt x = x) (hy : narrow fmt y = y) :
    narrow fmt (maxLane fmt x y) = maxLane fmt x y := by
  rw [maxLane_eq, apply_ite (narrow fmt), hx, hy]

/-- The distance of two samples of a format is one; an F32 result always fits. -/
theorem narrow_absDiffLane {fmt : Fmt} {x y : Sample} (hx : x.toNat < 2 ^ fmt.bits) (hy : y.toNat < 2 ^ fmt.bits)
    (nan : Sample) : narrow fmt (absDiffLane fmt nan x y) = absDiffLane fmt nan x y := by
  by_cases hfmt : fmt = .f32
  · subst hfmt
    exact narrow_f32 _
  · refine narrow_of_lt fmt _ ?_
    rw [absDiffLane_toNat hfmt]
    omega

theorem lane_lanes2 {fmt : Fmt} {f : Sample → Sample → Sample} {s : State} {a b : VReg} {i : Nat} (hi : i < fmt.lanes)
    (hf : ∀ {x y}, narrow fmt x = x → narrow fmt y = y → narrow fmt (f x y) = f x y) :
    lane fmt (lanes2 fmt f s a b) i = f (lane fmt (s.vreg a) i) (lane fmt (s.vreg b) i) :=
  (lane_packLanes fmt _ i hi).trans (hf (narrow_lane ..) (narrow_lane ..))

/-! ### Micro-ops that write one register -/

/-- A micro-op whose answer is a write of V[D] completes, with the lanes of the vector written. -/
theorem completes_of_setVreg {o : Outcome State} {fmt : Fmt} {d : VReg} {s : State} {x : Vec} {g : Nat → Sample}
    (ho : o = .next (s.setVreg d x)) (hx : ∀ i, i < fmt.lanes → lane fmt x i = g i) :
    ∃ t, o = .next t ∧ OnlyVreg d s t ∧ ∀ i, i < fmt.lanes → lane fmt (t.vreg d) i = g i :=
  ⟨_, ho, onlyVreg_setVreg d s x, fun i hi => by rw [setVreg_vreg_self, hx i hi]⟩

/-- Settles O44. -/
theorem vminTakesTheLaneMinimum : Obligations.VminTakesTheLaneMinimum := by
  intro fmt d a b s
  refine ⟨hasOp_of_encode rfl rfl, completes_of_setVreg rfl fun i hi => ?_⟩
  rw [lane_lanes2 hi narrow_minLane, minLane_eq]

/-- Settles O45. -/
theorem vmaxTakesTheLaneMaximum : Obligations.VmaxTakesTheLaneMaximum := by
  intro fmt d a b s
  refine ⟨hasOp_of_encode rfl rfl, completes_of_setVreg rfl fun i hi => ?_⟩
  rw [lane_lanes2 hi narrow_maxLane, maxLane_eq]

/-- Settles O47. -/
theorem vclipClampsLanes : Obligations.VclipClampsLanes := by
  intro fmt d a b c s
  refine ⟨hasOp_of_encode rfl rfl, completes_of_setVreg rfl fun i hi => ?_⟩
  have hmax := narrow_maxLane (narrow_lane fmt (s.vreg a) i) (narrow_lane fmt (s.vreg b) i)
  rw [lanes3, lane_packLanes fmt _ i hi, clipLane, narrow_minLane hmax (narrow_lane ..), minLane_eq, maxLane_eq]

/-- Settles O49. -/
theorem vseleqSelectsOnEqualLanes : Obligations.VseleqSelectsOnEqualLanes := by
  intro fmt d a b c f s
  refine ⟨hasOp_of_encode rfl rfl, completes_of_setVreg rfl fun i hi => ?_⟩
  rw [lanes4, lane_packLanes fmt _ i hi, selEqLane, apply_ite (narrow fmt), narrow_lane, narrow_lane, eqLane_eq]

/-- Settles O50. -/
theorem vblendSelectsByTopMaskBit : Obligations.VblendSelectsByTopMaskBit := by
  intro fmt d a b c s
  refine ⟨hasOp_of_encode rfl rfl, completes_of_setVreg rfl fun i hi => ?_⟩
  rw [lanes3, lane_packLanes fmt _ i hi, blendLane, apply_ite (narrow fmt), narrow_lane, narrow_lane, Fmt.bits]

/-! ### vsortp and vabsdiff -/

/-- Settles O46: each destination's vector was computed before either was written. -/
theorem vsortpOrdersLanePairs : Obligations.VsortpOrdersLanePairs := by
  intro fmt d e a b s
  refine ⟨hasOp_of_encode rfl rfl, fun hde => if_pos hde, fun hde => ⟨_, if_neg hde, rfl, fun r hd he => ?_, ?_⟩⟩
  · rw [setVreg_vreg_ne _ _ he, setVreg_vreg_ne _ _ hd]
  · intro i hi x y
    rw [setVreg_vreg_ne _ _ hde, setVreg_vreg_self, setVreg_vreg_self, lane_lanes2 hi narrow_minLane,
      lane_lanes2 hi narrow_maxLane, minLane_eq, maxLane_eq]
    exact ⟨rfl, rfl⟩

/-- A write of V[D] and the draws of an arithmetic micro-op (R17). -/
theorem onlyVregAndDraws_setVreg_afterDraws (fmt : Fmt) (d : VReg) (s : State) (x : Vec) :
    OnlyVregAndDraws fmt d s ((s.setVreg d x).afterDraws fmt) := by
  refine ⟨by cases fmt <;> rfl, fun hfmt => ?_, fun r hr => ?_⟩
  · rw [afterDraws_draws, if_neg hfmt, Nat.add_zero, setVreg_draws]
  · rw [afterDraws_vreg, setVreg_vreg_ne s x hr]

/-- Settles O48: the drawn NaN of an F32 lane is the lane's first draw. -/
theorem vabsdiffTakesLaneDistance : Obligations.VabsdiffTakesLaneDistance := by
  intro fmt d a b s
  refine ⟨hasOp_of_encode rfl rfl, _, rfl, onlyVregAndDraws_setVreg_afterDraws fmt d s _, fun i hi => ?_⟩
  intro x y
  have hfit := narrow_absDiffLane (lane_toNat_lt fmt (s.vreg a) i) (lane_toNat_lt fmt (s.vreg b) i) (s.nanAt i 0)
  rw [afterDraws_vreg, setVreg_vreg_self, lane_packLanes fmt _ i hi, hfit]
  refine ⟨fun hfmt => absDiffLane_toNat hfmt _ _ _, fun hfmt => ?_⟩
  subst hfmt
  exact ⟨s.nanAt i 0, nanAt_isNaN s i 0, rfl⟩

end Sys2Proof.Machine
end

section
/-! SUPPORT. The arithmetic micro-ops of the kernel unit: saturated integer means, and what each micro-op leaves (R170
to R175, R177). -/

namespace Sys2Proof.Machine

/-! ### Saturated means (R177) -/

theorem Fmt.maxv_lt (fmt : Fmt) : fmt.maxv < 2 ^ fmt.bits := Nat.sub_lt (by positivity) Nat.one_pos

theorem toNat_satLane (fmt : Fmt) (n : Nat) : (satLane fmt n).toNat = min n fmt.maxv := by
  have hfit : min n fmt.maxv < 2 ^ 32 :=
    calc min n fmt.maxv ≤ fmt.maxv := min_le_right _ _
      _ < 2 ^ fmt.bits := Fmt.maxv_lt fmt
      _ ≤ 2 ^ 32 := Nat.pow_le_pow_right (by decide) (Fmt.bits_le fmt)
  have hcast : min (max (n : Int) 0) fmt.maxv = (min n fmt.maxv : Nat) := by omega
  rw [satLane, hcast, BitVec.ofInt_natCast, BitVec.toNat_ofNat, Nat.mod_eq_of_lt hfit]

theorem sumLanes_eq (xs : List Sample) : sumLanes xs = (xs.map BitVec.toNat).sum := by
  simp [sumLanes, Nat.cast_list_sum, Function.comp_def]

theorem toNat_satLane_mean (fmt : Fmt) (xs : List Sample) (k n : Nat) :
    (satLane fmt ((sumLanes xs + k) / n)).toNat = min (((xs.map BitVec.toNat).sum + k) / n) fmt.maxv := by
  rw [sumLanes_eq, ← Nat.cast_add, ← Int.natCast_ediv, toNat_satLane]

/-- Rounding up by less than the number of samples keeps their mean in range. -/
theorem mean_le_maxv {fmt : Fmt} {xs : List Sample} (hxs : ∀ x ∈ xs, x.toNat < 2 ^ fmt.bits) {k : Nat}
    (hk : k < xs.length) : ((xs.map BitVec.toNat).sum + k) / xs.length ≤ fmt.maxv := by
  have hsum : (xs.map BitVec.toNat).sum ≤ (xs.map BitVec.toNat).length • fmt.maxv :=
    List.sum_le_card_nsmul _ _ fun n hn => by
      obtain ⟨x, hx, rfl⟩ := List.mem_map.mp hn
      exact Nat.le_sub_one_of_lt (hxs x hx)
  rw [List.length_map, smul_eq_mul] at hsum
  rw [← Nat.lt_succ_iff, Nat.div_lt_iff_lt_mul (by omega), Nat.succ_mul, Nat.mul_comm]
  omega

/-! ### Lane functions (R170 to R173) -/

theorem toNat_mean8Lane {fmt : Fmt} (hfmt : fmt ≠ .f32) (nan : Nat → Sample) (r : Ring) :
    (mean8Lane fmt nan r).toNat = min (((r.list.map BitVec.toNat).sum + 4) / 8) fmt.maxv := by
  cases fmt with
  | u8 => exact toNat_satLane_mean .u8 r.list 4 8
  | u16 => exact toNat_satLane_mean .u16 r.list 4 8
  | f32 => exact absurd rfl hfmt

theorem toNat_mean9Lane {fmt : Fmt} (hfmt : fmt ≠ .f32) (nan : Nat → Sample) (c : Sample) (r : Ring) :
    (mean9Lane fmt nan c r).toNat = min ((((c :: r.list).map BitVec.toNat).sum + 4) / 9) fmt.maxv := by
  cases fmt with
  | u8 => exact toNat_satLane_mean .u8 (c :: r.list) 4 9
  | u16 => exact toNat_satLane_mean .u16 (c :: r.list) 4 9
  | f32 => exact absurd rfl hfmt

theorem toNat_medAvgLane {fmt : Fmt} (hfmt : fmt ≠ .f32) (nan : Nat → Sample) (a b : Sample) :
    (medAvgLane fmt nan a b).toNat = min ((([a, b].map BitVec.toNat).sum + 1) / 2) fmt.maxv := by
  cases fmt with
  | u8 => exact toNat_satLane_mean .u8 [a, b] 1 2
  | u16 => exact toNat_satLane_mean .u16 [a, b] 1 2
  | f32 => exact absurd rfl hfmt

/-- A result cut off at MAXV fits its lane; an F32 result always does. -/
theorem narrow_of_saturated {fmt : Fmt} {x : Sample} (h : fmt ≠ .f32 → ∃ n, x.toNat = min n fmt.maxv) :
    narrow fmt x = x := by
  by_cases hfmt : fmt = .f32
  · subst hfmt
    exact narrow_f32 x
  · obtain ⟨n, hn⟩ := h hfmt
    exact narrow_of_lt fmt x (hn ▸ lt_of_le_of_lt (min_le_right n fmt.maxv) (Fmt.maxv_lt fmt))

theorem narrow_mean8Lane (fmt : Fmt) (nan : Nat → Sample) (r : Ring) :
    narrow fmt (mean8Lane fmt nan r) = mean8Lane fmt nan r :=
  narrow_of_saturated fun hfmt => ⟨_, toNat_mean8Lane hfmt nan r⟩

theorem narrow_mean9Lane (fmt : Fmt) (nan : Nat → Sample) (c : Sample) (r : Ring) :
    narrow fmt (mean9Lane fmt nan c r) = mean9Lane fmt nan c r :=
  narrow_of_saturated fun hfmt => ⟨_, toNat_mean9Lane hfmt nan c r⟩

theorem narrow_medAvgLane (fmt : Fmt) (nan : Nat → Sample) (a b : Sample) :
    narrow fmt (medAvgLane fmt nan a b) = medAvgLane fmt nan a b :=
  narrow_of_saturated fun hfmt => ⟨_, toNat_medAvgLane hfmt nan a b⟩

/-! ### Micro-ops (R173 to R175) -/

/-- An arithmetic micro-op completes: it writes lanes that fit to V[D] and uses its draws. -/
theorem completes_of_setVreg_afterDraws {o : Outcome State} {fmt : Fmt} {d : VReg} {s : State} {g : Nat → Sample}
    (ho : o = .next ((s.setVreg d (packLanes fmt g)).afterDraws fmt)) (hg : ∀ i, narrow fmt (g i) = g i) :
    ∃ t, o = .next t ∧ OnlyVregAndDraws fmt d s t ∧ ∀ i, i < fmt.lanes → lane fmt (t.vreg d) i = g i := by
  refine ⟨_, ho, onlyVregAndDraws_setVreg_afterDraws fmt d s _, fun i hi => ?_⟩
  rw [afterDraws_vreg, setVreg_vreg_self, lane_packLanes fmt g i hi, hg]

theorem execKmedavg_completes (fmt : Fmt) (d a b : VReg) (s : State) :
    ∃ t, execKmedavg fmt d a b s = .next t ∧ OnlyVregAndDraws fmt d s t ∧ ∀ i, i < fmt.lanes →
      lane fmt (t.vreg d) i = medAvgLane fmt (s.nanAt i) (lane fmt (s.vreg a) i) (lane fmt (s.vreg b) i) :=
  completes_of_setVreg_afterDraws rfl fun _ => narrow_medAvgLane ..

theorem execKmean8_completes (fmt : Fmt) (d : VReg) (s : State) :
    ∃ t, execKmean8 fmt d s = .next t ∧ OnlyVregAndDraws fmt d s t ∧ ∀ i, i < fmt.lanes →
      lane fmt (t.vreg d) i = mean8Lane fmt (s.nanAt i) (ringLanes fmt s i) :=
  completes_of_setVreg_afterDraws rfl fun _ => narrow_mean8Lane ..

theorem execKmean9_completes (fmt : Fmt) (d : VReg) (s : State) :
    ∃ t, execKmean9 fmt d s = .next t ∧ OnlyVregAndDraws fmt d s t ∧ ∀ i, i < fmt.lanes →
      lane fmt (t.vreg d) i = mean9Lane fmt (s.nanAt i) (lane fmt (s.vreg 0) i) (ringLanes fmt s i) :=
  completes_of_setVreg_afterDraws rfl fun _ => narrow_mean9Lane ..

/-- Settles O54. -/
theorem kmedavgAveragesLanes : Obligations.KmedavgAveragesLanes := by
  intro fmt d a b s
  obtain ⟨t, ht, hframe, hlanes⟩ := execKmedavg_completes fmt d a b s
  refine ⟨hasOp_of_encode rfl rfl, t, ht, hframe, fun i hi => ⟨fun hfmt => ?_, fun hfmt => ?_⟩⟩
  · rw [hlanes i hi, toNat_medAvgLane hfmt, Fmt.maxv]
    simp
  · subst hfmt
    exact ⟨s.nanAt i, nanAt_isNaN s i, hlanes i hi⟩

/-- Settles O55. -/
theorem kmean8AveragesNeighbours : Obligations.Kmean8AveragesNeighbours := by
  intro fmt d s
  obtain ⟨t, ht, hframe, hlanes⟩ := execKmean8_completes fmt d s
  refine ⟨hasOp_of_encode rfl rfl, t, ht, hframe, fun i hi => ⟨fun hfmt => ?_, fun hfmt => ?_⟩⟩
  · rw [hlanes i hi, toNat_mean8Lane hfmt, Fmt.maxv]
    simp [Ring.list, ringLanes, Nat.add_assoc]
  · subst hfmt
    exact ⟨s.nanAt i, nanAt_isNaN s i, hlanes i hi⟩

/-- Settles O56. -/
theorem kmean9AveragesNeighbourhood : Obligations.Kmean9AveragesNeighbourhood := by
  intro fmt d s
  obtain ⟨t, ht, hframe, hlanes⟩ := execKmean9_completes fmt d s
  refine ⟨hasOp_of_encode rfl rfl, t, ht, hframe, fun i hi => ⟨fun hfmt => ?_, fun hfmt => ?_⟩⟩
  · rw [hlanes i hi, toNat_mean9Lane hfmt, Fmt.maxv]
    simp [Ring.list, ringLanes, Nat.add_assoc]
  · subst hfmt
    exact ⟨s.nanAt i, nanAt_isNaN s i, hlanes i hi⟩

end Sys2Proof.Machine
end

section
/-! SUPPORT. The sorting network over any minimum and maximum, and what the kernels make of their nine samples (R162 to
R172, R177 to R181). -/

namespace Sys2Proof.Machine

/-! ### Comparators (R162) -/

section Network
variable {α β : Type} {mn mx : α → α → α} {mn' mx' : β → β → β}

theorem getElem_comparator (t : Vector α 8) (ij : Fin 8 × Fin 8) (k : Fin 8) :
    (comparator mn mx t ij)[k] =
      if k = ij.2 then mx t[ij.1] t[ij.2] else if k = ij.1 then mn t[ij.1] t[ij.2] else t[k] := by
  simp only [comparator, Fin.getElem_fin, Vector.getElem_set, Fin.ext_iff, eq_comm (a := k.val)]

/-- A map that takes one minimum and maximum to another takes the network over the one to that over the other. -/
theorem map_sortNetwork {f : α → β} (hmn : ∀ x y, f (mn x y) = mn' (f x) (f y))
    (hmx : ∀ x y, f (mx x y) = mx' (f x) (f y)) (t : Vector α 8) :
    (sortNetwork mn mx t).map f = sortNetwork mn' mx' (t.map f) := by
  refine (List.foldl_hom (Vector.map f) fun u ij => ?_).symm
  simp [comparator, Vector.map_set, hmn, hmx]

theorem getElem_map_sortNetwork {f : α → β} (hmn : ∀ x y, f (mn x y) = mn' (f x) (f y))
    (hmx : ∀ x y, f (mx x y) = mx' (f x) (f y)) (t : Vector α 8) (k : Fin 8) :
    f (sortNetwork mn mx t)[k] = (sortNetwork mn' mx' (t.map f))[k] := by
  rw [← map_sortNetwork hmn hmx, Fin.getElem_fin, Fin.getElem_fin, Vector.getElem_map]

/-- What a minimum and a maximum keep of their operands, the network keeps of its inputs. -/
theorem forall_sortNetwork {P : α → Prop} (hmn : ∀ x y, P x → P y → P (mn x y))
    (hmx : ∀ x y, P x → P y → P (mx x y)) {t : Vector α 8} (ht : ∀ k : Fin 8, P t[k]) (k : Fin 8) :
    P (sortNetwork mn mx t)[k] := by
  refine List.foldlRecOn (motive := fun u => ∀ k : Fin 8, P u[k]) _ _ ht (fun u hu ij _ k => ?_) k
  rw [getElem_comparator]
  split_ifs
  · exact hmx _ _ (hu _) (hu _)
  · exact hmn _ _ (hu _) (hu _)
  · exact hu k

/-- A comparator that gives its two inputs in some order leaves them or swaps them, so the network permutes. -/
theorem sortNetwork_perm (horder : ∀ x y, mn x y = x ∧ mx x y = y ∨ mn x y = y ∧ mx x y = x) (t : Vector α 8) :
    (sortNetwork mn mx t).toList.Perm t.toList := by
  rw [← Vector.perm_iff_toList_perm]
  refine List.foldlRecOn (motive := fun u : Vector α 8 => u.Perm t) _ _ (.refl t) fun u hu ij _ => .trans ?_ hu
  obtain ⟨hmn, hmx⟩ | ⟨hmn, hmx⟩ := horder u[ij.1] u[ij.2]
  · have hsame : comparator mn mx u ij = u := by
      rw [comparator, hmn, hmx]
      simp
    rw [hsame]
  · have hswap : comparator mn mx u ij = u.swap ij.1 ij.2 := by
      rw [comparator, hmn, hmx]
      rfl
    rw [hswap]
    exact Vector.swap_perm ..

end Network

/-! ### The network sorts (R162) -/

/-- Bit n of table k is bit k of n, so that bit n of the eight tables runs through all vectors of eight bits, and one
run of the network over the tables is its run on every such vector. -/
def truthTables : Vector (BitVec 256) 8 := Vector.ofFn fun k => BitVec.ofFnLE fun n => n.val.testBit k

theorem truthTables_sorted : ∀ i j : Fin 8, i ≤ j →
    (sortNetwork (· &&& ·) (· ||| ·) truthTables)[i] &&& (sortNetwork (· &&& ·) (· ||| ·) truthTables)[j] =
      (sortNetwork (· &&& ·) (· ||| ·) truthTables)[i] := by
  decide +kernel

theorem map_truthTables (t : Vector Bool 8) : truthTables.map (·.getLsbD (Nat.ofBits fun k => t[k])) = t := by
  have hlt : Nat.ofBits (fun k : Fin 8 => t[k]) < 256 := Nat.ofBits_lt_two_pow _
  ext k hk
  simp only [truthTables, Vector.getElem_map, Vector.getElem_ofFn, BitVec.getLsbD_ofFnLE, dif_pos hlt]
  exact Nat.testBit_ofBits_lt _ k hk

theorem sortNetwork_bits_sorted (t : Vector Bool 8) {i j : Fin 8} (hij : i ≤ j)
    (hi : (sortNetwork and or t)[i] = true) : (sortNetwork and or t)[j] = true := by
  have hbit (k : Fin 8) := getElem_map_sortNetwork (mn' := and) (mx' := or)
    (f := fun x : BitVec 256 => x.getLsbD (Nat.ofBits fun k : Fin 8 => t[k]))
    (fun _ _ => BitVec.getLsbD_and) (fun _ _ => BitVec.getLsbD_or) truthTables k
  rw [map_truthTables] at hbit
  rw [← hbit] at hi ⊢
  rw [← truthTables_sorted i j hij, BitVec.getLsbD_and, Bool.and_eq_true] at hi
  exact hi.2

/-- The zero-one principle: an output above a later one would show in the bits that say which samples reach it. -/
theorem sortNetwork_sorted {α : Type} [LinearOrder α] (t : Vector α 8) {i j : Fin 8} (hij : i ≤ j) :
    (sortNetwork min max t)[i] ≤ (sortNetwork min max t)[j] := by
  have hreach (k : Fin 8) := getElem_map_sortNetwork (mn := min) (mx := max) (mn' := and) (mx' := or)
    (f := fun x => decide ((sortNetwork min max t)[i] ≤ x)) (fun x y => by simp) (fun x y => by simp) t k
  have hj := sortNetwork_bits_sorted _ hij ((hreach i).symm.trans (decide_eq_true le_rfl))
  exact of_decide_eq_true ((hreach j).trans hj)

/-! ### Minimum, maximum and clip of a lane (R124, R125, R127) -/

theorem toNat_minLane {fmt : Fmt} (hfmt : fmt ≠ .f32) (x y : Sample) :
    (minLane fmt x y).toNat = min x.toNat y.toNat := by
  simp only [minLane_eq, if_neg hfmt, decide_eq_true_eq]
  split <;> omega

theorem toNat_maxLane {fmt : Fmt} (hfmt : fmt ≠ .f32) (x y : Sample) :
    (maxLane fmt x y).toNat = max x.toNat y.toNat := by
  simp only [maxLane_eq, if_neg hfmt, decide_eq_true_eq]
  split <;> omega

theorem toNat_clipLane {fmt : Fmt} (hfmt : fmt ≠ .f32) (v lo hi : Sample) :
    (clipLane fmt v lo hi).toNat = min (max v.toNat lo.toNat) hi.toNat := by
  rw [clipLane, toNat_minLane hfmt, toNat_maxLane hfmt]

theorem minLane_eq_or (fmt : Fmt) (x y : Sample) : minLane fmt x y = x ∨ minLane fmt x y = y := by
  rw [minLane_eq]
  exact ite_eq_or_eq _ x y

theorem maxLane_eq_or (fmt : Fmt) (x y : Sample) : maxLane fmt x y = x ∨ maxLane fmt x y = y := by
  rw [maxLane_eq]
  exact ite_eq_or_eq _ x y

theorem clipLane_eq_or (fmt : Fmt) (v lo hi : Sample) :
    clipLane fmt v lo hi = v ∨ clipLane fmt v lo hi = lo ∨ clipLane fmt v lo hi = hi := by
  rw [clipLane]
  obtain h | h := minLane_eq_or fmt (maxLane fmt v lo) hi
  · rw [h, ← or_assoc]
    exact .inl (maxLane_eq_or fmt v lo)
  · exact .inr (.inr h)

/-- The strict order that the lane minimum and maximum compare by. -/
def ltLane (fmt : Fmt) (x y : Sample) : Bool := if fmt = .f32 then f32Lt x y else decide (x.toNat < y.toNat)

theorem minLane_eq_ltLane (fmt : Fmt) (x y : Sample) : minLane fmt x y = if ltLane fmt x y then x else y :=
  minLane_eq fmt x y

theorem maxLane_eq_ltLane (fmt : Fmt) (x y : Sample) : maxLane fmt x y = if ltLane fmt y x then x else y :=
  maxLane_eq fmt x y

/-- Maximum and minimum make one and the same comparison, so a clip leaves its own result, unordered bounds included. -/
theorem clipLane_idem (fmt : Fmt) (v lo hi : Sample) :
    clipLane fmt (clipLane fmt v lo hi) lo hi = clipLane fmt v lo hi := by
  by_cases hlo : ltLane fmt lo v
  · by_cases hhi : ltLane fmt v hi
    · simp [clipLane, minLane_eq_ltLane, maxLane_eq_ltLane, hlo, hhi]
    · by_cases hb : ltLane fmt lo hi <;> simp [clipLane, minLane_eq_ltLane, maxLane_eq_ltLane, hlo, hhi, hb]
  · by_cases hb : ltLane fmt lo hi <;> simp [clipLane, minLane_eq_ltLane, maxLane_eq_ltLane, hlo, hb]

/-! ### SORT8 (R162, R163) -/

theorem toNat_sort8 {fmt : Fmt} (hfmt : fmt ≠ .f32) (r : Ring) (k : Fin 8) :
    (sort8 fmt r)[k].toNat = (sortNetwork min max (r.vector.map BitVec.toNat))[k] :=
  getElem_map_sortNetwork (toNat_minLane hfmt) (toNat_maxLane hfmt) r.vector k

theorem sort8_sorted {fmt : Fmt} (hfmt : fmt ≠ .f32) (r : Ring) :
    (sort8 fmt r).toList.Pairwise fun x y => x.toNat ≤ y.toNat := by
  rw [List.pairwise_iff_getElem]
  intro i j hi hj hij
  rw [Vector.length_toList] at hi hj
  have hle := sortNetwork_sorted (r.vector.map BitVec.toNat) (i := ⟨i, hi⟩) (j := ⟨j, hj⟩) hij.le
  rw [← toNat_sort8 hfmt, ← toNat_sort8 hfmt] at hle
  rwa [Vector.getElem_toList, Vector.getElem_toList]

theorem sort8_perm {fmt : Fmt} (hfmt : fmt ≠ .f32) (r : Ring) : (sort8 fmt r).toList.Perm r.list := by
  refine sortNetwork_perm (fun x y => ?_) r.vector
  simp only [minLane_eq, maxLane_eq, if_neg hfmt, decide_eq_true_eq]
  obtain h | h | h := Nat.lt_trichotomy x.toNat y.toNat
  · simp [h, h.not_gt]
  · simp [BitVec.eq_of_toNat_eq h]
  · simp [h, h.not_gt]

/-- Every output of SORT8 is one of the neighbours, bit for bit, in every format. -/
theorem sort8_mem (fmt : Fmt) (r : Ring) (k : Fin 8) : (sort8 fmt r)[k] ∈ r.list := by
  refine forall_sortNetwork (fun x y hx hy => ?_) (fun x y hx hy => ?_) (fun k => ?_) k
  · obtain h | h := minLane_eq_or fmt x y <;> rwa [h]
  · obtain h | h := maxLane_eq_or fmt x y <;> rwa [h]
  · exact Vector.mem_toList_iff.mpr (Vector.getElem_mem k.isLt)

/-- Settles O34. -/
theorem sortNetworkSortsIntegers : Obligations.SortNetworkSortsIntegers :=
  fun _ r hfmt => ⟨sort8_sorted hfmt r, sort8_perm hfmt r⟩

/-- One multiset of samples has one ascending order. -/
theorem sort8_eq_of_perm {fmt : Fmt} (hfmt : fmt ≠ .f32) {r q : Ring} (h : r.list.Perm q.list) :
    sort8 fmt r = sort8 fmt q := by
  refine Vector.toList_inj.mp (List.Perm.eq_of_pairwise (fun x y _ _ hxy hyx => ?_) (sort8_sorted hfmt r)
    (sort8_sorted hfmt q) (((sort8_perm hfmt r).trans h).trans (sort8_perm hfmt q).symm))
  exact BitVec.eq_of_toNat_eq (Nat.le_antisymm hxy hyx)

/-! ### The kernels (R164 to R172, R179 to R181) -/

theorem kernel_mean8 (fmt : Fmt) (nan : Nat → Sample) (c : Sample) (r : Ring) :
    kernel .mean8 fmt nan c r = mean8Lane fmt nan r := rfl

theorem kernel_mean9 (fmt : Fmt) (nan : Nat → Sample) (c : Sample) (r : Ring) :
    kernel .mean9 fmt nan c r = mean9Lane fmt nan c r := rfl

theorem kernel_median8 (fmt : Fmt) (nan : Nat → Sample) (c : Sample) (r : Ring) :
    kernel .median8 fmt nan c r = medAvgLane fmt nan (sort8 fmt r)[3] (sort8 fmt r)[4] := rfl

/-- Modes 1 to 4 clip the sample to two ranks of its neighbours (R165 to R169). -/
theorem kernel_clamp {m : Mode} (hm : m ∈ [Mode.clamp1, .clamp2, .clamp3, .clamp4]) :
    ∃ a b : Fin 8, ∀ fmt nan c r, kernel m fmt nan c r = clipLane fmt c (sort8 fmt r)[a] (sort8 fmt r)[b] := by
  simp only [List.mem_cons, List.not_mem_nil, or_false] at hm
  obtain rfl | rfl | rfl | rfl := hm
  · exact ⟨0, 7, fun _ _ _ _ => rfl⟩
  · exact ⟨1, 6, fun _ _ _ _ => rfl⟩
  · exact ⟨2, 5, fun _ _ _ _ => rfl⟩
  · exact ⟨3, 4, fun _ _ _ _ => rfl⟩

/-- Settles O36. -/
theorem clampOutputsAreInputs : Obligations.ClampOutputsAreInputs := by
  intro m fmt nan nan' c r hm
  obtain rfl | rfl | hclamp : m = .undef ∨ m = .pass ∨ m ∈ [Mode.clamp1, .clamp2, .clamp3, .clamp4] := by
    simpa only [List.mem_cons] using hm
  · exact ⟨List.mem_cons_self, rfl⟩
  · exact ⟨List.mem_cons_self, rfl⟩
  · obtain ⟨a, b, hkernel⟩ := kernel_clamp hclamp
    rw [hkernel, hkernel, List.mem_cons]
    refine ⟨?_, rfl⟩
    refine (clipLane_eq_or fmt c (sort8 fmt r)[a] (sort8 fmt r)[b]).imp_right ?_
    rintro (h | h)
    · rw [h]
      exact sort8_mem fmt r a
    · rw [h]
      exact sort8_mem fmt r b

/-- Settles O37. -/
theorem clampIsIdempotent : Obligations.ClampIsIdempotent := by
  intro m fmt nan c r hm
  obtain ⟨a, b, hkernel⟩ := kernel_clamp hm
  rw [hkernel, hkernel, clipLane_idem]

/-- Settles O35. -/
theorem integerKernelsIgnoreNeighbourOrder : Obligations.IntegerKernelsIgnoreNeighbourOrder := by
  intro m fmt nan c r q hfmt h
  have hsort := sort8_eq_of_perm hfmt h
  cases m with
  | undef => rfl
  | pass => rfl
  | mean8 =>
    refine BitVec.eq_of_toNat_eq ?_
    rw [kernel_mean8, kernel_mean8, toNat_mean8Lane hfmt, toNat_mean8Lane hfmt, (h.map _).sum_eq]
  | mean9 =>
    refine BitVec.eq_of_toNat_eq ?_
    rw [kernel_mean9, kernel_mean9, toNat_mean9Lane hfmt, toNat_mean9Lane hfmt, ((h.cons c).map _).sum_eq]
  | clamp1 | clamp2 | clamp3 | clamp4 | median8 => simp only [kernel, hsort]

/-! ### The median of nine (R169) -/

/-- After one more element the entry past rank k is the new one, kept between ranks k and k + 1. -/
theorem getElem_orderedInsert_succ (c : Nat) {xs : List Nat} (hxs : xs.Pairwise (· ≤ ·)) {k : Nat}
    (hk : k + 1 < xs.length) :
    (xs.orderedInsert (· ≤ ·) c)[k + 1]? = some (min (max c xs[k]) xs[k + 1]) := by
  induction xs generalizing k with
  | nil => cases hk
  | cons x rest ih =>
    have hstep : (x :: rest)[k] ≤ (x :: rest)[k + 1] :=
      List.pairwise_iff_getElem.mp hxs k (k + 1) _ hk k.lt_succ_self
    rw [List.orderedInsert_cons]
    by_cases hcx : c ≤ x
    · have hck : c ≤ (x :: rest)[k] := hcx.trans (hxs.rel_head (List.getElem_mem _))
      rw [if_pos hcx, List.getElem?_cons_succ, List.getElem?_eq_getElem (by omega), max_eq_right hck,
        min_eq_left hstep]
    · rw [if_neg hcx, List.getElem?_cons_succ]
      cases k with
      | zero =>
        obtain ⟨y, rest, rfl⟩ := List.exists_cons_of_length_pos (Nat.lt_of_succ_lt_succ hk)
        rw [List.orderedInsert_cons]
        split <;> simp <;> omega
      | succ k => exact ih (List.pairwise_cons.mp hxs).2 (Nat.lt_of_succ_lt_succ hk)

/-- Settles O38. -/
theorem clamp4IsTheMedianOfNine : Obligations.Clamp4IsTheMedianOfNine := by
  intro fmt nan c r hfmt
  have hsorted : ((sort8 fmt r).toList.map BitVec.toNat).Pairwise (· ≤ ·) :=
    List.pairwise_map.mpr (sort8_sorted hfmt r)
  have hmerge : ((c :: r.list).map BitVec.toNat).mergeSort =
      ((sort8 fmt r).toList.map BitVec.toNat).orderedInsert (· ≤ ·) c.toNat := by
    have hring : ((c :: r.list).map BitVec.toNat).Perm (c.toNat :: (sort8 fmt r).toList.map BitVec.toNat) :=
      ((sort8_perm hfmt r).symm.map _).cons _
    exact (((List.mergeSort_perm _ _).trans hring).trans (List.perm_orderedInsert ..).symm).eq_of_pairwise'
      (List.pairwise_mergeSort' _ _) (hsorted.orderedInsert _ _)
  rw [hmerge, getElem_orderedInsert_succ _ hsorted (by simp), kernel, toNat_clipLane hfmt]
  simp

/-! ### Ranges of the kernels (R177) -/

/-- Settles O39. -/
theorem integerMeansNeverSaturate : Obligations.IntegerMeansNeverSaturate := by
  intro fmt nan c r hfmt hrange
  have hring : ∀ a ∈ r.list, a.toNat < 2 ^ fmt.bits := fun a ha => hrange a (List.mem_cons_of_mem c ha)
  have hranks : ∀ a ∈ [(sort8 fmt r)[3], (sort8 fmt r)[4]], a.toNat < 2 ^ fmt.bits := by
    simpa using ⟨hring _ (sort8_mem fmt r 3), hring _ (sort8_mem fmt r 4)⟩
  refine ⟨?_, ?_, ?_, fun m => ?_⟩
  · rw [kernel_mean8, toNat_mean8Lane hfmt]
    exact min_eq_left (mean_le_maxv hring (k := 4) (show 4 < 8 by decide))
  · rw [kernel_mean9, toNat_mean9Lane hfmt]
    exact min_eq_left (mean_le_maxv hrange (k := 4) (show 4 < 9 by decide))
  · rw [kernel_median8, toNat_medAvgLane hfmt]
    have := min_eq_left (mean_le_maxv hranks (k := 1) (show 1 < 2 by decide))
    simpa using this
  · cases m with
    | undef | pass => exact hrange c List.mem_cons_self
    | clamp1 | clamp2 | clamp3 | clamp4 => exact hrange _ (clampOutputsAreInputs _ fmt nan nan c r (by decide)).1
    | mean8 =>
      rw [kernel_mean8, ← narrow_mean8Lane]
      exact narrow_toNat_lt fmt _
    | mean9 =>
      rw [kernel_mean9, ← narrow_mean9Lane]
      exact narrow_toNat_lt fmt _
    | median8 =>
      rw [kernel_median8, ← narrow_medAvgLane]
      exact narrow_toNat_lt fmt _

end Sys2Proof.Machine
end

section
/-! SUPPORT. Each micro-program computes its mode's kernel: SORT is the network run in every lane, and the last micro-op
is the kernel's last operation (R162, R176). -/

namespace Sys2Proof.Machine

/-! ### SORT in every lane (R176) -/

/-- Where entry k of the network stands once the entries `moved` have been through a comparator: layer 1 takes them from
the neighbour registers to the sort registers. -/
def sortLoc (moved : List (Fin 8)) (k : Fin 8) : VReg := if k ∈ moved then sortReg k else ringReg k

def movedBy (moved : List (Fin 8)) (ij : Fin 8 × Fin 8) : List (Fin 8) := ij.1 :: ij.2 :: moved

/-- The comparators as micro-ops, each reading its entries where they stand. -/
def sortSteps (fmt : Fmt) (moved : List (Fin 8)) : List (Fin 8 × Fin 8) → List Instr
  | [] => []
  | ij :: rest =>
    .vsortp fmt (sortReg ij.1) (sortReg ij.2) (sortLoc moved ij.1) (sortLoc moved ij.2) ::
      sortSteps fmt (movedBy moved ij) rest

theorem sortProgram_eq_sortSteps (fmt : Fmt) : sortProgram fmt = sortSteps fmt [] (sortLayer1 ++ sortLayers2to6) := rfl

theorem sortLoc_after_sort (k : Fin 8) : sortLoc ((sortLayer1 ++ sortLayers2to6).foldl movedBy []) k = sortReg k := by
  revert k
  decide

theorem sortLoc_movedBy_fst (moved : List (Fin 8)) (ij : Fin 8 × Fin 8) :
    sortLoc (movedBy moved ij) ij.1 = sortReg ij.1 := if_pos List.mem_cons_self

theorem sortLoc_movedBy_snd (moved : List (Fin 8)) (ij : Fin 8 × Fin 8) :
    sortLoc (movedBy moved ij) ij.2 = sortReg ij.2 := if_pos (List.mem_cons_of_mem _ List.mem_cons_self)

theorem sortLoc_movedBy_of_ne {moved : List (Fin 8)} {ij : Fin 8 × Fin 8} {k : Fin 8} (h1 : k ≠ ij.1)
    (h2 : k ≠ ij.2) : sortLoc (movedBy moved ij) k = sortLoc moved k := by
  simp [sortLoc, movedBy, h1, h2]

theorem sortReg_inj {j k : Fin 8} : sortReg j = sortReg k ↔ j = k := by
  simp [sortReg, Fin.ext_iff]

theorem sortLoc_ne_sortReg {moved : List (Fin 8)} {j k : Fin 8} (h : k ≠ j) : sortLoc moved k ≠ sortReg j := by
  unfold sortLoc
  split
  · exact fun hreg => h (sortReg_inj.mp hreg)
  · simp only [ringReg, sortReg, ne_eq, Fin.mk.injEq]
    omega

/-- A state on the way through SORT: only sort registers differ from its start, and every lane holds the network's
entries. -/
structure Sorting (fmt : Fmt) (moved : List (Fin 8)) (net : Nat → Vector Sample 8) (s t : State) : Prop where
  frame : t = { s with v := t.v }
  keep : ∀ r : VReg, r.val < 16 ∨ 24 ≤ r.val → t.vreg r = s.vreg r
  lanes : ∀ i, i < fmt.lanes → ∀ k : Fin 8, lane fmt (t.vreg (sortLoc moved k)) i = (net i)[k]

theorem Sorting.start (fmt : Fmt) (s : State) : Sorting fmt [] (fun i => (ringLanes fmt s i).vector) s s where
  frame := rfl
  keep _ _ := rfl
  lanes i _ k := by
    fin_cases k <;> rfl

/-- One vsortp is one comparator in every lane. -/
theorem Sorting.vsortp {fmt : Fmt} {moved : List (Fin 8)} {net : Nat → Vector Sample 8} {s t : State}
    (h : Sorting fmt moved net s t) {ij : Fin 8 × Fin 8} (hij : ij.1 ≠ ij.2) :
    ∃ u, execUop (.vsortp fmt (sortReg ij.1) (sortReg ij.2) (sortLoc moved ij.1) (sortLoc moved ij.2)) t = .next u ∧
      Sorting fmt (movedBy moved ij) (fun i => comparator (minLane fmt) (maxLane fmt) (net i) ij) s u := by
  have hreg : sortReg ij.1 ≠ sortReg ij.2 := mt sortReg_inj.mp hij
  refine ⟨_, if_neg hreg, ?_, fun r hr => ?_, fun i hi k => ?_⟩
  · rw [h.frame]
    rfl
  · have hne (j : Fin 8) : r ≠ sortReg j := by
      simp only [sortReg, ne_eq, Fin.ext_iff]
      omega
    rw [setVreg_vreg_ne _ _ (hne _), setVreg_vreg_ne _ _ (hne _), h.keep r hr]
  · rw [getElem_comparator]
    split_ifs with h2 h1
    · rw [h2, sortLoc_movedBy_snd, setVreg_vreg_self, lane_lanes2 hi narrow_maxLane, h.lanes i hi,
        h.lanes i hi]
    · rw [h1, sortLoc_movedBy_fst, setVreg_vreg_ne _ _ hreg, setVreg_vreg_self,
        lane_lanes2 hi narrow_minLane, h.lanes i hi, h.lanes i hi]
    · rw [sortLoc_movedBy_of_ne h1 h2, setVreg_vreg_ne _ _ (sortLoc_ne_sortReg h2),
        setVreg_vreg_ne _ _ (sortLoc_ne_sortReg h1), h.lanes i hi]

theorem Sorting.sortSteps {fmt : Fmt} {ijs : List (Fin 8 × Fin 8)} (hijs : ∀ ij ∈ ijs, ij.1 ≠ ij.2)
    {moved : List (Fin 8)} {net : Nat → Vector Sample 8} {s t : State} (h : Sorting fmt moved net s t) :
    ∃ u, runUops (sortSteps fmt moved ijs) t = .next u ∧
      Sorting fmt (ijs.foldl movedBy moved) (fun i => ijs.foldl (comparator (minLane fmt) (maxLane fmt)) (net i))
        s u := by
  induction ijs generalizing moved net t with
  | nil => exact ⟨t, rfl, h⟩
  | cons ij rest ih =>
    obtain ⟨u, hu, hsort⟩ := h.vsortp (hijs ij List.mem_cons_self)
    obtain ⟨w, hw, hrest⟩ := ih (fun kl hkl => hijs kl (List.mem_cons_of_mem ij hkl)) hsort
    exact ⟨w, (runUops_cons_of_next hu).trans hw, hrest⟩

/-- After SORT the sort registers hold SORT8 of V[1..8] in every lane, and V[0..15] and V[24..31] are as before. -/
theorem runUops_sortProgram (fmt : Fmt) (s : State) :
    ∃ t, runUops (sortProgram fmt) s = .next t ∧ t = { s with v := t.v } ∧
      (∀ r : VReg, r.val < 16 ∨ 24 ≤ r.val → t.vreg r = s.vreg r) ∧
      ∀ i, i < fmt.lanes → ∀ k : Fin 8, lane fmt (t.vreg (sortReg k)) i = (sort8 fmt (ringLanes fmt s i))[k] := by
  obtain ⟨t, ht, hframe, hkeep, hlanes⟩ := (Sorting.start fmt s).sortSteps comparators_distinct
  refine ⟨t, ht, hframe, hkeep, fun i hi k => ?_⟩
  rw [← sortLoc_after_sort k, hlanes i hi k]
  rfl

/-! ### Micro-programs (R176) -/

/-- A run of micro-ops leaves memory and all registers but V[16..23] and V[31] alone, and gives in each lane of V[r] a
value that `g` makes of that lane and some drawn NaNs. -/
def ComputesLanes (fmt : Fmt) (r : VReg) (g : Nat → (Nat → Sample) → Sample) (s : State) (o : Outcome State) : Prop :=
  ∃ t, o = .next t ∧ t = { s with v := t.v, draws := t.draws } ∧
    (∀ q : VReg, q.val < 16 ∨ (24 ≤ q.val ∧ q.val < 31) → t.vreg q = s.vreg q) ∧
    ∀ i, i < fmt.lanes → ∃ nan, NaNChoice nan ∧ lane fmt (t.vreg r) i = g i nan

theorem narrow_clipLane {fmt : Fmt} {v lo hi : Sample} (hv : narrow fmt v = v) (hlo : narrow fmt lo = lo)
    (hhi : narrow fmt hi = hi) : narrow fmt (clipLane fmt v lo hi) = clipLane fmt v lo hi :=
  narrow_minLane (narrow_maxLane hv hlo) hhi

theorem execVclip_completes (fmt : Fmt) (d a b c : VReg) (s : State) :
    ∃ t, execVclip fmt d a b c s = .next t ∧ OnlyVreg d s t ∧ ∀ i, i < fmt.lanes →
      lane fmt (t.vreg d) i = clipLane fmt (lane fmt (s.vreg a) i) (lane fmt (s.vreg b) i) (lane fmt (s.vreg c) i) :=
  completes_of_setVreg rfl fun i hi =>
    (lane_packLanes fmt _ i hi).trans (narrow_clipLane (narrow_lane ..) (narrow_lane ..) (narrow_lane ..))

theorem OnlyVreg.andDraws {d : VReg} {s t : State} (h : OnlyVreg d s t) (fmt : Fmt) : OnlyVregAndDraws fmt d s t := by
  obtain ⟨hframe, hkeep⟩ := h
  have hdraws : t.draws = s.draws := by rw [hframe]
  refine ⟨?_, fun _ => hdraws, hkeep⟩
  rw [hdraws]
  exact hframe

theorem ne_resultReg {q : VReg} (h : q.val < 16 ∨ (24 ≤ q.val ∧ q.val < 31)) : q ≠ 31 := by
  rintro rfl
  revert h
  decide

/-- A last micro-op that writes V[31] alone ends the micro-program. -/
theorem computesLanes_of_onlyVregAndDraws {fmt : Fmt} {is : List Instr} {i : Instr}
    {g : Nat → (Nat → Sample) → Sample} {s t : State} (hrun : runUops is s = .next t)
    (hframe : t = { s with v := t.v })
    (hkeep : ∀ r : VReg, r.val < 16 ∨ 24 ≤ r.val → t.vreg r = s.vreg r)
    (h : ∃ u, execUop i t = .next u ∧ OnlyVregAndDraws fmt 31 t u ∧
      ∀ j, j < fmt.lanes → lane fmt (u.vreg 31) j = g j (t.nanAt j)) :
    ComputesLanes fmt 31 g s (runUops (is ++ [i]) s) := by
  obtain ⟨u, hu, ⟨huframe, -, hukeep⟩, hlanes⟩ := h
  refine ⟨u, (runUops_append_of_next hrun).trans (runUops_cons_of_next hu), ?_, fun q hq => ?_,
    fun j hj => ⟨t.nanAt j, nanAt_isNaN t j, hlanes j hj⟩⟩
  · rw [huframe, hframe]
  · rw [hukeep q (ne_resultReg hq), hkeep q (hq.imp_right And.left)]

/-- The micro-programs of modes 1 to 4 (R165 to R169). -/
theorem clampProgram_computesLanes (fmt : Fmt) (a b : Fin 8) (s : State) :
    ComputesLanes fmt 31
      (fun i _ => clipLane fmt (lane fmt (s.vreg 0) i) (sort8 fmt (ringLanes fmt s i))[a]
        (sort8 fmt (ringLanes fmt s i))[b])
      s (runUops (sortProgram fmt ++ [.vclip fmt 31 0 (sortReg a) (sortReg b)]) s) := by
  obtain ⟨t, hrun, hframe, hkeep, hsort⟩ := runUops_sortProgram fmt s
  obtain ⟨u, hu, hlast, hlanes⟩ := execVclip_completes fmt 31 0 (sortReg a) (sortReg b) t
  refine computesLanes_of_onlyVregAndDraws hrun hframe hkeep ⟨u, hu, hlast.andDraws fmt, fun j hj => ?_⟩
  rw [hlanes j hj, hkeep 0 (by decide), hsort j hj, hsort j hj]

/-- The micro-program of mode 64 (R172). -/
theorem median8Program_computesLanes (fmt : Fmt) (s : State) :
    ComputesLanes fmt 31
      (fun i nan => medAvgLane fmt nan (sort8 fmt (ringLanes fmt s i))[3] (sort8 fmt (ringLanes fmt s i))[4])
      s (runUops (sortProgram fmt ++ [.kmedavg fmt 31 (sortReg 3) (sortReg 4)]) s) := by
  obtain ⟨t, hrun, hframe, hkeep, hsort⟩ := runUops_sortProgram fmt s
  obtain ⟨u, hu, hlast, hlanes⟩ := execKmedavg_completes fmt 31 (sortReg 3) (sortReg 4) t
  refine computesLanes_of_onlyVregAndDraws hrun hframe hkeep ⟨u, hu, hlast, fun j hj => ?_⟩
  rw [hlanes j hj, hsort j hj, hsort j hj]
  rfl

/-- Settles O33: the network commutes with taking a lane, so SORT leaves SORT8 of each lane in the sort registers, and
the last micro-op applies the kernel's last operation to them. -/
theorem microProgramComputesTheKernel : Obligations.MicroProgramComputesTheKernel := by
  intro m fmt s hm
  have hstart : ∀ r : VReg, r.val < 16 ∨ 24 ≤ r.val → s.vreg r = s.vreg r := fun _ _ => rfl
  cases m with
  | undef => exact absurd rfl hm
  | pass => exact ⟨s, rfl, rfl, fun _ _ => rfl, fun i _ => ⟨s.nanAt i, nanAt_isNaN s i, rfl⟩⟩
  | clamp1 => exact clampProgram_computesLanes fmt 0 7 s
  | clamp2 => exact clampProgram_computesLanes fmt 1 6 s
  | clamp3 => exact clampProgram_computesLanes fmt 2 5 s
  | clamp4 => exact clampProgram_computesLanes fmt 3 4 s
  | mean8 => exact computesLanes_of_onlyVregAndDraws (is := []) rfl rfl hstart (execKmean8_completes fmt 31 s)
  | mean9 => exact computesLanes_of_onlyVregAndDraws (is := []) rfl rfl hstart (execKmean9_completes fmt 31 s)
  | median8 => exact median8Program_computesLanes fmt s

end Sys2Proof.Machine
end

section
/-! SUPPORT. The units of a row side by side: each ends before the next begins, and how many there are (R206, R208,
R209). A launch that stands still goes on to its end (R209). -/

namespace Sys2Proof.Machine

/-! ### Rows of the walk (R206) -/

theorem rowUnits_of_border {l cols rows y : Nat} (h : y = 0 ∨ y + 1 = rows ∨ cols < 3) :
    rowUnits l cols rows y = (List.range cols).map (scalarUnit y) :=
  if_pos (by simpa [scalarRow, or_assoc] using h)

theorem rowUnits_of_interior {l cols rows y : Nat} (hy : 0 < y) (hy' : y + 1 < rows) (hcols : 3 ≤ cols) :
    rowUnits l cols rows y = interiorRow l cols y :=
  if_neg (by simp only [scalarRow, Bool.or_eq_true, decide_eq_true_eq]; omega)

theorem mem_rowUnits_of_mem_planeUnits {ld : Latch} {u : WorkUnit} (hu : u ∈ planeUnits ld) :
    u ∈ rowUnits ld.fmt.lanes ld.cols ld.rows u.y := by
  obtain ⟨y, -, hrow⟩ := List.mem_flatMap.mp hu
  rwa [(mem_rowUnits (Fmt.lanes_pos ld.fmt) hrow).1]

/-! ### One unit for a pixel (R206) -/

/-- A unit ends before a later unit of its row begins: what follows a vector is the next vector, the rest of the
interior, or the last column. -/
theorem unit_ends_before_next {ld : Latch} {u w : WorkUnit} (hu : u ∈ planeUnits ld) (hw : w ∈ planeUnits ld)
    (hrow : u.y = w.y) (hlt : u.x < w.x) : u.x + u.width ld.fmt ≤ w.x := by
  cases hv : u.vector with
  | false =>
    simp only [WorkUnit.width, hv]
    exact hlt
  | true =>
    obtain ⟨k, hx⟩ := vector_unit_column hu hv
    obtain ⟨-, -, hinner⟩ := mem_planeUnits hu
    obtain ⟨-, hend, hy, hy'⟩ := hinner hv
    have hl := Fmt.lanes_pos ld.fmt
    have hnext : k * ld.fmt.lanes + ld.fmt.lanes = (k + 1) * ld.fmt.lanes := (Nat.succ_mul k _).symm
    have hafter {j : Nat} (hj : k < j) : (k + 1) * ld.fmt.lanes ≤ j * ld.fmt.lanes := Nat.mul_le_mul_right _ hj
    have hwrow := mem_rowUnits_of_mem_planeUnits hw
    rw [rowUnits_of_interior (by omega) (by omega) (by omega)] at hwrow
    simp only [WorkUnit.width, hv, if_true]
    obtain ⟨-, ⟨-, hwx⟩ | ⟨j, -, -, hwx⟩ | ⟨j, -, -, hwx⟩ | ⟨-, hwx⟩⟩ := mem_interiorRow hwrow
    · omega
    · have hkj : k < j := lt_of_mul_lt_mul_right (a := ld.fmt.lanes) (by omega) (Nat.zero_le _)
      have := hafter hkj
      omega
    · have hk : k < (ld.cols - 2) / ld.fmt.lanes := (Nat.le_div_iff_mul_le hl (x := k + 1)).mpr (by omega)
      have := hafter hk
      omega
    · omega

/-- What comes after a unit that covers a pixel comes after the pixel. -/
theorem Covers.walksBefore {ld : Latch} {u w : WorkUnit} {x y : Nat} (hcov : Covers ld u x y) (hu : u ∈ planeUnits ld)
    (hw : w ∈ planeUnits ld) (h : WalksBefore u w) : WalksBefore (scalarUnit y x) w := by
  obtain ⟨rfl, -, hend⟩ := hcov
  refine h.imp id fun ⟨hrow, hlt⟩ => ⟨hrow, ?_⟩
  exact lt_of_lt_of_le hend (unit_ends_before_next hu hw hrow hlt)

/-- A unit that covers a pixel does not come after it. -/
theorem Covers.not_walksBefore {ld : Latch} {w : WorkUnit} {x y : Nat} (hcov : Covers ld w x y) :
    ¬WalksBefore (scalarUnit y x) w := by
  obtain ⟨rfl, hstart, -⟩ := hcov
  simp only [WalksBefore, scalarUnit]
  omega

/-- Of two units one comes first in the walk (R208). -/
theorem planeUnits_trichotomy {ld : Latch} {u w : WorkUnit} (hu : u ∈ planeUnits ld) (hw : w ∈ planeUnits ld) :
    u = w ∨ WalksBefore u w ∨ WalksBefore w u := by
  have : Std.Symm fun a b => WalksBefore a b ∨ WalksBefore b a := ⟨fun _ _ => Or.symm⟩
  have hpair : (planeUnits ld).Pairwise fun a b => WalksBefore a b ∨ WalksBefore b a :=
    (planeUnits_pairwise ld).imp Or.inl
  exact or_iff_not_imp_left.mpr (hpair.forall hu hw)

theorem covers_unique {ld : Latch} {u w : WorkUnit} (hu : u ∈ planeUnits ld) (hw : w ∈ planeUnits ld) {x y : Nat}
    (hcu : Covers ld u x y) (hcw : Covers ld w x y) : w = u := by
  obtain heq | hwu | huw := planeUnits_trichotomy hw hu
  · exact heq
  · exact absurd (hcw.walksBefore hw hu hwu) hcu.not_walksBefore
  · exact absurd (hcu.walksBefore hu hw huw) hcw.not_walksBefore

/-! ### How many units (R209) -/

theorem length_interiorRow (l cols y : Nat) :
    (interiorRow l cols y).length = 2 + (cols - 2) / l + (cols - 2) % l := by
  simp only [interiorRow, List.length_cons, List.length_append, List.length_map, List.length_range, List.length_nil]
  omega

/-- A plane of fewer than 3 columns or rows has no interior: every pixel is a unit. -/
theorem length_planeUnits_of_border {ld : Latch} (h : ld.cols < 3 ∨ ld.rows < 3) :
    (planeUnits ld).length = ld.cols * ld.rows := by
  have hrow : ∀ y ∈ List.range ld.rows, (rowUnits ld.fmt.lanes ld.cols ld.rows y).length = ld.cols := fun y hy => by
    have := List.mem_range.mp hy
    rw [rowUnits_of_border (by omega), List.length_map, List.length_range]
  rw [planeUnits, List.length_flatMap, List.map_congr_left hrow]
  simp [Nat.mul_comm]

/-- The first and the last row are scalar, the rows between them interior. -/
theorem length_planeUnits_of_interior {ld : Latch} (hcols : 3 ≤ ld.cols) (hrows : 3 ≤ ld.rows) :
    (planeUnits ld).length = 2 * ld.cols +
      (ld.rows - 2) * (2 + (ld.cols - 2) / ld.fmt.lanes + (ld.cols - 2) % ld.fmt.lanes) := by
  obtain ⟨n, hn⟩ := Nat.exists_eq_add_of_le' (show 2 ≤ ld.rows by omega)
  have hinner : ∀ y ∈ (List.range n).map (· + 1), (rowUnits ld.fmt.lanes ld.cols (n + 2) y).length =
      2 + (ld.cols - 2) / ld.fmt.lanes + (ld.cols - 2) % ld.fmt.lanes := fun y hy => by
    obtain ⟨k, hk, rfl⟩ := List.mem_map.mp hy
    have := List.mem_range.mp hk
    rw [rowUnits_of_interior (by omega) (by omega) hcols, length_interiorRow]
  have hrange : List.range (n + 2) = 0 :: ((List.range n).map (· + 1) ++ [n + 1]) := by
    rw [List.range_succ_eq_map, List.range_succ, List.map_append]
    rfl
  rw [planeUnits, hn, hrange, List.length_flatMap, List.map_cons, List.map_append,
    List.map_congr_left hinner, List.map_singleton, rowUnits_of_border (.inl rfl),
    rowUnits_of_border (.inr (.inl rfl))]
  simp only [List.map_const', List.length_map, List.length_range, List.sum_cons, List.sum_append, List.sum_replicate,
    List.sum_nil, smul_eq_mul, Nat.add_sub_cancel]
  omega

/-- Settles O31. -/
theorem walkCoversEachPixelOnce : Obligations.WalkCoversEachPixelOnce := by
  intro ld
  refine ⟨planeUnits_pairwise ld, fun x y hx hy => ?_, fun _ _ => ?_⟩
  · obtain ⟨u, hu, hcov⟩ := planeUnits_cover hx hy
    exact ⟨u, hu, hcov, fun w hw hcov' => covers_unique hu hw hcov hcov'⟩
  · split
    · exact length_planeUnits_of_border ‹_›
    · exact length_planeUnits_of_interior (by omega) (by omega)

/-! ### Going on to the end (R209) -/

/-- Settles O30: the units from the cursor on are units of the plane, and nobody acts between them. -/
theorem resumedLaunchEnds : Obligations.ResumedLaunchEnds := by
  intro s hinv hbusy huop h
  obtain ⟨cur, v, hrun⟩ := runUnits_of_undisturbed (hinv.busy_valid hbusy).1
    (us := unitsFrom s.latch s.cursor) (fun _ hu => mem_unitsFrom hu) h hbusy
  rw [step_of_busy huop (h.turn_eq hbusy).1 hbusy, resumeLaunch]
  exact ⟨_, hrun, endLaunch_phase _ _, endLaunch_result _ _⟩

end Sys2Proof.Machine
end

section
/-! SUPPORT. What a launch leaves at each pixel: a unit stores the kernel of each of its pixels, from source bytes that
no unit before it has written, and the units after it write beyond the pixel (R61, R62, R64, R75, R200, R207, R208). -/

namespace Sys2Proof.Machine

/-! ### Loads of a unit, lane by lane (R161, R201, R207) -/

theorem srcAddr_add_columns (fmt : Fmt) (ld : Latch) (x y : Int) (j : Nat) :
    srcAddr fmt ld (x + j) y = srcAddr fmt ld x y + (j * fmt.ps : Nat) := by
  simp only [srcAddr]
  push_cast
  ring

theorem dstAddr_add_columns (fmt : Fmt) (ld : Latch) (x y : Int) (j : Nat) :
    dstAddr fmt ld (x + j) y = dstAddr fmt ld x y + (j * fmt.ps : Nat) := by
  simp only [dstAddr]
  push_cast
  ring

/-- Inside the grid the clamp changes nothing (R201). -/
theorem clampTo_of_inside {n u : Int} (h0 : 0 ≤ u) (hn : u < n) : clampTo n u = u := by
  simp only [clampTo]
  omega

/-- Lane j of what a unit loads for a neighbour is that neighbour of the unit's j-th pixel: a vector unit stands far
enough from the border for the clamp to change nothing. -/
theorem lane_unitVector {ld : Latch} {u : WorkUnit} (hgeo : ValidGeometry ld) (hu : u ∈ planeUnits ld) (mem : Memory)
    (nb : Nbi) {j : Nat} (hj : j < u.width ld.fmt) :
    lane ld.fmt (unitVector ld u mem nb) j = neighbourSample ld mem (u.x + j) u.y nb := by
  have hfirst := hgeo.nonneg (.inl (unit_load_in_readSet hgeo hu nb (accessBytes_pos _ _)))
  cases hv : u.vector with
  | false =>
    simp only [WorkUnit.width, hv, Bool.false_eq_true, if_false, Nat.lt_one_iff] at hj
    subst hj
    simp only [unitVector, hv, Bool.not_false]
    exact lane_readBytes_scalar _ _ _ _ (Fmt.lanes_pos _)
  | true =>
    simp only [WorkUnit.width, hv, if_true] at hj
    obtain ⟨-, -, hinner⟩ := mem_planeUnits hu
    obtain ⟨h1, h2, h3, h4⟩ := hinner hv
    obtain ⟨hdx, hdx', hdy, hdy'⟩ := nbi_offset_bounds nb
    have hcols : (ld.cols : Int) = ld.w := Int.toNat_of_nonneg hgeo.width_pos.le
    have hrows : (ld.rows : Int) = ld.h := Int.toNat_of_nonneg hgeo.height_pos.le
    have haddr := srcAddr_add_columns ld.fmt ld (u.x + nb.offset.1) (u.y + nb.offset.2) j
    simp only [hv, loadAddr, WorkUnit.cursor, Bool.not_true, Bool.false_eq_true, if_false] at hfirst
    simp only [unitVector, hv, loadAddr, accessBytes, WorkUnit.cursor, Bool.not_true, Bool.false_eq_true, if_false]
    rw [lane_readBytes_vector _ _ _ _ hj, neighbourSample, sourceSample, clampTo_of_inside (by omega) (by omega),
      clampTo_of_inside (by omega) (by omega), Nat.cast_add, add_right_comm, haddr]
    congr 1
    omega

/-! ### What a unit stores (R176, R200) -/

/-- Lane j of a unit's result is the kernel of its j-th pixel. -/
theorem lane_kernelOutput_unitVector {ld : Latch} {u : WorkUnit} (hgeo : ValidGeometry ld) (hu : u ∈ planeUnits ld)
    (mem : Memory) (draws : Nat) {j : Nat} (hj : j < u.width ld.fmt) :
    ∃ nan, NaNChoice nan ∧
      lane ld.fmt (kernelOutput (kernelMode ld.mode) ld.fmt (unitVector ld u mem) draws).1 j =
        outputSample ld nan mem (u.x + j) u.y := by
  have hmode : kernelMode ld.mode ≠ .undef := by cases ld.mode <;> decide
  have hlane : j < ld.fmt.lanes := by
    have := Fmt.lanes_pos ld.fmt
    simp only [WorkUnit.width] at hj
    split at hj <;> omega
  have hreg (nb : Nbi) : lane ld.fmt ((kernelInput (unitVector ld u mem) draws).vreg (neighbourReg nb)) j =
      neighbourSample ld mem (u.x + j) u.y nb := by
    rw [← lane_unitVector hgeo hu mem nb hj]
    simp [kernelInput, State.vreg, neighbourReg]
  have hring : ringLanes ld.fmt (kernelInput (unitVector ld u mem) draws) j = neighbourRing ld mem (u.x + j) u.y := by
    simp only [ringLanes, neighbourRing, Ring.mk.injEq]
    exact ⟨hreg 1, hreg 2, hreg 3, hreg 4, hreg 5, hreg 6, hreg 7, hreg 8⟩
  obtain ⟨t, hrun, -, -, hlanes⟩ :=
    microProgramComputesTheKernel _ ld.fmt (kernelInput (unitVector ld u mem) draws) hmode
  obtain ⟨nan, hnan, hkernel⟩ := hlanes j hlane
  refine ⟨nan, hnan, ?_⟩
  rw [hring] at hkernel
  simp only [kernelOutput, hrun, hkernel, outputSample]
  rw [← hreg 0]
  rfl

theorem accessBytes_le (fmt : Fmt) (sc : Bool) : accessBytes fmt sc ≤ 16 := by
  cases fmt <;> cases sc <;> decide

/-- A unit stores the kernel of each pixel that it covers, from the source bytes that `mem` holds. -/
theorem loadSample_unitStep_of_covers {ld : Latch} {u : WorkUnit} (hgeo : ValidGeometry ld) (hu : u ∈ planeUnits ld)
    {mem : Memory} {w : Progress} (hread : ∀ a : Nat, InRS ld a → w.mem.read a = mem.read a) {x y : Nat}
    (hcov : Covers ld u x y) :
    ∃ nan, NaNChoice nan ∧
      loadSample ld.fmt (unitStep ld w u).mem (dstAddr ld.fmt ld x y).toNat = outputSample ld nan mem x y := by
  obtain ⟨rfl, hstart, hend⟩ := hcov
  obtain ⟨j, rfl⟩ := Nat.exists_eq_add_of_le hstart
  have hj : j < u.width ld.fmt := Nat.lt_of_add_lt_add_left hend
  have hfirst := hgeo.nonneg (.inr (unit_store_in_writeSet hu (accessBytes_pos _ _)))
  have haddr : (dstAddr ld.fmt ld (u.x + j : Nat) u.y).toNat =
      (storeAddr ld.fmt ld u.cursor).toNat + j * ld.fmt.ps := by
    rw [Nat.cast_add, dstAddr_add_columns]
    simp only [storeAddr, WorkUnit.cursor] at hfirst ⊢
    omega
  have hsample : (j + 1) * ld.fmt.ps ≤ accessBytes ld.fmt (!u.vector) := by
    rw [accessBytes_eq_width]
    exact Nat.mul_le_mul_right _ hj
  obtain ⟨nan, hnan, hlane⟩ := lane_kernelOutput_unitVector hgeo hu mem w.draws hj
  refine ⟨nan, hnan, ?_⟩
  rw [haddr, unitStep, unitVector_congr hgeo hu hread]
  exact (loadSample_writeBytes_lane _ _ _ _ _ _ hsample (accessBytes_le _ _)).trans hlane

/-! ### What the later units leave (R62, R208) -/

/-- A pixel's sample ends before that of a later pixel begins: a row of the destination is no longer than its stride. -/
theorem dstAddr_end_le {ld : Latch} (hgeo : ValidGeometry ld) {x y : Nat} {u : WorkUnit} (hx : x < ld.cols)
    (h : WalksBefore (scalarUnit y x) u) :
    dstAddr ld.fmt ld x y + ld.fmt.ps ≤ dstAddr ld.fmt ld u.x u.y := by
  have hend {n : Nat} (hn : x < n) : (x : Int) * ld.fmt.ps + ld.fmt.ps ≤ n * ld.fmt.ps := by
    exact_mod_cast (Nat.succ_mul x ld.fmt.ps).symm.le.trans (Nat.mul_le_mul_right ld.fmt.ps hn)
  obtain hrow | ⟨hrow, hcol⟩ := h
  · have hcols : (ld.cols : Int) = ld.w := Int.toNat_of_nonneg hgeo.width_pos.le
    have hstride := hgeo.dst_stride
    have hlast := hend hx
    rw [hcols] at hlast
    have hstride0 : 0 ≤ ld.dstStride.toInt := by
      have : 0 ≤ (x : Int) * ld.fmt.ps := by positivity
      omega
    have hrows : ((y : Int) + 1) * ld.dstStride.toInt ≤ u.y * ld.dstStride.toInt :=
      Int.mul_le_mul_of_nonneg_right (by simp only [scalarUnit] at hrow; omega) hstride0
    have hx0 : 0 ≤ (u.x : Int) * ld.fmt.ps := by positivity
    rw [Int.add_mul, Int.one_mul] at hrows
    simp only [dstAddr]
    omega
  · have hlast := hend hcol
    simp only [scalarUnit] at hrow
    simp only [dstAddr, hrow]
    omega

theorem loadSample_unitStep_of_before {ld : Latch} (hgeo : ValidGeometry ld) {u : WorkUnit} {x y : Nat}
    (hx : x < ld.cols) (hy : y < ld.rows) (h : WalksBefore (scalarUnit y x) u) (w : Progress) :
    loadSample ld.fmt (unitStep ld w u).mem (dstAddr ld.fmt ld x y).toNat =
      loadSample ld.fmt w.mem (dstAddr ld.fmt ld x y).toNat := by
  have hle := dstAddr_end_le hgeo hx h
  have hps := Fmt.ps_pos ld.fmt
  have hfirst : 0 ≤ dstAddr ld.fmt ld x y := hgeo.nonneg (.inr ⟨x, y, 0, hx, hy, hps, by simp⟩)
  refine loadSample_writeBytes_outside _ _ _ _ _ _ (.inl ?_)
  simp only [storeAddr, WorkUnit.cursor]
  omega

theorem loadSample_unitSteps_of_before {ld : Latch} (hgeo : ValidGeometry ld) {us : List WorkUnit} {x y : Nat}
    (hx : x < ld.cols) (hy : y < ld.rows) (h : ∀ u ∈ us, WalksBefore (scalarUnit y x) u) (w : Progress) :
    loadSample ld.fmt (unitSteps ld us w).mem (dstAddr ld.fmt ld x y).toNat =
      loadSample ld.fmt w.mem (dstAddr ld.fmt ld x y).toNat := by
  induction us generalizing w with
  | nil => rfl
  | cons u rest ih =>
    exact (ih (fun v hv => h v (List.mem_cons_of_mem u hv)) (unitStep ld w u)).trans
      (loadSample_unitStep_of_before hgeo hx hy (h u List.mem_cons_self) w)

/-! ### The whole plane (R200) -/

/-- The work of all units leaves at each pixel what the pixel's own unit stored there. -/
theorem loadSample_planeWork {p : Params} {ld : Latch} (hvalid : ValidLaunch p ld) (w : Progress) {x y : Nat}
    (hx : x < ld.cols) (hy : y < ld.rows) :
    ∃ nan, NaNChoice nan ∧
      loadSample ld.fmt (planeWork ld w).mem (dstAddr ld.fmt ld x y).toNat = outputSample ld nan w.mem x y := by
  have hgeo := hvalid.geometry
  obtain ⟨u, hu, hcov⟩ := planeUnits_cover hx hy
  obtain ⟨us, vs, hplane⟩ := List.append_of_mem hu
  have hunits : ∀ v ∈ us ++ u :: vs, v ∈ planeUnits ld := fun v hv => hplane ▸ hv
  have hread : ∀ a : Nat, InRS ld a → (unitSteps ld us w).mem.read a = w.mem.read a := fun a ha =>
    unitSteps_read_of_not_inWS hgeo (fun v hv => hunits v (List.mem_append_left _ hv)) w
      fun hws => hvalid.disjoint a ⟨ha, hws⟩
  have hlater : ∀ v ∈ vs, WalksBefore (scalarUnit y x) v := fun v hv => by
    have hpair := planeUnits_pairwise ld
    rw [hplane, List.pairwise_append, List.pairwise_cons] at hpair
    obtain ⟨-, ⟨hafter, -⟩, -⟩ := hpair
    exact hcov.walksBefore hu (hunits v (List.mem_append_right _ (List.mem_cons_of_mem u hv))) (hafter v hv)
  obtain ⟨nan, hnan, hstored⟩ := loadSample_unitStep_of_covers hgeo hu hread hcov
  refine ⟨nan, hnan, ?_⟩
  rw [planeWork, hplane, unitSteps_append]
  exact (loadSample_unitSteps_of_before hgeo hx hy hlater _).trans hstored

/-- Settles O24. -/
theorem launchWritesTheFilteredPlane : Obligations.LaunchWritesTheFilteredPlane := by
  intro s m fmt al hidle h hmode hvalid
  obtain ⟨v, hexec⟩ := exec_filter_of_undisturbed hidle h hmode hvalid
  refine ⟨_, hexec, launchEnd_result .., fun x y hx hy => ?_⟩
  rw [launchEnd_mem]
  exact loadSample_planeWork hvalid s.progress hx hy

end Sys2Proof.Machine
end

section
/-! SUPPORT. How a launch that fails a check of acceptance ends: with its error code, nothing else done (R231, R233 to
R236). -/

namespace Sys2Proof.Machine

/-! ### The end of a launch that ran no unit (R231) -/

/-- A launch that ends as soon as it is accepted has worked on nothing. -/
theorem endLaunch_acceptCommand_unworked (r : ResultCode) (m : Mode) (fmt : Fmt) (al : Bool) (s : State) :
    endLaunch r (acceptCommand m fmt al s) = launchEnd m fmt al r s.v s.mem s.draws s := by
  have hunworked : (acceptCommand m fmt al s).worked Cursor.origin s.v s.progress = acceptCommand m fmt al s := by
    unfold acceptCommand
    cases s.issuer <;> rfl
  rw [← hunworked]
  exact endLaunch_acceptCommand r m fmt al s Cursor.origin s.v s.progress

/-! ### The checks that fail (R233 to R235) -/

theorem configError_eq_true_iff (p : Params) (m : Mode) (fmt : Fmt) :
    configError p m fmt = true ↔ m = .undef ∧ p.sentinelPolicy ≠ .identity := by
  rw [← Bool.not_eq_false, configError_eq_false_iff, Accepted, Classical.not_imp]

theorem geometryError_eq_true_iff (ld : Latch) :
    geometryError ld = true ↔ ld.w ≤ 0 ∨ ld.h ≤ 0 ∨ ld.srcStride.toInt < ld.w * ld.fmt.ps ∨
      ld.dstStride.toInt < ld.w * ld.fmt.ps := by
  simp only [geometryError, Bool.or_eq_true, decide_eq_true_eq, or_assoc]

/-- The configuration check comes first, so the geometry does not matter (R235). -/
theorem filterPlane_of_configError {s : State} {m : Mode} {fmt : Fmt} {al : Bool} (hidle : s.phase = .idle)
    (hconfig : configError s.params m fmt = true) :
    filterPlane m fmt al s = .next (launchEnd m fmt al .errMode s.v s.mem s.draws s) := by
  rw [← endLaunch_acceptCommand_unworked]
  simp [filterPlane, hidle, startLaunch, hconfig]

theorem filterPlane_of_geometryError {s : State} {m : Mode} {fmt : Fmt} {al : Bool} (hidle : s.phase = .idle)
    (hmode : Accepted s.params m) (hgeo : geometryError (latchOf m fmt al s.regs) = true) :
    filterPlane m fmt al s = .next (launchEnd m fmt al .errGeometry s.v s.mem s.draws s) := by
  rw [← endLaunch_acceptCommand_unworked]
  simp [filterPlane, hidle, startLaunch, (configError_eq_false_iff _ _ fmt).mpr hmode, hgeo]

/-- Settles O19: the check of the latched geometry fails in each of the four cases. -/
theorem invalidGeometryEndsWithErrGeometry : Obligations.InvalidGeometryEndsWithErrGeometry := by
  intro s m fmt al hidle hmode hinvalid
  have hgeo : geometryError (latchOf m fmt al s.regs) = true := (geometryError_eq_true_iff _).mpr hinvalid
  rw [exec_filter, filterPlane_of_geometryError hidle hmode hgeo]

/-- Settles O18: the sentinel is FILTER_PLANE with mode -1, whose configuration check fails under REJECT. -/
theorem rejectedSentinelEndsWithErrMode : Obligations.RejectedSentinelEndsWithErrMode := by
  intro s fmt al hidle hreject
  have hconfig : configError s.params .undef fmt = true :=
    (configError_eq_true_iff _ _ fmt).mpr ⟨rfl, by simp [hreject]⟩
  exact (exec_filter .undef fmt al s).trans (filterPlane_of_configError hidle hconfig)

end Sys2Proof.Machine
end

section
/-! SUPPORT. What no memory content decides: the fault of a command, and the result and the phase it leaves (R261); and
the turn of an engine with nothing to do (R273). -/

namespace Sys2Proof.Machine

/-! ### Nothing to do (R273) -/

/-- Settles O9: no access is due, and the turn that passes leaves both lists of accesses empty. -/
theorem idleStepChangesNothing : Obligations.IdleStepChangesNothing := by
  intro s huop hothers hidle hhost
  have hnone : NoAccessDue s :=
    { no_uop := huop, no_other := by simp [NoOtherDue, hothers], no_host := .inr (by simp [hhost]) }
  obtain ⟨hdue, hturn⟩ := hnone.due_eq_none
  have hsame : s.takeTurn = s :=
    calc s.takeTurn
      _ = { s with host := [], others := [] } := by simp [hturn, hhost, hothers]
      _ = s := by cases s; cases hhost; cases hothers; rfl
  rw [step_of_idle huop hdue hidle, hsame]

/-! ### What a launch does whatever the data -/

/-- Two runs fault alike, or answer states that differ by what units change alone: the cursor, the vector registers,
memory and draws. -/
inductive AlikeButData : Outcome State → Outcome State → Prop
  | fault (f : Fault) : AlikeButData (.fault f) (.fault f)
  | next (t : State) (cur : Cursor) (v : Vector Vec 32) (w : Progress) :
      AlikeButData (.next t) (.next (t.worked cur v w))

theorem AlikeButData.fault_iff {o p : Outcome State} (h : AlikeButData o p) (f : Fault) :
    o = .fault f ↔ p = .fault f := by
  cases h with
  | fault g => exact Iff.rfl
  | next t cur v w => simp

theorem AlikeButData.result_phase_eq {o p : Outcome State} (h : AlikeButData o p) {t u : State} (ho : o = .next t)
    (hp : p = .next u) : t.result = u.result ∧ t.phase = u.phase := by
  cases h with
  | fault g => cases ho
  | next t' cur v w =>
    cases ho
    cases hp
    exact ⟨rfl, rfl⟩

theorem endLaunch_worked (r : ResultCode) (s : State) (cur : Cursor) (v : Vector Vec 32) (w : Progress) :
    endLaunch r (s.worked cur v w) = (endLaunch r s).worked Cursor.origin v w := by
  cases h : s.issuer <;> simp only [endLaunch, State.worked, State.respond, h]

theorem acceptCommand_worked (m : Mode) (fmt : Fmt) (al : Bool) (s : State) (cur : Cursor) (v : Vector Vec 32)
    (w : Progress) :
    acceptCommand m fmt al (s.worked cur v w) = (acceptCommand m fmt al s).worked Cursor.origin v w := by
  cases h : s.issuer <;> simp only [acceptCommand, State.worked, State.respond, h]

theorem alikeButData_endLaunch (r : ResultCode) (s : State) (cur : Cursor) (v : Vector Vec 32) (w : Progress) :
    AlikeButData (.next (endLaunch r s)) (.next (endLaunch r (s.worked cur v w))) := by
  rw [endLaunch_worked]
  exact .next ..

/-- The units of a valid launch complete whatever the data, and which access is due does not depend on it, so the walks
stand still at the same unit or both reach the end. -/
theorem runUnits_alikeButData {us : List WorkUnit} {s : State} (hvalid : ValidLaunch s.params s.latch)
    (hus : ∀ u ∈ us, u ∈ planeUnits s.latch) (cur : Cursor) (v : Vector Vec 32) (w : Progress) :
    AlikeButData (runUnits us s) (runUnits us (s.worked cur v w)) := by
  induction us generalizing s cur v w with
  | nil => exact alikeButData_endLaunch .ok s cur v w
  | cons u rest ih =>
    have hdue : (s.worked cur v w).due = s.due := rfl
    simp only [runUnits, hdue]
    cases s.due with
    | some d => exact .next { s with cursor := u.cursor } u.cursor v w
    | none =>
      have hu := hus u List.mem_cons_self
      obtain ⟨v₁, hunit⟩ := runUnit_eq (s := s.takeTurn) hvalid hu
      obtain ⟨v₂, hunit'⟩ := runUnit_eq (s := (s.worked cur v w).takeTurn) hvalid hu
      simp only [hunit, hunit']
      exact ih (s := s.takeTurn.worked u.cursor v₁ (unitStep s.latch s.progress u)) hvalid
        (fun x hx => hus x (List.mem_cons_of_mem u hx)) u.cursor v₂ (unitStep s.latch w u)

/-! ### Commands (R230, R261) -/

/-- The checks of acceptance read the parameters and the latched descriptor alone, and let only valid launches through
to the walk. -/
theorem startLaunch_alikeButData (m : Mode) (fmt : Fmt) (s : State) (cur : Cursor) (v : Vector Vec 32) (w : Progress) :
    AlikeButData (startLaunch m fmt s) (startLaunch m fmt (s.worked cur v w)) := by
  have hparams : (s.worked cur v w).params = s.params := rfl
  have hlatch : (s.worked cur v w).latch = s.latch := rfl
  simp only [startLaunch, hparams, hlatch]
  split
  · exact alikeButData_endLaunch .errMode s cur v w
  split
  · exact alikeButData_endLaunch .errGeometry s cur v w
  rename_i hgeo
  cases hfault : launchFault s.params s.latch with
  | some f => exact .fault f
  | none =>
    have hvalid := (validLaunch_iff s.params s.latch).mpr ⟨by simpa using hgeo, hfault⟩
    exact runUnits_alikeButData hvalid (fun _ hu => hu) cur v w

theorem filterPlane_alikeButData (m : Mode) (fmt : Fmt) (al : Bool) (s : State) (cur : Cursor) (v : Vector Vec 32)
    (w : Progress) : AlikeButData (filterPlane m fmt al s) (filterPlane m fmt al (s.worked cur v w)) := by
  have hphase : (s.worked cur v w).phase = s.phase := rfl
  simp only [filterPlane, hphase, acceptCommand_worked]
  cases s.phase with
  | busy => exact .next s cur v w
  | idle => exact startLaunch_alikeButData m fmt _ Cursor.origin v w

/-- Settles O25: another memory is other data, so the command faults alike or leaves the same result and phase. -/
theorem noDataDependentErrors : Obligations.NoDataDependentErrors := by
  intro s m fmt al mem
  have halike : AlikeButData (exec (Instr.filter m fmt al) s) (exec (Instr.filter m fmt al) { s with mem := mem }) := by
    rw [exec_filter, exec_filter]
    exact filterPlane_alikeButData m fmt al s s.cursor s.v { mem := mem, draws := s.draws }
  exact ⟨halike.fault_iff, fun _ _ ht hu => halike.result_phase_eq ht hu⟩

end Sys2Proof.Machine
end

section
/-! SUPPORT. What reset leaves, at any time: every register at 0, and memory as it was outside the write set of a launch
it abandons (R280, R281). -/

namespace Sys2Proof.Machine

/-! ### Registers (R22, R30) -/

/-- The registers' contents are the register block and, for STATUS, the phase and RESULT. -/
theorem readReg_congr {s t : State} (hregs : s.regs = t.regs) (hphase : s.phase = t.phase)
    (hresult : s.result = t.result) (n : RegName) : s.readReg n = t.readReg n := by
  cases n with
  | status => simp only [State.readReg, statusWord, hphase, hresult]
  | _ => simp only [State.readReg, hregs]

/-- Reset at any time leaves the register contents of the reset state. -/
theorem readReg_resetUnit (s : State) (n : RegName) : (resetUnit s).readReg n = 0#32 := by
  obtain ⟨hzero, -, -⟩ := resetStateIsClear
  obtain ⟨_, _, _, _, heq, -⟩ := resetUnit_eq s
  rw [heq]
  exact (readReg_congr rfl rfl rfl n).trans (hzero n)

/-! ### Memory (R64, R281) -/

/-- The bytes that reset draws for a valid geometry are bytes of WS: their addresses are not negative. -/
theorem ValidGeometry.inWS_of_mem_writeSet {ld : Latch} (h : ValidGeometry ld) {n : Nat} (hn : n ∈ writeSet ld) :
    InWS ld n := by
  obtain ⟨a, ha, rfl⟩ := mem_writeSet hn
  rwa [Int.toNat_of_nonneg (h.nonneg (.inr ha))]

theorem read_scramble_writeSet {s : State} (hgeo : ValidGeometry s.latch) {a : Nat} (ha : ¬InWS s.latch a) :
    (scramble s (writeSet s.latch)).mem.read a = s.mem.read a :=
  read_scramble_of_not_mem (writeSet s.latch) s a (mt hgeo.inWS_of_mem_writeSet ha)

/-- Settles O17: reset is one access, and what it leaves differs by phase in memory and in the answers alone. -/
theorem resetClearsTheUnit : Obligations.ResetClearsTheUnit := by
  intro s m
  have hregs := readReg_resetUnit s
  obtain ⟨mem, draws, hostResponse, othersResponse, heq, hidle, hbusy⟩ := resetUnit_eq s
  rw [heq] at hregs
  refine ⟨_, congrArg Host.Outcome.next heq, hregs, rfl, rfl, fun hp => ?idle, fun hp hinv a ha => ?write_set,
    fun hp hissuer => ?answer, rfl, rfl, rfl⟩
  case idle =>
    obtain ⟨hmem, -⟩ := hidle hp
    exact hmem
  case write_set =>
    obtain ⟨rfl, -⟩ := hbusy hp
    obtain ⟨hvalid, -⟩ := hinv.busy_valid hp
    exact read_scramble_writeSet hvalid.geometry ha
  case answer =>
    obtain ⟨-, hresponse⟩ := hbusy hp
    simpa only [hissuer] using hresponse

end Sys2Proof.Machine
end
